-- ==== Sys2Proof/Word.lean ====
section
/-! DEFINITION. The word types of the DSSS core (00_scope.md R4, R5). Conversions that a test could show wrong are in
Machine/Operands.lean. -/

namespace Sys2Proof

/-- A word: 32 bits (R5); the width of the bus, of every register and of a sample. -/
abbrev Word := BitVec 32

/-- A message byte (10_state.md R42), and one byte lane of the bus (20_memory.md R72). -/
abbrev Byte := BitVec 8

/-- A polarity bit: 1 stands for +1 and 0 for -1 (00_scope.md R9). -/
abbrev PolBit := BitVec 1

/-- The word index of a bus access: byte offset bits 7:2 (20_memory.md R71). -/
abbrev RegIndex := BitVec 6

end Sys2Proof
end

