-- ==== Sys2Proof/Config.lean ====
section
/-! DEFINITION. What an instance of the block fixes (00_scope.md R4), and the one free value (93_implementation_defined.md
U21). -/

namespace Sys2Proof

/-- The instance parameters of R4. LATENCY is no number here: it is how many entries of the input queue stand before the
engine's turn (notes/assumptions/1.md). The parameters are carried in State and no step changes them
(notes/assumptions/2.md), so that a statement about every state is about every instance. -/
structure Params where
  /-- N_PN_MAX: PN cells; the largest legal spreading factor. -/
  pnMax : Nat
  /-- N_MSG_MAX: MSG cells. -/
  msgMax : Nat
  /-- N_SMP_MAX: SMP cells. -/
  smpMax : Nat
deriving DecidableEq, Repr

/-- N_SYM_MAX = 8 × N_MSG_MAX (R4). -/
def Params.symMax (p : Params) : Nat := 8 * p.msgMax

/-- The instance this spec describes (R4, column "default"). -/
def Params.default : Params := { pnMax := 4096, msgMax := 4096, smpMax := 131072 }

/-- FREE VALUE. What the `n`-th host read made while rst_n = 0 returns: R230 "a read returns an unspecified value; a model
treats that read value as a draw", U21 "any value". It has no body, so no proof can see a value of it
(notes/assumptions/6.md). -/
opaque Config.resetRead : Nat → Word

end Sys2Proof
end

