-- ==== Sys2Proof/Syntax.lean ====
section
/-! DEFINITION. The commands: one constructor for each row of spec/opcode_table.json (30_encoding.md R91). -/

namespace Sys2Proof

/-- The seven commands. A command has no immediate and no register field (R93): every operand is a named register or
memory, and the one modifier, A, is the difference between SPREAD and SPREAD.ADD (R90). -/
inductive Instr where
  /-- NOP (44_control.md R180). -/
  | nop
  /-- GEN_PN (41_pn_generator.md R122). -/
  | genPn
  /-- ENCODE (40_bit_codec.md R100). -/
  | encode
  /-- SPREAD (42_spreader.md R141). -/
  | spread
  /-- SPREAD.ADD (42_spreader.md R142). -/
  | spreadAdd
  /-- CORRELATE (43_correlator_slicer.md R162). -/
  | correlate
  /-- DECODE (40_bit_codec.md R101). -/
  | decode
deriving DecidableEq, Repr

end Sys2Proof
end

