-- ==== Sys2Proof/WellFormed.lean ====
section
/-! DEFINITION. When an instruction, a command word and an instance are well formed. -/

namespace Sys2Proof

/-- Every command is well formed: none has an operand field that could be out of range (30_encoding.md R93). -/
def Instr.wellFormed : Instr → Bool
  | .nop => true
  | .genPn => true
  | .encode => true
  | .spread => true
  | .spreadAdd => true
  | .correlate => true
  | .decode => true

/-- RES, bits 31:9, "reserved, must be 0" (R90). -/
def reservedBitsZero (w : Word) : Bool := w &&& 0xFFFFFE00#32 == 0#32

/-- A, bit 8, "must be 0 for every other opcode" than 0x03 (R90). -/
def accumulateOnlySpread (w : Word) : Bool := w &&& 0x100#32 == 0#32 || w &&& 0xFF#32 == 3#32

/-- OP, bits 7:0, is one of the map's opcodes: 0x06 to 0xFF are illegal (R91, R94). -/
def opcodeKnown (w : Word) : Bool := decide ((w &&& 0xFF#32).toNat ≤ 5)

/-- The legal command words, said by R94's three conditions and not by the decoder. -/
def wellFormedWord (w : Word) : Bool := reservedBitsZero w && accumulateOnlySpread w && opcodeKnown w

/-- The constraints "what every legal instance satisfies" of 00_scope.md R4. -/
def Params.legal (p : Params) : Bool :=
  decide (1 ≤ p.pnMax) && decide (p.pnMax ≤ 2 ^ 31) && decide (1 ≤ p.msgMax) && decide (p.msgMax ≤ 2 ^ 28)
    && decide (1 ≤ p.smpMax) && decide (p.smpMax ≤ 2 ^ 31)

end Sys2Proof
end

