-- ==== Sys2Proof/Decode.lean ====
section
/-! DEFINITION. The decoder of a command word (30_encoding.md R90 to R95) and the encoder. -/

namespace Sys2Proof

/-- Why a command word is illegal; each completes with ILLEGAL (R94). `subWord` is no command word: it answers fewer than
four byte lanes (20_memory.md R73). -/
inductive DecodeError where
  /-- w[31:9] ≠ 0. -/
  | reservedBits
  /-- A = 1 with OP ≠ 0x03. -/
  | accumulate
  /-- OP in 0x06 to 0xFF. -/
  | opcode
  /-- A bridged access of fewer than four byte lanes, which cannot be expressed at the block's ports (R73). -/
  | subWord
deriving DecidableEq, Repr

/-- OP, bits 7:0 (R90). -/
def cmdOp (w : Word) : BitVec 8 := w.extractLsb' 0 8

/-- A, bit 8 (R90). -/
def cmdA (w : Word) : Bool := w.getLsbD 8

/-- RES, bits 31:9 (R90). -/
def cmdRes (w : Word) : BitVec 23 := w.extractLsb' 9 23

/-- The opcode map for A = 0 and OP ≠ 0x03 (R91, R92). -/
def decodeOp (op : BitVec 8) : Except DecodeError Instr :=
  if op = 0x00#8 then .ok .nop
  else if op = 0x01#8 then .ok .genPn
  else if op = 0x02#8 then .ok .encode
  else if op = 0x04#8 then .ok .correlate
  else if op = 0x05#8 then .ok .decode
  else .error .opcode

/-- The decoding rule, R92: total, every word is one of the seven commands or illegal. -/
def decode (w : Word) : Except DecodeError Instr :=
  if cmdRes w ≠ 0#23 then .error .reservedBits
  else if cmdOp w = 0x03#8 then (if cmdA w then .ok .spreadAdd else .ok .spread)
  else if cmdA w then .error .accumulate
  else decodeOp (cmdOp w)

/-- A word from the four byte lanes of a bridged bus: "byte lane 0 is bits 7:0, and lane 3 is bits 31:24" (20_memory.md
R72). -/
def wordOfLanes (lane0 lane1 lane2 lane3 : Byte) : Word := lane3 ++ lane2 ++ lane1 ++ lane0

/-- The command at the head of a byte string, as a byte-addressed host's bridge hands it over, with the bytes left. All
commands have the same length (R95). -/
def decodeBytes : List Byte → Except DecodeError (Instr × List Byte)
  | b0 :: b1 :: b2 :: b3 :: rest =>
    match decode (wordOfLanes b0 b1 b2 b3) with
    | .ok i => .ok (i, rest)
    | .error e => .error e
  | _ => .error .subWord

/-- The word of each command (R91). -/
def encode : Instr → Word
  | .nop => 0x00000000#32
  | .genPn => 0x00000001#32
  | .encode => 0x00000002#32
  | .spread => 0x00000003#32
  | .spreadAdd => 0x00000103#32
  | .correlate => 0x00000004#32
  | .decode => 0x00000005#32

/-- The byte lanes of a command word, lane 0 first (20_memory.md R72). -/
def encodeBytes (i : Instr) : List Byte :=
  [(encode i).extractLsb' 0 8, (encode i).extractLsb' 8 8, (encode i).extractLsb' 16 8, (encode i).extractLsb' 24 8]

/-- The command word whose low `nbits` bits are those of `w`; bits above are zero. -/
def tableWord (nbits w : Nat) : Word := BitVec.ofNat 32 (w % 2 ^ nbits)

/-- What the decoder reads from an opcode-table word (spec/opcode_table.json numbers bit 0 least significant, as R5
does). -/
def decodeTableWord (nbits w : Nat) : Option Instr :=
  match decode (tableWord nbits w) with
  | .ok i => some i
  | .error _ => none

/-! The words of R91 written out bit by bit from R90's encoding string (bit 31 on the left: RES, then A, then OP), each
decoding to its command; and back. -/

theorem decode_word_of_nop : decode 0b00000000000000000000000_0_00000000#32 = .ok .nop := by decide
theorem decode_word_of_genPn : decode 0b00000000000000000000000_0_00000001#32 = .ok .genPn := by decide
theorem decode_word_of_encode : decode 0b00000000000000000000000_0_00000010#32 = .ok .encode := by decide
theorem decode_word_of_spread : decode 0b00000000000000000000000_0_00000011#32 = .ok .spread := by decide
theorem decode_word_of_spreadAdd : decode 0b00000000000000000000000_1_00000011#32 = .ok .spreadAdd := by decide
theorem decode_word_of_correlate : decode 0b00000000000000000000000_0_00000100#32 = .ok .correlate := by decide
theorem decode_word_of_decode : decode 0b00000000000000000000000_0_00000101#32 = .ok .decode := by decide

end Sys2Proof
end

