-- ==== Sys2Proof/Machine/State.lean ====
section
/-! DEFINITION. The state of the DSSS core (10_state.md), plain data. -/

namespace Sys2Proof.Machine

/-- A block memory (10_state.md R40 to R44): (cell index, value) pairs. An index that is not listed holds no value, R44's
`none`. Canonical form: indexes strictly rising. `Memory 8`, the MSG memory, is a list of `Host.Cell`. -/
abbrev Memory (w : Nat) := List (Nat × BitVec w)

/-- The canonical form of a memory: indexes strictly rising, so that equal contents are equal lists. -/
abbrev Memory.wf {w : Nat} (m : Memory w) : Prop := m.Pairwise (fun a b => a.1 < b.1)

/-- Every listed cell lies inside a memory of `n` cells (20_memory.md R70, R84). -/
abbrev Memory.within {w : Nat} (n : Nat) (m : Memory w) : Prop := ∀ c ∈ m, c.1 < n

/-- The four block memories (00_scope.md R7). -/
inductive MemName where
  | pn
  | sym
  | msg
  | smp
deriving DecidableEq, Repr

/-- The error codes that a command can report (60_exceptions.md R201); codes 6 to 15 are never produced. -/
inductive ErrCode where
  /-- 0 NONE. -/
  | noError
  /-- 1 ILLEGAL. -/
  | illegal
  /-- 2 SF_RANGE. -/
  | sfRange
  /-- 3 LEN_RANGE. -/
  | lenRange
  /-- 4 CAPACITY. -/
  | capacity
  /-- 5 NOTERM. -/
  | noTerm
deriving DecidableEq, Repr

/-- The fields of STATUS (10_state.md R25). Bits 7 and 31:12 are reserved and read as zero, so they have no field; the word
the host reads is `Status.toWord` (Machine/Flags.lean). -/
structure Status where
  busy : Bool
  done : Bool
  err : Bool
  herr : Bool
  term : Bool
  clip : Bool
  ovf : Bool
  errcode : ErrCode
deriving DecidableEq, Repr

/-- STATUS after reset: all fields 0 (R49). -/
def Status.reset : Status :=
  { busy := false, done := false, err := false, herr := false, term := false, clip := false, ovf := false,
    errcode := .noError }

/-- Who read a cell that holds no value: "names the command or access" (60_exceptions.md R216). -/
inductive Reader where
  /-- A command's `MemRead`. -/
  | command (i : Instr)
  /-- A host read of the memory's data port. -/
  | dataPort (x : MemName)
deriving DecidableEq, Repr

/-- Why the machine stops. -/
inductive Fault where
  /-- The model fault Uninit (R216): a command of Machine/PnGenerator, BitCodec, Spreader or Correlator, or a data-port read
  of Machine/Bus, read a cell that holds no value. SAFE: the hardware goes on with a value that no source gives. -/
  | uninit (by_ : Reader)
deriving DecidableEq, Repr

/-- What the model gives no meaning. -/
inductive Refusal where
  /-- An instruction without a meaning yet: raised by exec's refused arms only, and no arm is refused. SAFE. -/
  | notModelled (mnemonic : String)
deriving DecidableEq, Repr

/-- One thing that happens at the block's ports, or the engine's turn (00_scope.md R10; 20_memory.md R71). -/
inductive Input where
  /-- A bus write: sel = 1, we = 1. -/
  | write (idx : RegIndex) (wdata : Word)
  /-- A bus read: sel = 1, we = 0. -/
  | read (idx : RegIndex)
  /-- No access; the engine's completion falls here if a command is pending (44_control.md R182). -/
  | engine
  /-- The external reset port takes this level (70_reset_and_hazards.md R230); `false` is rst_n = 0. -/
  | rst (level : Bool)
deriving DecidableEq, Repr

/-- Everything the spec gives the block, and what its environment has still to do. INVENTORY.md lists the rule that names
each field. -/
structure State where
  /-- The instance parameters (00_scope.md R4); no step changes them. -/
  params : Params
  /-- CTRL.IE (10_state.md R24). -/
  ie : Bool
  /-- STATUS (R25). -/
  status : Status
  /-- SEED (R28). -/
  seed : Word
  /-- SF, the spreading factor (R29). -/
  sf : Word
  /-- NSYM (R30). -/
  nsym : Word
  /-- MLEN (R31). -/
  mlen : Word
  /-- SLEN (R32). -/
  slen : Word
  /-- STRENGTH, bits 30:0 (R33). -/
  strength : BitVec 31
  /-- CORR = CORR_HI, CORR_LO (R34). -/
  corr : BitVec 64
  /-- PN_PTR (R35). -/
  pnPtr : Word
  /-- SYM_PTR (R35). -/
  symPtr : Word
  /-- MSG_PTR (R35). -/
  msgPtr : Word
  /-- SMP_PTR (R35). -/
  smpPtr : Word
  /-- The PN memory (R40). -/
  pn : Memory 1
  /-- The SYM memory (R41). -/
  sym : Memory 1
  /-- The MSG memory (R42). -/
  msg : Memory 8
  /-- The SMP memory (R43). -/
  smp : Memory 32
  /-- PENDING: the latched command word, or none when the engine is idle (R21, R45). -/
  pending : Option Word
  /-- The model's fault mark (R47). -/
  faultMark : Option Fault
  /-- The level of the port rst_n (20_memory.md R71). -/
  rstN : Bool
  /-- What the last bus read returned on rdata (20_memory.md R71): a record of that read, not the wire between reads
  (notes/assumptions/5.md). -/
  rdata : Word
  /-- What happens next at the ports, in order (notes/assumptions/1.md). -/
  inputs : List Input
  /-- How many free values the reads made under reset have taken (notes/assumptions/6.md). -/
  draws : Nat
deriving DecidableEq, Repr

/-- The block with the given parameters right after the external reset (10_state.md R49; 70_reset_and_hazards.md R231). -/
def State.resetWith (p : Params) : State :=
  { params := p, ie := false, status := Status.reset, seed := 0#32, sf := 0#32, nsym := 0#32, mlen := 0#32,
    slen := 0#32, strength := 0#31, corr := 0#64, pnPtr := 0#32, symPtr := 0#32, msgPtr := 0#32, smpPtr := 0#32,
    pn := [], sym := [], msg := [], smp := [], pending := none, faultMark := none, rstN := true, rdata := 0#32,
    inputs := [], draws := 0 }

/-- The spec's instance right after the external reset. -/
def State.reset : State := State.resetWith Params.default

end Sys2Proof.Machine
end

