-- ==== Sys2Proof/Machine/Flags.lean ====
section
/-! DEFINITION. STATUS as a word and every flag computation (10_state.md R25, R26, R48; 60_exceptions.md R201, R208). -/

namespace Sys2Proof.Machine

/-- The number of an error code in STATUS.ERRCODE (60_exceptions.md R201). -/
def ErrCode.code : ErrCode → BitVec 4
  | .noError => 0#4
  | .illegal => 1#4
  | .sfRange => 2#4
  | .lenRange => 3#4
  | .capacity => 4#4
  | .noTerm => 5#4

/-- STATUS as the host reads it (10_state.md R25), bit 31 first: reserved 31:12, ERRCODE 11:8, reserved 7, then OVF, CLIP,
TERM, HERR, ERR, DONE, BUSY. -/
def Status.toWord (f : Status) : Word :=
  0#20 ++ f.errcode.code ++ 0#1 ++ BitVec.ofBool f.ovf ++ BitVec.ofBool f.clip ++ BitVec.ofBool f.term
    ++ BitVec.ofBool f.herr ++ BitVec.ofBool f.err ++ BitVec.ofBool f.done ++ BitVec.ofBool f.busy

/-- A command issue sets BUSY and clears DONE (44_control.md R181). -/
def Status.issued (f : Status) : Status := { f with busy := true, done := false }

/-- Completion without error (44_control.md R182): ERR is sticky and keeps its value. -/
def Status.completedOk (f : Status) : Status := { f with errcode := .noError, busy := false, done := true }

/-- Completion with an error code (44_control.md R182). -/
def Status.completedError (c : ErrCode) (f : Status) : Status :=
  { f with errcode := c, err := true, busy := false, done := true }

/-- A host write to STATUS clears DONE, ERR, HERR and OVF where wdata has a 1; the other bits of wdata are ignored
(10_state.md R26). -/
def Status.clearedBy (wdata : Word) (f : Status) : Status :=
  { f with done := f.done && !wdata.getLsbD 1, err := f.err && !wdata.getLsbD 2, herr := f.herr && !wdata.getLsbD 3,
           ovf := f.ovf && !wdata.getLsbD 6 }

/-- The port irq: CTRL.IE AND STATUS.DONE (60_exceptions.md R208). -/
def State.irq (s : State) : Bool := s.ie && s.status.done

/-- SPREAD.ADD's OVF condition on one exact sum: it does not fit a 32-bit sample (42_spreader.md R142). -/
def sumWraps (v : Int) : Bool := decide (v < -2 ^ 31) || decide (2 ^ 31 - 1 < v)

/-- CORRELATE's CLIP: more full groups than SYM cells (43_correlator_slicer.md R162). -/
def clipFlag (gAll symMax : Nat) : Bool := decide (symMax < gAll)

end Sys2Proof.Machine
end

