-- ==== Sys2Proof/Machine/Operands.lean ====
section
/-! DEFINITION. Operand conversions (00_scope.md R6, R9), the operand checks of the commands in their order
(60_exceptions.md R202), and the register map (10_state.md R22). -/

namespace Sys2Proof.Machine

/-- `sint32(w)`: the two's-complement value of a word (00_scope.md R6). -/
def sint32 (w : Word) : Int := if w.toNat < 2 ^ 31 then (w.toNat : Int) else (w.toNat : Int) - 2 ^ 32

/-- `wrap32(v)`: the word congruent to v modulo 2^32 (R6). -/
def wrap32 (v : Int) : Word := BitVec.ofInt 32 v

/-- `wrap64(v)`: the same modulo 2^64 (R6). -/
def wrap64 (v : Int) : BitVec 64 := BitVec.ofInt 64 v

/-- `pol(b) = 2·b − 1`: bit 1 is +1, bit 0 is −1 (R9). -/
def pol (b : PolBit) : Int := 2 * (b.toNat : Int) - 1

/-! Checks. `none` is "the checks pass". Registers are compared as unsigned integers; MLEN > N_MSG_MAX − 1 is written
N_MSG_MAX ≤ MLEN, the same on integers. -/

/-- SF = 0 or SF > N_PN_MAX. -/
def State.sfIllegal (s : State) : Bool := decide (s.sf.toNat = 0) || decide (s.params.pnMax < s.sf.toNat)

/-- GEN_PN's check (41_pn_generator.md R122). -/
def checkGenPn (s : State) : Option ErrCode := if s.sfIllegal then some .sfRange else none

/-- ENCODE's check (40_bit_codec.md R100). -/
def checkEncode (s : State) : Option ErrCode := if s.params.msgMax ≤ s.mlen.toNat then some .lenRange else none

/-- The three checks of SPREAD and SPREAD.ADD in order (42_spreader.md R141, R142); NSYM·SF is exact. -/
def checkSpread (s : State) : Option ErrCode :=
  if s.sfIllegal then some .sfRange
  else if s.params.symMax < s.nsym.toNat ∨ s.params.smpMax < s.slen.toNat then some .lenRange
  else if s.slen.toNat < s.nsym.toNat * s.sf.toNat then some .capacity
  else none

/-- CORRELATE's two checks in order (43_correlator_slicer.md R162). -/
def checkCorrelate (s : State) : Option ErrCode :=
  if s.sfIllegal then some .sfRange else if s.params.smpMax < s.slen.toNat then some .lenRange else none

/-- DECODE's check (40_bit_codec.md R101). -/
def checkDecode (s : State) : Option ErrCode := if s.params.symMax < s.nsym.toNat then some .lenRange else none

/-- L = NSYM·SF, the chips of the payload (42_spreader.md R141). -/
def State.payloadLength (s : State) : Nat := s.nsym.toNat * s.sf.toNat

/-- gAll = floor(SLEN / SF), the full groups in SMP (43_correlator_slicer.md R162). -/
def State.fullGroups (s : State) : Nat := s.slen.toNat / s.sf.toNat

/-- nG = min(gAll, N_SYM_MAX), the groups CORRELATE decides (R162). -/
def State.decidedGroups (s : State) : Nat := min s.fullGroups s.params.symMax

/-- nB = floor(NSYM / 8), the bytes DECODE assembles (40_bit_codec.md R101). -/
def State.assembledBytes (s : State) : Nat := s.nsym.toNat / 8

/-- The registers of the window (10_state.md R22). -/
inductive Reg where
  | id | ctrl | status | cmd | seed | sf | nsym | mlen | slen | strength | corrLo | corrHi
  /-- A memory's pointer, R35. -/
  | ptr (x : MemName)
  /-- A memory's data port, R36. -/
  | data (x : MemName)
  | pnMax | msgMax | smpMax
  /-- Offsets 0x5C to 0xFC, R38. -/
  | reserved
deriving DecidableEq, Repr

/-- The register at a word index, offset/4 (R22). -/
def regAt (idx : RegIndex) : Reg :=
  match idx.toNat with
  | 0x00 => .id
  | 0x01 => .ctrl
  | 0x02 => .status
  | 0x03 => .cmd
  | 0x04 => .seed
  | 0x05 => .sf
  | 0x06 => .nsym
  | 0x07 => .mlen
  | 0x08 => .slen
  | 0x09 => .strength
  | 0x0A => .corrLo
  | 0x0B => .corrHi
  | 0x0C => .ptr .pn
  | 0x0D => .data .pn
  | 0x0E => .ptr .sym
  | 0x0F => .data .sym
  | 0x10 => .ptr .msg
  | 0x11 => .data .msg
  | 0x12 => .ptr .smp
  | 0x13 => .data .smp
  | 0x14 => .pnMax
  | 0x15 => .msgMax
  | 0x16 => .smpMax
  | _ => .reserved

/-- The word index of a register, `offset(REG)/4` (30_encoding.md R96); the first reserved index for `reserved`. -/
def Reg.index : Reg → RegIndex
  | .id => 0x00#6
  | .ctrl => 0x01#6
  | .status => 0x02#6
  | .cmd => 0x03#6
  | .seed => 0x04#6
  | .sf => 0x05#6
  | .nsym => 0x06#6
  | .mlen => 0x07#6
  | .slen => 0x08#6
  | .strength => 0x09#6
  | .corrLo => 0x0A#6
  | .corrHi => 0x0B#6
  | .ptr .pn => 0x0C#6
  | .data .pn => 0x0D#6
  | .ptr .sym => 0x0E#6
  | .data .sym => 0x0F#6
  | .ptr .msg => 0x10#6
  | .data .msg => 0x11#6
  | .ptr .smp => 0x12#6
  | .data .smp => 0x13#6
  | .pnMax => 0x14#6
  | .msgMax => 0x15#6
  | .smpMax => 0x16#6
  | .reserved => 0x17#6

/-- Writes that R78 blocks while BUSY = 1: CMD, SEED, SF, NSYM, MLEN, SLEN, STRENGTH, the pointers and the data ports. -/
def Reg.writeBlocked : Reg → Bool
  | .cmd | .seed | .sf | .nsym | .mlen | .slen | .strength => true
  | .ptr _ | .data _ => true
  | .id | .ctrl | .status | .corrLo | .corrHi | .pnMax | .msgMax | .smpMax | .reserved => false

/-- ID reads 0x44535353 (10_state.md R23). -/
def constantId : Word := 0x44535353#32

end Sys2Proof.Machine
end

