-- ==== Sys2Proof/Machine/Ops.lean ====
section
/-! DEFINITION. The named operations over memories and registers; completing a command with an error (the block's only
"exception", 60_exceptions.md R200) and clearing one (R206). -/

namespace Sys2Proof.Machine

/-! Memories (00_scope.md R7, 10_state.md R44). -/

/-- What a cell that is not listed reads as: no value (R44, R49: no cell holds a value after the external reset). -/
def Memory.unlisted {w : Nat} : Option (BitVec w) := none

/-- `X[i]`, or none where the cell holds no value (R7, R44). -/
def Memory.read {w : Nat} : Memory w → Nat → Option (BitVec w)
  | [], _ => Memory.unlisted
  | c :: m, i => if c.1 = i then some c.2 else Memory.read m i

/-- `MemWrite(X, i, v)` (R7), keeping the indexes rising. -/
def Memory.write {w : Nat} (i : Nat) (v : BitVec w) : Memory w → Memory w
  | [] => [(i, v)]
  | c :: m => if c.1 < i then c :: Memory.write i v m else if c.1 = i then (i, v) :: m else (i, v) :: c :: m

/-- The cells k, k+1, … with the values of a list. -/
def Memory.cellsFrom {w : Nat} (k : Nat) : List (BitVec w) → Memory w
  | [] => []
  | v :: vs => (k, v) :: Memory.cellsFrom (k + 1) vs

/-- Cells 0 .. n−1 lose their value (70_reset_and_hazards.md R233). -/
def Memory.invalidate {w : Nat} (n : Nat) (m : Memory w) : Memory w := m.filter (fun c => decide (n ≤ c.1))

/-- `MemWrite` of a whole run: cells 0 .. length−1 take the values of the list; the cells above are unchanged. Every
command's writes are such a run. -/
def Memory.fill {w : Nat} (vs : List (BitVec w)) (m : Memory w) : Memory w :=
  Memory.cellsFrom 0 vs ++ Memory.invalidate vs.length m

/-- `MemRead` of the cells k .. k+n−1 in order; none if one of them holds no value (60_exceptions.md R216). -/
def Memory.readFrom {w : Nat} (m : Memory w) (k : Nat) : Nat → Option (List (BitVec w))
  | 0 => some []
  | n + 1 =>
    match Memory.read m k, Memory.readFrom m (k + 1) n with
    | some v, some vs => some (v :: vs)
    | _, _ => none

/-- `MemRead` of the cells 0 .. n−1. -/
def Memory.readRun {w : Nat} (m : Memory w) (n : Nat) : Option (List (BitVec w)) := Memory.readFrom m 0 n

/-- N_X, the cell count of a memory (20_memory.md section 3). -/
def State.size (x : MemName) (s : State) : Nat :=
  match x with
  | .pn => s.params.pnMax
  | .sym => s.params.symMax
  | .msg => s.params.msgMax
  | .smp => s.params.smpMax

/-- `zext_32(X[i])`, or none (20_memory.md R75). -/
def State.readCell (x : MemName) (i : Nat) (s : State) : Option Word :=
  match x with
  | .pn => (s.pn.read i).map (fun v => v.setWidth 32)
  | .sym => (s.sym.read i).map (fun v => v.setWidth 32)
  | .msg => (s.msg.read i).map (fun v => v.setWidth 32)
  | .smp => s.smp.read i

/-- `MemWrite(X, i, wdata[W_X-1:0])`: higher wdata bits are ignored (20_memory.md R76). -/
def State.writeCell (x : MemName) (i : Nat) (wdata : Word) (s : State) : State :=
  match x with
  | .pn => { s with pn := s.pn.write i (wdata.setWidth 1) }
  | .sym => { s with sym := s.sym.write i (wdata.setWidth 1) }
  | .msg => { s with msg := s.msg.write i (wdata.setWidth 8) }
  | .smp => { s with smp := s.smp.write i wdata }

/-- Cells 0 .. n−1 of X lose their value (70_reset_and_hazards.md R233). -/
def State.invalidate (x : MemName) (n : Nat) (s : State) : State :=
  match x with
  | .pn => { s with pn := s.pn.invalidate n }
  | .sym => { s with sym := s.sym.invalidate n }
  | .msg => { s with msg := s.msg.invalidate n }
  | .smp => { s with smp := s.smp.invalidate n }

/-! Registers. -/

/-- X_PTR (10_state.md R35). -/
def State.ptr (x : MemName) (s : State) : Word :=
  match x with
  | .pn => s.pnPtr
  | .sym => s.symPtr
  | .msg => s.msgPtr
  | .smp => s.smpPtr

/-- `X_PTR <- v`. -/
def State.setPtr (x : MemName) (v : Word) (s : State) : State :=
  match x with
  | .pn => { s with pnPtr := v }
  | .sym => { s with symPtr := v }
  | .msg => { s with msgPtr := v }
  | .smp => { s with smpPtr := v }

/-- `X_PTR <- wrap32(p + 1)` (20_memory.md R75 to R77). -/
def State.stepPtr (x : MemName) (s : State) : State := s.setPtr x (s.ptr x + 1#32)

/-- The bus read returns v on rdata. -/
def State.setRdata (v : Word) (s : State) : State := { s with rdata := v }

/-- A host access error is recorded (60_exceptions.md R205); ERRCODE and ERR do not change. -/
def State.setHerr (s : State) : State := { s with status := { s.status with herr := true } }

/-- A host write to STATUS: the block's "return from trap" (10_state.md R26; 60_exceptions.md R206). -/
def State.clearStatus (wdata : Word) (s : State) : State := { s with status := s.status.clearedBy wdata }

/-- Command issue while BUSY = 0 (44_control.md R181). -/
def State.issue (w : Word) (s : State) : State := { s with pending := some w, status := s.status.issued }

/-- `complete OK` (44_control.md R182). -/
def State.completeOk (s : State) : State := { s with pending := none, status := s.status.completedOk }

/-- `raise Error(code)`: the command's completion with an error. Nothing is saved, no mode changes and nothing is jumped to
(60_exceptions.md R200); only STATUS changes (R203). -/
def State.completeError (c : ErrCode) (s : State) : State :=
  { s with pending := none, status := s.status.completedError c }

/-! Results of the commands (10_state.md R48), one update each. -/

/-- GEN_PN's result. -/
def State.storePn (chips : List PolBit) (s : State) : State := { s with pn := s.pn.fill chips }

/-- Decided or encoded symbols, with NSYM their count (R30). -/
def State.storeSymbols (bits : List PolBit) (s : State) : State :=
  { s with sym := s.sym.fill bits, nsym := BitVec.ofNat 32 bits.length }

/-- DECODE's result: MSG, MLEN and TERM (40_bit_codec.md R101). -/
def State.storeMessage (bytes : List Byte) (mlen : Nat) (term : Bool) (s : State) : State :=
  { s with msg := s.msg.fill bytes, mlen := BitVec.ofNat 32 mlen, status := { s.status with term := term } }

/-- Samples written by the spreader. -/
def State.storeSamples (samples : List Word) (s : State) : State := { s with smp := s.smp.fill samples }

/-- OVF is sticky: set where a sum wrapped, else left as it was (42_spreader.md R142). -/
def State.raiseOvf (wrapped : Bool) (s : State) : State :=
  { s with status := { s.status with ovf := s.status.ovf || wrapped } }

/-- CORRELATE's CORR and CLIP (43_correlator_slicer.md R162). -/
def State.storeCorrelation (z : Int) (clip : Bool) (s : State) : State :=
  { s with corr := wrap64 z, status := { s.status with clip := clip } }

/-! Reset. -/

/-- Every register and PENDING at its reset value (10_state.md R49); memories, fault mark, parameters and ports stay. -/
def State.resetRegisters (s : State) : State :=
  { s with ie := false, status := Status.reset, seed := 0#32, sf := 0#32, nsym := 0#32, mlen := 0#32, slen := 0#32,
           strength := 0#31, corr := 0#64, pnPtr := 0#32, symPtr := 0#32, msgPtr := 0#32, smpPtr := 0#32,
           pending := none }

/-- No cell of any memory holds a value (10_state.md R44, R49). -/
def State.clearMemories (s : State) : State := { s with pn := [], sym := [], msg := [], smp := [] }

/-- The external reset (70_reset_and_hazards.md R230): a pending command is abandoned with none of its effects. -/
def State.externalReset (s : State) : State := s.resetRegisters.clearMemories

/-- What the abort of a pending command does to the cells it would have written (70_reset_and_hazards.md R233, the table).
A command that would fail a check takes no value away. -/
def abortCommand (i : Instr) (s : State) : State :=
  match i with
  | .nop => s
  | .genPn => if checkGenPn s = none then s.invalidate .pn s.sf.toNat else s
  | .encode => if checkEncode s = none then s.invalidate .sym (8 * s.mlen.toNat + 8) else s
  | .spread => if checkSpread s = none then s.invalidate .smp s.slen.toNat else s
  | .spreadAdd => if checkSpread s = none then s.invalidate .smp s.payloadLength else s
  | .correlate => if checkCorrelate s = none then s.invalidate .sym s.decidedGroups else s
  | .decode => if checkDecode s = none then s.invalidate .msg s.assembledBytes else s

/-- R233 for the word that PENDING holds: an illegal word takes no value away. -/
def abortPending (s : State) : State :=
  match s.pending with
  | none => s
  | some w =>
    match decode w with
    | .ok i => abortCommand i s
    | .error _ => s

/-- The soft reset (70_reset_and_hazards.md R232). -/
def State.softReset (s : State) : State := (abortPending s).resetRegisters

/-- The rst_n port takes a level. -/
def State.setRstN (level : Bool) (s : State) : State := { s with rstN := level }

/-- A read made under reset takes a fresh free value (R230; notes/assumptions/6.md). -/
def State.drawRdata (s : State) : State := { s with rdata := Config.resetRead s.draws, draws := s.draws + 1 }

/-- The queue of what happens next. -/
def State.setInputs (es : List Input) (s : State) : State := { s with inputs := es }

/-- R47: the mark is set, and once set it is never changed. -/
def State.markFault (f : Fault) (s : State) : State :=
  { s with faultMark := match s.faultMark with
                        | none => some f
                        | some g => some g }

end Sys2Proof.Machine
end

