-- ==== Sys2Proof/Machine/Bus.lean ====
section
/-! DEFINITION. The host's bus accesses (20_memory.md R71 to R79). -/

namespace Sys2Proof.Machine

/-- What a read of a register that is no data port returns (10_state.md R22 to R38). -/
def State.readReg (r : Reg) (s : State) : Word :=
  match r with
  | .id => constantId
  | .ctrl => 0#31 ++ BitVec.ofBool s.ie
  | .status => s.status.toWord
  | .cmd => 0#32
  | .seed => s.seed
  | .sf => s.sf
  | .nsym => s.nsym
  | .mlen => s.mlen
  | .slen => s.slen
  | .strength => 0#1 ++ s.strength
  | .corrLo => s.corr.extractLsb' 0 32
  | .corrHi => s.corr.extractLsb' 32 32
  | .ptr x => s.ptr x
  | .data _ => 0#32
  | .pnMax => BitVec.ofNat 32 s.params.pnMax
  | .msgMax => BitVec.ofNat 32 s.params.msgMax
  | .smpMax => BitVec.ofNat 32 s.params.smpMax
  | .reserved => 0#32

/-- A data-port read (R75); blocked while BUSY (R78). -/
def portRead (x : MemName) (s : State) : Host.Outcome State Fault Refusal :=
  if s.status.busy then .next (s.setHerr.setRdata 0#32)
  else if (s.ptr x).toNat < s.size x then
    match s.readCell x (s.ptr x).toNat with
    | none => .fault (.uninit (.dataPort x))
    | some v => .next ((s.setRdata v).stepPtr x)
  else .next ((s.setHerr.setRdata 0#32).stepPtr x)

/-- A data-port write when BUSY = 0 (R76). -/
def portWrite (x : MemName) (wdata : Word) (s : State) : State :=
  if (s.ptr x).toNat < s.size x then (s.writeCell x (s.ptr x).toNat wdata).stepPtr x
  else s.setHerr.stepPtr x

/-- `Read(idx)` (R71): the read value on rdata, and a data port's side effects (R79). -/
def busRead (idx : RegIndex) (s : State) : Host.Outcome State Fault Refusal :=
  match regAt idx with
  | .data x => portRead x s
  | r => .next (s.setRdata (s.readReg r))

/-- The effect of a write that is not blocked, register by register (10_state.md R23 to R38; 20_memory.md R74, R76). -/
def writeReg (r : Reg) (wdata : Word) (s : State) : State :=
  match r with
  | .id => s
  | .ctrl => if wdata.getLsbD 1 then s.softReset else { s with ie := wdata.getLsbD 0 }
  | .status => s.clearStatus wdata
  | .cmd => s.issue wdata
  | .seed => { s with seed := wdata }
  | .sf => { s with sf := wdata }
  | .nsym => { s with nsym := wdata }
  | .mlen => { s with mlen := wdata }
  | .slen => { s with slen := wdata }
  | .strength => { s with strength := wdata.setWidth 31 }
  | .corrLo => s
  | .corrHi => s
  | .ptr x => s.setPtr x wdata
  | .data x => portWrite x wdata s
  | .pnMax => s
  | .msgMax => s
  | .smpMax => s
  | .reserved => s

/-- `Write(idx, wdata)` (R71): a blocked write changes nothing and sets HERR (R78, R181). -/
def busWrite (idx : RegIndex) (wdata : Word) (s : State) : State :=
  if s.status.busy && (regAt idx).writeBlocked then s.setHerr else writeReg (regAt idx) wdata s

end Sys2Proof.Machine
end

