-- ==== Sys2Proof/Machine/BitCodec.lean ====
section
/-! DEFINITION. The bit codec: ENCODE and DECODE (40_bit_codec.md R100, R101). -/

namespace Sys2Proof.Machine

/-- Bit i of a byte as a polarity bit: bit 1 stands for +1 (00_scope.md R9). -/
def byteBit (b : Byte) (i : Nat) : PolBit := b.extractLsb' i 1

/-- A byte's eight symbols, bit 7 first (R100). -/
def byteSymbols (b : Byte) : List PolBit :=
  [byteBit b 7, byteBit b 6, byteBit b 5, byteBit b 4, byteBit b 3, byteBit b 2, byteBit b 1, byteBit b 0]

/-- The symbols of a message with its terminator, a byte 0x00 that no memory stores (R100). -/
def messageSymbols (bytes : List Byte) : List PolBit := (bytes ++ [0x00#8]).flatMap byteSymbols

/-- ENCODE (R100). -/
def execEncode (s : State) : Host.Outcome State Fault Refusal :=
  match checkEncode s with
  | some c => .next (s.completeError c)
  | none =>
    match s.msg.readRun s.mlen.toNat with
    | none => .fault (.uninit (.command .encode))
    | some bytes => .next (s.storeSymbols (messageSymbols bytes)).completeOk

/-- A byte from its first eight symbols: the first is the most significant bit (R101). -/
def symbolsByte (bits : List PolBit) : Byte :=
  (bits.take 8).foldl (fun v b => (v <<< 1) ||| b.setWidth 8) 0#8

/-- `n` bytes, each from the next eight symbols (R101). -/
def assemble : Nat → List PolBit → List Byte
  | 0, _ => []
  | n + 1, bits => symbolsByte bits :: assemble n (bits.drop 8)

/-- The least index of a zero byte, if there is one (R101). -/
def terminatorIndex (bytes : List Byte) : Option Nat := bytes.findIdx? (fun b => b == 0x00#8)

/-- DECODE (R101): without a terminator the writes are kept and the completion is NOTERM (60_exceptions.md R204). -/
def execDecode (s : State) : Host.Outcome State Fault Refusal :=
  match checkDecode s with
  | some c => .next (s.completeError c)
  | none =>
    match s.sym.readRun (8 * s.assembledBytes) with
    | none => .fault (.uninit (.command .decode))
    | some bits =>
      let bytes := assemble s.assembledBytes bits
      match terminatorIndex bytes with
      | some b => .next (s.storeMessage bytes b true).completeOk
      | none => .next ((s.storeMessage bytes s.assembledBytes false).completeError .noTerm)

end Sys2Proof.Machine
end

