-- ==== Sys2Proof/Machine/Control.lean ====
section
/-! DEFINITION. NOP (44_control.md R180). -/

namespace Sys2Proof.Machine

/-- NOP: complete OK, with no effect beyond STATUS (R180). -/
def execNop (s : State) : Host.Outcome State Fault Refusal := .next s.completeOk

end Sys2Proof.Machine
end

