-- ==== Sys2Proof/Machine/Correlator.lean ====
section
/-! DEFINITION. The correlation matcher and the symbol slicer: CORRELATE (43_correlator_slicer.md R160 to R162). -/

namespace Sys2Proof.Machine

/-- The correlation of one group: the exact dot product of its samples and the PN sequence (R160). -/
def correlation (group : List Word) (chips : List PolBit) : Int :=
  (group.zipWith (fun x p => sint32 x * pol p) chips).sum

/-- `Slice(Z)`: 1 if Z > 0, else 0; the threshold is strict (R161). -/
def sliceBit (z : Int) : PolBit := if 0 < z then 1#1 else 0#1

/-- The correlations of the first n groups of sf samples, group 0 first (R162). -/
def groupCorrelations (sf : Nat) (chips : List PolBit) : Nat → List Word → List Int
  | 0, _ => []
  | n + 1, samples => correlation (samples.take sf) chips :: groupCorrelations sf chips n (samples.drop sf)

/-- The cells CORRELATE's loops read, SMP[0 .. nG·SF−1] and PN[0 .. SF−1]; with nG = 0 no cell is read (R162). None where one
of them holds no value. -/
def State.correlateOperands (s : State) : Option (List Word × List PolBit) :=
  if s.decidedGroups = 0 then some ([], [])
  else
    match s.smp.readRun (s.decidedGroups * s.sf.toNat), s.pn.readRun s.sf.toNat with
    | some samples, some chips => some (samples, chips)
    | _, _ => none

/-- CORRELATE (R162): CORR is the last group's Z, 0 when no group is decided. -/
def execCorrelate (s : State) : Host.Outcome State Fault Refusal :=
  match checkCorrelate s with
  | some c => .next (s.completeError c)
  | none =>
    match s.correlateOperands with
    | none => .fault (.uninit (.command .correlate))
    | some (samples, chips) =>
      let zs := groupCorrelations s.sf.toNat chips s.decidedGroups samples
      .next ((s.storeSymbols (zs.map sliceBit)).storeCorrelation (zs.getLastD 0)
        (clipFlag s.fullGroups s.params.symMax)).completeOk

end Sys2Proof.Machine
end

