-- ==== Sys2Proof/Machine/PnGenerator.lean ====
section
/-! DEFINITION. The PN sequence generator (41_pn_generator.md R120 to R122). -/

namespace Sys2Proof.Machine

/-- `z XOR (z >> n)`. -/
def xorShift (n : Nat) (z : BitVec 64) : BitVec 64 := z ^^^ (z >>> n)

/-- `Scramble(seed)`, the initial LFSR state (R120), modulo 2^64. -/
def scramble (seed : Word) : BitVec 64 :=
  let z := seed.setWidth 64 + 0x9E3779B97F4A7C15#64
  let z := xorShift 30 z
  let z := z * 0xBF58476D1CE4E5B9#64
  let z := xorShift 27 z
  let z := z * 0x94D049BB133111EB#64
  xorShift 31 z

/-- The feedback mask: taps at bits 63, 62, 60, 59 (R121). -/
def lfsrMask : BitVec 64 := 0xD800000000000000#64

/-- The output chip of a state, S[0] (R121). -/
def lfsrChip (x : BitVec 64) : PolBit := x.extractLsb' 0 1

/-- The state after one step (R121). -/
def lfsrNext (x : BitVec 64) : BitVec 64 := if lfsrChip x = 1#1 then (x >>> 1) ^^^ lfsrMask else x >>> 1

/-- `LfsrStep(S)`: the chip and the next state (R121). -/
def lfsrStep (x : BitVec 64) : PolBit × BitVec 64 := (lfsrChip x, lfsrNext x)

/-- The outputs of n steps: chip j is the output of step j+1 (R122). -/
def lfsrChips : Nat → BitVec 64 → List PolBit
  | 0, _ => []
  | n + 1, x => (lfsrStep x).1 :: lfsrChips n (lfsrStep x).2

/-- GEN_PN (R122): PN[0 .. SF−1] from SEED; the LFSR state is discarded (10_state.md R46). -/
def execGenPn (s : State) : Host.Outcome State Fault Refusal :=
  match checkGenPn s with
  | some c => .next (s.completeError c)
  | none => .next (s.storePn (lfsrChips s.sf.toNat (scramble s.seed))).completeOk

end Sys2Proof.Machine
end

