-- ==== Sys2Proof/Machine/Spreader.lean ====
section
/-! DEFINITION. The chip spreader: SPREAD and SPREAD.ADD (42_spreader.md R140 to R142). -/

namespace Sys2Proof.Machine

/-- `Chip(i, j)` for symbol bit a and chip bit p: +STRENGTH where they agree, −STRENGTH where not (R140). -/
def chipValue (strength : BitVec 31) (a p : PolBit) : Int :=
  if a = p then (strength.toNat : Int) else -(strength.toNat : Int)

/-- The payload: the outer product of the symbols and the PN sequence, flattened, scaled by the strength; chip j of symbol i
at index i·SF + j (R140). -/
def payload (strength : BitVec 31) (symbols chips : List PolBit) : List Int :=
  symbols.flatMap (fun a => chips.map (fun p => chipValue strength a p))

/-- The cells the spreader's loops read, SYM[0 .. NSYM−1] and PN[0 .. SF−1]; with NSYM = 0 the inner loop never runs and no
PN cell is read (R141, R142). None where one of them holds no value. -/
def State.spreadOperands (s : State) : Option (List PolBit × List PolBit) :=
  if s.nsym.toNat = 0 then some ([], [])
  else
    match s.sym.readRun s.nsym.toNat, s.pn.readRun s.sf.toNat with
    | some symbols, some chips => some (symbols, chips)
    | _, _ => none

/-- SPREAD (R141): the payload, zero padded to SLEN, replaces SMP[0 .. SLEN−1]. -/
def execSpread (s : State) : Host.Outcome State Fault Refusal :=
  match checkSpread s with
  | some c => .next (s.completeError c)
  | none =>
    match s.spreadOperands with
    | none => .fault (.uninit (.command .spread))
    | some (symbols, chips) =>
      .next (s.storeSamples
        ((payload s.strength symbols chips).map wrap32
          ++ List.replicate (s.slen.toNat - s.payloadLength) 0x00000000#32)).completeOk

/-- The exact sums of carrier samples and payload (R142). -/
def carrierSums (carrier : List Word) (chips : List Int) : List Int :=
  carrier.zipWith (fun x c => sint32 x + c) chips

/-- SPREAD.ADD (R142): the payload is added to SMP[0 .. L−1], modulo 2^32; OVF where a sum wrapped. -/
def execSpreadAdd (s : State) : Host.Outcome State Fault Refusal :=
  match checkSpread s with
  | some c => .next (s.completeError c)
  | none =>
    match s.spreadOperands, s.smp.readRun s.payloadLength with
    | some (symbols, chips), some carrier =>
      let sums := carrierSums carrier (payload s.strength symbols chips)
      .next ((s.storeSamples (sums.map wrap32)).raiseOvf (sums.any sumWraps)).completeOk
    | _, _ => .fault (.uninit (.command .spreadAdd))

end Sys2Proof.Machine
end

