-- ==== Sys2Proof/Machine/Dispatch.lean ====
section
/-! DEFINITION. One arm per command: its completion (44_control.md R182). -/

namespace Sys2Proof.Machine

def exec (i : Instr) (s : State) : Host.Outcome State Fault Refusal :=
  match i with
  | .nop => Sys2Proof.Machine.execNop s
  | .genPn => Sys2Proof.Machine.execGenPn s
  | .encode => Sys2Proof.Machine.execEncode s
  | .spread => Sys2Proof.Machine.execSpread s
  | .spreadAdd => Sys2Proof.Machine.execSpreadAdd s
  | .correlate => Sys2Proof.Machine.execCorrelate s
  | .decode => Sys2Proof.Machine.execDecode s

end Sys2Proof.Machine
end

