-- ==== Sys2Proof/Machine/Engine.lean ====
section
/-! DEFINITION. The command engine's completion (44_control.md R182) and what one entry of the input queue does (00_scope.md
R10). -/

namespace Sys2Proof.Machine

/-- The completion of a latched word: an illegal word completes with ILLEGAL and has no other effect (30_encoding.md
R92). -/
def completeWord (w : Word) (s : State) : Host.Outcome State Fault Refusal :=
  match decode w with
  | .ok i => exec i s
  | .error _ => .next (s.completeError .illegal)

/-- The engine's turn: it is enabled exactly when PENDING ≠ none (R182); else the block idles (60_exceptions.md R221). -/
def engineTurn (s : State) : Host.Outcome State Fault Refusal :=
  match s.pending with
  | none => .next s
  | some w => completeWord w s

/-- What happens while rst_n = 0 (70_reset_and_hazards.md R230): the block takes the reset state, on the release too; accesses
have no effect, and a read returns a free value. -/
def heldInReset (e : Input) (s : State) : State :=
  match e with
  | .write _ _ => s.externalReset
  | .read _ => s.externalReset.drawRdata
  | .engine => s.externalReset
  | .rst level => s.externalReset.setRstN level

/-- One entry of the input queue while rst_n = 1. -/
def runInput (e : Input) (s : State) : Host.Outcome State Fault Refusal :=
  match e with
  | .write idx wdata => .next (busWrite idx wdata s)
  | .read idx => busRead idx s
  | .engine => engineTurn s
  | .rst true => .next s
  | .rst false => .next (s.externalReset.setRstN false)

/-- One entry of the input queue: reset wins over everything (60_exceptions.md R210). -/
def takeInput (e : Input) (s : State) : Host.Outcome State Fault Refusal :=
  if s.rstN then runInput e s else .next (heldInReset e s)

/-- Where nothing more comes from outside, a pending command completes (R182's fairness assumption); the block is idle
otherwise. It is the engine's turn. -/
def nextInput (s : State) : Host.Outcome State Fault Refusal :=
  match s.inputs with
  | [] => takeInput .engine s
  | e :: rest => takeInput e (s.setInputs rest)

/-- The state right after the host's write of `w` to CMD (R181), with the engine's turn next and rst_n released. -/
def State.withPendingWord (w : Word) (s : State) : State :=
  ((s.issue w).setRstN true).setInputs (.engine :: s.inputs)

end Sys2Proof.Machine
end

