-- ==== Sys2Proof/Machine/Step.lean ====
section
/-! DEFINITION. One step of the block and its environment. -/

namespace Sys2Proof.Machine

/-- One step: a faulted state has no further meaning and its mark is never cleared (60_exceptions.md R216; 10_state.md R47);
else the next entry of the input queue happens. -/
def step (s : State) : Host.Outcome State Fault Refusal :=
  match s.faultMark with
  | some f => .fault f
  | none => nextInput s

/-- `s` with the command word latched in PENDING and the engine's turn next (notes/assumptions/3.md): the block fetches
nothing (20_memory.md R83), and a command reaches it as a write to CMD (10_state.md R21). -/
def State.withFetchWord (s : State) (nbits w : Nat) : State := s.withPendingWord (tableWord nbits w)

end Sys2Proof.Machine
end

