-- ==== Sys2Proof/Machine/HostProgram.lean ====
section
/-! DEFINITION. The host-program notation (30_encoding.md R96, R97) and the host's two sequences
(70_reset_and_hazards.md R235, R236) with its decisions, as entries of the input queue. The block runs none of this; it is what
a host does at the block's ports. -/

namespace Sys2Proof.Machine

/-- `W REG, value`: one bus write (R96). -/
def opW (r : Reg) (value : Word) : Input := .write r.index value

/-- `R REG`: one bus read (R96). -/
def opR (r : Reg) : Input := .read r.index

/-- `CMD <MNEMONIC>`: the command's word is written to CMD (R97). -/
def opCmd (i : Instr) : Input := opW .cmd (encode i)

/-- `WAIT` (R97): the host polls STATUS until BUSY = 0. How many polls still see BUSY = 1 is the latency, a draw
(44_control.md R182); here it is the argument. -/
def opWait (busyPolls : Nat) : List Input := List.replicate busyPolls (opR .status) ++ [.engine, opR .status]

/-- `RUN <MNEMONIC>` (R97). -/
def opRun (i : Instr) (busyPolls : Nat) : List Input := opCmd i :: opWait busyPolls

/-- `LOAD <PORT>, v0 … vn-1` (R97). -/
def opLoad (x : MemName) (vs : List Word) : List Input := vs.map (opW (.data x))

/-- `FILL <PORT>, v, n` (R97). -/
def opFill (x : MemName) (v : Word) (n : Nat) : List Input := List.replicate n (opW (.data x) v)

/-- `DUMP <PORT>, n` (R97). -/
def opDump (x : MemName) (n : Nat) : List Input := List.replicate n (opR (.data x))

/-- `CLR` (R97): clears DONE, ERR, HERR and OVF. -/
def opClr : Input := opW .status 0x0000004E#32

/-- `max(|sample|)` over the samples given (00_scope.md R3, 70_reset_and_hazards.md R235). DESIGN CHOICE: whether these are one
channel's samples or those of all channels is an argument, because the spec leaves it to the host (91_not_in_source.md N8,
93_implementation_defined.md U3; notes/assumptions/13.md). -/
def carrierPeak (samples : List Word) : Nat := samples.foldl (fun m x => max m (sint32 x).natAbs) 0

/-- The host's strength factor, computed before modulation from the samples that will receive it (R240); which samples those
are is an argument (notes/assumptions/13.md). How the host divides and rounds is its own parameter
(93_implementation_defined.md U2). -/
def hostStrength (divideRounding : Nat → Nat → Nat) (weight : Nat) (samples : List Word) : Word :=
  BitVec.ofNat 32 (divideRounding (carrierPeak samples) weight)

/-! The bus accesses of R235 and R236. `latency i` is how many polls of the WAIT after command i still see BUSY = 1, a draw of its
own for each RUN (44_control.md R182). -/

/-- `embed`, what comes once for all channels (R235): SF, SEED, the PN sequence, the message. -/
def embedPrologue (sf seed : Word) (message : List Byte) (latency : Instr → Nat) : List Input :=
  [opW .sf sf, opW .seed seed] ++ opRun .genPn (latency .genPn)
    ++ [opW (.ptr .msg) 0#32] ++ opLoad .msg (message.map (fun b => b.setWidth 32))
    ++ [opW .mlen (BitVec.ofNat 32 message.length)]

/-- `embed`, what comes for each channel (R235): ENCODE, again for each channel because CORRELATE overwrites SYM (R239); the
carrier; the addition of the payload. -/
def channelSequence (strength : Word) (carrier : List Word) (latency : Instr → Nat) : List Input :=
  opRun .encode (latency .encode)
    ++ [opW (.ptr .smp) 0#32] ++ opLoad .smp carrier ++ [opW .slen (BitVec.ofNat 32 carrier.length)]
    ++ [opW .strength strength] ++ opRun .spreadAdd (latency .spreadAdd)

/-- The host's `embed` up to the payload's addition (R235), for one channel. -/
def embedSequence (sf seed strength : Word) (message : List Byte) (carrier : List Word) (latency : Instr → Nat) :
    List Input :=
  embedPrologue sf seed message latency ++ channelSequence strength carrier latency

/-- The verification half of `embed` (R235). -/
def verifySequence (latency : Instr → Nat) : List Input :=
  opRun .correlate (latency .correlate) ++ opRun .decode (latency .decode)

/-- The host's `extract` up to DECODE's completion (R236). -/
def extractSequence (sf seed : Word) (signal : List Word) (latency : Instr → Nat) : List Input :=
  [opW .sf sf, opW .seed seed] ++ opRun .genPn (latency .genPn)
    ++ [opW (.ptr .smp) 0#32] ++ opLoad .smp signal ++ [opW .slen (BitVec.ofNat 32 signal.length)]
    ++ verifySequence latency

/-! The host's decisions between accesses (44_control.md R183). -/

/-- The source's three error kinds as the host reports them (60_exceptions.md R217 to R219). -/
inductive HostError where
  /-- SPREAD.ADD ended with CAPACITY (R217). -/
  | capacityExceeded
  /-- No terminator, or bytes that are not valid text (R218). -/
  | decodeError
  /-- The verification of an embed failed (R219). -/
  | embedVerificationFailed
deriving DecidableEq, Repr

/-- Go on with `k` unless the block stopped. -/
def hostThen {α β : Type} (o : Host.Outcome α Fault Refusal) (k : α → Host.Outcome β Fault Refusal) :
    Host.Outcome β Fault Refusal :=
  match o with
  | .next a => k a
  | .fault f => .fault f
  | .refused r => .refused r

/-- The entries of a sequence one after another, as the input queue would take them. -/
def runInputs : List Input → State → Host.Outcome State Fault Refusal
  | [], s => .next s
  | e :: es, s => hostThen (takeInput e s) (runInputs es)

/-- `DUMP X_DATA, n` (30_encoding.md R97), with the words the host reads. -/
def hostDump (x : MemName) : Nat → State → Host.Outcome (List Word × State) Fault Refusal
  | 0, s => .next ([], s)
  | n + 1, s =>
    hostThen (takeInput (opR (.data x)) s) fun t =>
      hostThen (hostDump x n t) fun r => .next (t.rdata :: r.1, r.2)

/-- `W X_PTR, 0 ; DUMP X_DATA, n` (R235, R236). -/
def hostReadOut (x : MemName) (n : Nat) (s : State) : Host.Outcome (List Word × State) Fault Refusal :=
  hostThen (takeInput (opW (.ptr x) 0#32) s) (hostDump x n)

/-- The host's verdict on an embed from the states after CORRELATE and after DECODE; its negation is EmbedVerificationFailed
(60_exceptions.md R219). The text check is the host's own predicate (93_implementation_defined.md U5). -/
def embedPasses (validText : List Byte → Bool) (message : List Byte) (correlated decoded : State) : Bool :=
  decide (correlated.status.errcode = .noError) && decide (decoded.status.errcode = .noError) && decoded.status.term
    && decide (decoded.mlen.toNat = message.length)
    && match decoded.msg.readRun decoded.mlen.toNat with
       | some bytes => decide (bytes = message) && validText bytes
       | none => false

/-- The verification of an embed (R235): `RUN CORRELATE ; RUN DECODE` and the verdict. -/
def hostVerify (validText : List Byte → Bool) (message : List Byte) (latency : Instr → Nat) (s : State) :
    Host.Outcome (Bool × State) Fault Refusal :=
  hostThen (runInputs (opRun .correlate (latency .correlate)) s) fun correlated =>
    hostThen (runInputs (opRun .decode (latency .decode)) correlated) fun decoded =>
      .next (embedPasses validText message correlated decoded, decoded)

/-- One channel of an embed (R235): CAPACITY is CapacityExceeded, a failed verification EmbedVerificationFailed, and else the
stego signal is read out. -/
def hostEmbedChannel (strength : Word) (validText : List Byte → Bool) (message : List Byte) (carrier : List Word)
    (latency : Instr → Nat) (s : State) : Host.Outcome (Except HostError (List Word) × State) Fault Refusal :=
  hostThen (runInputs (channelSequence strength carrier latency) s) fun added =>
    if added.status.errcode = .capacity then .next (.error .capacityExceeded, added)
    else
      hostThen (hostVerify validText message latency added) fun r =>
        if r.1 then
          hostThen (hostReadOut .smp r.2.slen.toNat r.2) fun out => .next (.ok out.1, out.2)
        else .next (.error .embedVerificationFailed, r.2)

/-- The channels of an embed in order, from channel k, all with the same PN sequence, message and strength (R235). DESIGN
CHOICE: the first channel that fails ends the embed with its error (notes/assumptions/13.md). -/
def hostEmbedChannels (strength : Word) (validText : List Byte → Bool) (message : List Byte)
    (latency : Nat → Instr → Nat) : Nat → List (List Word) → State →
    Host.Outcome (Except HostError (List (List Word)) × State) Fault Refusal
  | _, [], s => .next (.ok [], s)
  | k, carrier :: carriers, s =>
    hostThen (hostEmbedChannel strength validText message carrier (latency k) s) fun r =>
      match r.1 with
      | .error e => .next (.error e, r.2)
      | .ok stego =>
        hostThen (hostEmbedChannels strength validText message latency (k + 1) carriers r.2) fun u =>
          .next (u.1.map (fun more => stego :: more), u.2)

/-- The host's `embed(carrier, message, seed, config)` (R235): one carrier a channel, `latency k` the draws of channel k. -/
def hostEmbed (sf seed strength : Word) (validText : List Byte → Bool) (message : List Byte)
    (carriers : List (List Word)) (latency : Nat → Instr → Nat) (s : State) :
    Host.Outcome (Except HostError (List (List Word)) × State) Fault Refusal :=
  hostThen (runInputs (embedPrologue sf seed message (latency 0)) s)
    (hostEmbedChannels strength validText message latency 0 carriers)

/-- The host's `extract(signal, seed, config)` (R236): NOTERM is DecodeError; else MSG[0 .. MLEN−1] is read out, and it is the
text where the host's check accepts it, DecodeError where not (60_exceptions.md R218). -/
def hostExtract (sf seed : Word) (validText : List Byte → Bool) (signal : List Word) (latency : Instr → Nat)
    (s : State) : Host.Outcome (Except HostError (List Byte) × State) Fault Refusal :=
  hostThen (runInputs (extractSequence sf seed signal latency) s) fun decoded =>
    if decoded.status.errcode = .noTerm then .next (.error .decodeError, decoded)
    else
      hostThen (hostReadOut .msg decoded.mlen.toNat decoded) fun out =>
        .next (if validText (out.1.map (fun w => w.setWidth 8)) then .ok (out.1.map (fun w => w.setWidth 8))
               else .error .decodeError, out.2)

end Sys2Proof.Machine
end

