-- ==== Sys2Proof/Safety.lean ====
section
/-! DEFINITION. What a good state and a good run are, in the terms the statements use. -/

namespace Sys2Proof.Machine

/-- A step as the spec tells a run (60_exceptions.md R216): a fault sets the fault mark and gives the state no further
meaning; a faulted state stays as it is. -/
def advance (s : State) : State :=
  match step s with
  | .next t => t
  | .fault f => s.markFault f
  | .refused _ => s

/-- `n` steps with the fault mark kept in the state. -/
def advanceBy : Nat → State → State
  | 0, s => s
  | n + 1, s => advanceBy n (advance s)

/-- A read or a write by the host (20_memory.md R71); an engine turn and a level of rst_n are none. -/
def Input.isHostAccess : Input → Bool
  | .write _ _ => true
  | .read _ => true
  | .engine => false
  | .rst _ => false

/-- The end of a run (70_reset_and_hazards.md R244): the host has made its last access, so that none is left in the queue, no
command is in flight, and the fault mark is clear. -/
def State.runEnded (s : State) : Bool :=
  s.inputs.all (fun e => !e.isHostAccess) && decide (s.pending = none) && decide (s.faultMark = none)

/-- All four memories are in canonical form. -/
abbrev MemoriesCanonical (s : State) : Prop := s.pn.wf ∧ s.sym.wf ∧ s.msg.wf ∧ s.smp.wf

/-- No memory holds a value outside its cells (20_memory.md R70, R84). -/
abbrev CellsInRange (s : State) : Prop :=
  s.pn.within s.params.pnMax ∧ s.sym.within s.params.symMax ∧ s.msg.within s.params.msgMax ∧
    s.smp.within s.params.smpMax

/-- STATUS.BUSY = 1 exactly when PENDING ≠ none (10_state.md R45). -/
abbrev BusyMatchesPending (s : State) : Prop := s.status.busy = true ↔ s.pending ≠ none

/-- R203: a command that ends with an error from its checks changes nothing but STATUS (44_control.md R182), and it is no longer
pending. -/
def failedState (c : ErrCode) (s : State) : State :=
  { s with pending := none, status := { s.status with errcode := c, err := true, busy := false, done := true } }

/-- What every completion without error writes in STATUS (44_control.md R182); the other flags stay. -/
def finishedStatus (f : Status) : Status := { f with errcode := .noError, busy := false, done := true }

/-- Every register at the reset value of 10_state.md R49, with PENDING = none; the rest of the state as it is. -/
def registersReset (s : State) : State :=
  { s with ie := false,
           status := { busy := false, done := false, err := false, herr := false, term := false, clip := false,
                       ovf := false, errcode := .noError },
           seed := 0#32, sf := 0#32, nsym := 0#32, mlen := 0#32, slen := 0#32, strength := 0#31, corr := 0#64,
           pnPtr := 0#32, symPtr := 0#32, msgPtr := 0#32, smpPtr := 0#32, pending := none }

/-- The three checks of the spreader pass (42_spreader.md R141, R142). -/
abbrev SpreadChecksPass (s : State) : Prop :=
  1 ≤ s.sf.toNat ∧ s.sf.toNat ≤ s.params.pnMax ∧ s.nsym.toNat ≤ s.params.symMax ∧ s.slen.toNat ≤ s.params.smpMax ∧
    s.nsym.toNat * s.sf.toNat ≤ s.slen.toNat

/-- The two checks of the correlator pass (43_correlator_slicer.md R162). -/
abbrev CorrelateChecksPass (s : State) : Prop :=
  1 ≤ s.sf.toNat ∧ s.sf.toNat ≤ s.params.pnMax ∧ s.slen.toNat ≤ s.params.smpMax

/-- nG = min(floor(SLEN / SF), N_SYM_MAX) (43_correlator_slicer.md R162). -/
def groupsDecided (s : State) : Nat := min (s.slen.toNat / s.sf.toNat) (8 * s.params.msgMax)

/-- Some cell that the command would read holds no value (60_exceptions.md R216), its checks passing. -/
def ReadsEmptyCell (i : Instr) (s : State) : Prop :=
  match i with
  | .nop => False
  | .genPn => False
  | .encode => s.mlen.toNat < s.params.msgMax ∧ ∃ b, b < s.mlen.toNat ∧ s.msg.read b = none
  | .spread => SpreadChecksPass s ∧
      ((∃ k, k < s.nsym.toNat ∧ s.sym.read k = none) ∨ (0 < s.nsym.toNat ∧ ∃ j, j < s.sf.toNat ∧ s.pn.read j = none))
  | .spreadAdd => SpreadChecksPass s ∧
      ((∃ k, k < s.nsym.toNat ∧ s.sym.read k = none) ∨ (0 < s.nsym.toNat ∧ ∃ j, j < s.sf.toNat ∧ s.pn.read j = none) ∨
        (∃ k, k < s.nsym.toNat * s.sf.toNat ∧ s.smp.read k = none))
  | .correlate => CorrelateChecksPass s ∧
      ((∃ k, k < groupsDecided s * s.sf.toNat ∧ s.smp.read k = none) ∨
        (0 < groupsDecided s ∧ ∃ j, j < s.sf.toNat ∧ s.pn.read j = none))
  | .decode => s.nsym.toNat ≤ 8 * s.params.msgMax ∧ ∃ k, k < 8 * (s.nsym.toNat / 8) ∧ s.sym.read k = none

/-- The cells that lose their value when a soft reset aborts the pending command: the table of 70_reset_and_hazards.md R233,
a row a line. -/
abbrev AbortTarget (s : State) (x : MemName) (k : Nat) : Prop :=
  (s.pending = some 0x00000001#32 ∧ 1 ≤ s.sf.toNat ∧ s.sf.toNat ≤ s.params.pnMax ∧ x = .pn ∧ k < s.sf.toNat) ∨
  (s.pending = some 0x00000002#32 ∧ s.mlen.toNat < s.params.msgMax ∧ x = .sym ∧ k < 8 * s.mlen.toNat + 8) ∨
  (s.pending = some 0x00000003#32 ∧ SpreadChecksPass s ∧ x = .smp ∧ k < s.slen.toNat) ∨
  (s.pending = some 0x00000103#32 ∧ SpreadChecksPass s ∧ x = .smp ∧ k < s.nsym.toNat * s.sf.toNat) ∨
  (s.pending = some 0x00000004#32 ∧ CorrelateChecksPass s ∧ x = .sym ∧ k < groupsDecided s) ∨
  (s.pending = some 0x00000005#32 ∧ s.nsym.toNat ≤ 8 * s.params.msgMax ∧ x = .msg ∧ k < s.nsym.toNat / 8)

/-- The code of the first check that fails, in the order of 60_exceptions.md R202 and by R201's causes; NONE where the checks
pass. -/
def firstCheckError (w : Word) (s : State) : ErrCode :=
  if wellFormedWord w = false then .illegal
  else if (w = 0x1#32 ∨ w = 0x3#32 ∨ w = 0x103#32 ∨ w = 0x4#32) ∧ (s.sf.toNat = 0 ∨ s.params.pnMax < s.sf.toNat) then
    .sfRange
  else if (w = 0x2#32 ∧ s.params.msgMax ≤ s.mlen.toNat) ∨
      ((w = 0x3#32 ∨ w = 0x103#32) ∧ (8 * s.params.msgMax < s.nsym.toNat ∨ s.params.smpMax < s.slen.toNat)) ∨
      (w = 0x4#32 ∧ s.params.smpMax < s.slen.toNat) ∨ (w = 0x5#32 ∧ 8 * s.params.msgMax < s.nsym.toNat) then
    .lenRange
  else if (w = 0x3#32 ∨ w = 0x103#32) ∧ s.slen.toNat < s.nsym.toNat * s.sf.toNat then .capacity
  else .noError

end Sys2Proof.Machine
end

