-- ==== Sys2Proof/Certificates/Slice0/Obligations.lean ====
section
/-! DEFINITION. The statements for the provers. Cells a command reads are named by functions x, y, p; a statement holds for
every such function. A record update on the right of an equation is the frame: every field it does not name is unchanged. -/

open Sys2Proof Sys2Proof.Machine

/-! Encoding. -/

/-- 30_encoding.md R91 and 95_test_vectors.md V6.4 to V6.7: some words, written out. -/
def Obligations.CommandWordsDecodeAsMapped : Prop :=
  decode 0x00000000#32 = .ok .nop ∧ decode 0x00000001#32 = .ok .genPn ∧ decode 0x00000002#32 = .ok .encode ∧
  decode 0x00000003#32 = .ok .spread ∧ decode 0x00000103#32 = .ok .spreadAdd ∧ decode 0x00000004#32 = .ok .correlate ∧
  decode 0x00000005#32 = .ok .decode ∧ decode 0x00000006#32 = .error .opcode ∧
  decode 0x00000101#32 = .error .accumulate ∧ decode 0x00000200#32 = .error .reservedBits ∧
  decode 0x80000003#32 = .error .reservedBits

/-- R91: each word of the map decodes to its command, and no other word does. -/
def Obligations.LegalWordsAreExactlyTheMap : Prop :=
  ∀ w : Word,
    (decode w = .ok .nop ↔ w = 0x00000000#32) ∧ (decode w = .ok .genPn ↔ w = 0x00000001#32) ∧
    (decode w = .ok .encode ↔ w = 0x00000002#32) ∧ (decode w = .ok .spread ↔ w = 0x00000003#32) ∧
    (decode w = .ok .spreadAdd ↔ w = 0x00000103#32) ∧ (decode w = .ok .correlate ↔ w = 0x00000004#32) ∧
    (decode w = .ok .decode ↔ w = 0x00000005#32)

/-- R94: a word is a command exactly when its reserved bits are zero, A stands only with OP = 0x03, and OP is at most 5. -/
def Obligations.LegalWordsMeetFormatConditions : Prop :=
  ∀ w : Word, (∃ i, decode w = .ok i) ↔ wellFormedWord w = true

/-- R91, R95, 20_memory.md R72: decoding an encoded command gives it back, as a word and as byte lanes. -/
def Obligations.EncodedCommandDecodesBack : Prop :=
  ∀ i : Instr, i.wellFormed = true →
    decode (encode i) = .ok i ∧ ∀ rest, decodeBytes (encodeBytes i ++ rest) = .ok (i, rest)

/-! The step. -/

/-- 44_control.md R182: where the engine's turn is next and PENDING decodes to a command, a step is that command's exec in the
state with the turn taken off the queue; where PENDING = none the block idles (60_exceptions.md R221) and only the turn is
taken. Where nothing more comes from outside it is the engine's turn (the model's choice, notes/assumptions/1.md). -/
def Obligations.StepRunsPendingCommand : Prop :=
  ∀ s : State, s.faultMark = none → s.rstN = true → s.inputs.headD .engine = .engine →
    (∀ (w : Word) (i : Instr), s.pending = some w → decode w = .ok i → i.wellFormed = true →
      step s = exec i { s with inputs := s.inputs.tail }) ∧
    (s.pending = none → step s = .next { s with inputs := s.inputs.tail })

/-- R92, R94, R182: a pending illegal word completes with ILLEGAL and has no other effect. -/
def Obligations.IllegalWordCompletesWithIllegal : Prop :=
  ∀ (s : State) (w : Word), s.faultMark = none → s.rstN = true → s.inputs.headD .engine = .engine →
    s.pending = some w → wellFormedWord w = false →
    step s = .next { failedState .illegal s with inputs := s.inputs.tail }

/-- R71, R81: where a host access is next and rst_n is high, a step is that access in the state with the access taken off the
queue. -/
def Obligations.StepMakesNextHostAccess : Prop :=
  ∀ (s : State) (idx : RegIndex) (wdata : Word) (rest : List Input), s.faultMark = none → s.rstN = true →
    (s.inputs = .write idx wdata :: rest → step s = .next (busWrite idx wdata { s with inputs := rest })) ∧
    (s.inputs = .read idx :: rest → step s = busRead idx { s with inputs := rest })

/-! Commands: results, frames, check errors. -/

/-- R180. -/
def Obligations.NopOnlyCompletes : Prop :=
  decode 0x00000000#32 = .ok .nop ∧
  (∀ s : State, exec .nop s = .next { s with pending := none, status := finishedStatus s.status } ∧
    ∀ t, exec .nop s = .next t → t.irq = s.ie) ∧
  (advanceBy 2 { State.reset with inputs := [.write 0x03#6 0x00000000#32, .engine] }).status.toWord = 0x00000002#32

/-- R122: GEN_PN in every state, the check and the chips. -/
def Obligations.GenPnWritesLfsrStream : Prop :=
  decode 0x00000001#32 = .ok .genPn ∧
  ∀ s : State,
    ((s.sf.toNat = 0 ∨ s.params.pnMax < s.sf.toNat) → exec .genPn s = .next (failedState .sfRange s)) ∧
    (1 ≤ s.sf.toNat → s.sf.toNat ≤ s.params.pnMax → ∃ t, exec .genPn s = .next t ∧
      (∀ j, j < s.sf.toNat →
        t.pn.read j = some (lfsrStep ((fun x => (lfsrStep x).2)^[j] (scramble s.seed))).1) ∧
      (∀ j, s.sf.toNat ≤ j → t.pn.read j = s.pn.read j) ∧
      t = { s with pn := t.pn, pending := none, status := finishedStatus s.status })

/-- R120: the arithmetic modulo 2^64, that the result is never 0, that distinct seeds give distinct states, and the two
examples. -/
def Obligations.ScrambleRuleAndInjection : Prop :=
  (∀ seed : Word, ∃ z0 z1 z2 z3 z4 : BitVec 64,
    z0 = BitVec.ofNat 64 (seed.toNat + 0x9E3779B97F4A7C15) ∧ z1 = z0 ^^^ (z0 >>> 30) ∧
    z2 = BitVec.ofNat 64 (z1.toNat * 0xBF58476D1CE4E5B9) ∧ z3 = z2 ^^^ (z2 >>> 27) ∧
    z4 = BitVec.ofNat 64 (z3.toNat * 0x94D049BB133111EB) ∧ scramble seed = z4 ^^^ (z4 >>> 31)) ∧
  (∀ seed : Word, scramble seed ≠ 0#64) ∧
  (∀ a b : Word, scramble a = scramble b → a = b) ∧
  scramble 0#32 = 0xE220A8397B1DCDAF#64 ∧ scramble 1#32 = 0x910A2DEC89025CC1#64

/-- R121, the step: the output chip is bit 0, and each bit of the next state is the bit above it, flipped at the taps 63, 62,
60 and 59 when the chip is 1. -/
def Obligations.LfsrStepShiftsAndFeedsBack : Prop :=
  ∀ (x : BitVec 64), (lfsrStep x).1 = BitVec.ofBool (x.getLsbD 0) ∧
    ∀ i, i < 64 → (lfsrStep x).2.getLsbD i =
      ((if i = 63 then false else x.getLsbD (i + 1)) ^^ (x.getLsbD 0 && decide (i ∈ [63, 62, 60, 59])))

/-- R121's property: the first 64 chips determine the initial state. -/
def Obligations.SixtyFourChipsDetermineState : Prop :=
  ∀ a b : BitVec 64, lfsrChips 64 a = lfsrChips 64 b → a = b

/-- R124: equal SEED and SF give equal chips, whatever the block was before. -/
def Obligations.GenPnIsDeterministic : Prop :=
  ∀ s s' t t' : State, s.seed = s'.seed → s.sf = s'.sf → 1 ≤ s.sf.toNat → s.sf.toNat ≤ s.params.pnMax →
    s'.sf.toNat ≤ s'.params.pnMax → exec .genPn s = .next t → exec .genPn s' = .next t' →
    ∀ j, j < s.sf.toNat → ∃ c, t.pn.read j = some c ∧ t'.pn.read j = some c

/-- R125, its first sentence: with equal SF ≥ 64, different seeds write different sequences. -/
def Obligations.DistinctSeedsWriteDistinctChips : Prop :=
  ∀ s s' t t' : State, s.seed ≠ s'.seed → s.sf = s'.sf → 64 ≤ s.sf.toNat → s.sf.toNat ≤ s.params.pnMax →
    s'.sf.toNat ≤ s'.params.pnMax → exec .genPn s = .next t → exec .genPn s' = .next t' →
    ∃ j, j < s.sf.toNat ∧ t.pn.read j ≠ t'.pn.read j

/-- R127: PN[j] = Scramble(SEED)[j] for j in 0 .. min(SF, 60) − 1. -/
def Obligations.ShortSequencesReadScrambledSeed : Prop :=
  ∀ s : State, 1 ≤ s.sf.toNat → s.sf.toNat ≤ s.params.pnMax → ∃ t, exec .genPn s = .next t ∧
    ∀ j, j < min s.sf.toNat 60 → t.pn.read j = some (BitVec.ofBool ((scramble s.seed).getLsbD j))

/-- R100: ENCODE in every state: the check, the symbols, the fault. -/
def Obligations.EncodeWritesMessageSymbols : Prop :=
  decode 0x00000002#32 = .ok .encode ∧
  ∀ s : State,
    ((s.params.msgMax : Int) - 1 < (s.mlen.toNat : Int) → exec .encode s = .next (failedState .lenRange s)) ∧
    ((s.mlen.toNat : Int) ≤ (s.params.msgMax : Int) - 1 →
      ((∃ b, b < s.mlen.toNat ∧ s.msg.read b = none) → exec .encode s = .fault (.uninit (.command .encode))) ∧
      ∀ x : Nat → Byte, (∀ b, b < s.mlen.toNat → s.msg.read b = some (x b)) → ∃ t, exec .encode s = .next t ∧
        (∀ b k, b ≤ s.mlen.toNat → k < 8 →
          t.sym.read (8 * b + k) = some (BitVec.ofBool ((if b < s.mlen.toNat then x b else 0x00#8).getLsbD (7 - k)))) ∧
        (∀ i, 8 * (s.mlen.toNat + 1) ≤ i → t.sym.read i = s.sym.read i) ∧
        (s.params.legal = true → t.nsym.toNat = 8 * (s.mlen.toNat + 1)) ∧
        t = { s with sym := t.sym, nsym := BitVec.ofNat 32 (8 * (s.mlen.toNat + 1)), pending := none,
                     status := finishedStatus s.status })

/-- R101, R204: DECODE in every state: the check, the bytes, the terminator or NOTERM, the fault. -/
def Obligations.DecodeAssemblesBytes : Prop :=
  decode 0x00000005#32 = .ok .decode ∧
  ∀ s : State,
    (8 * s.params.msgMax < s.nsym.toNat → exec .decode s = .next (failedState .lenRange s)) ∧
    (s.nsym.toNat ≤ 8 * s.params.msgMax →
      ((∃ k, k < 8 * (s.nsym.toNat / 8) ∧ s.sym.read k = none) →
        exec .decode s = .fault (.uninit (.command .decode))) ∧
      ∀ y : Nat → PolBit, (∀ k, k < 8 * (s.nsym.toNat / 8) → s.sym.read k = some (y k)) →
        ∃ t, exec .decode s = .next t ∧
          (∀ b, b < s.nsym.toNat / 8 → ∃ v, t.msg.read b = some v ∧
            ∀ k, k < 8 → BitVec.ofBool (v.getLsbD (7 - k)) = y (8 * b + k)) ∧
          (∀ b, s.nsym.toNat / 8 ≤ b → t.msg.read b = s.msg.read b) ∧
          (∀ z, z < s.nsym.toNat / 8 → t.msg.read z = some 0x00#8 → (∀ b, b < z → t.msg.read b ≠ some 0x00#8) →
            t = { s with msg := t.msg, mlen := BitVec.ofNat 32 z, pending := none,
                         status := { finishedStatus s.status with term := true } }) ∧
          ((∀ b, b < s.nsym.toNat / 8 → t.msg.read b ≠ some 0x00#8) →
            t = { failedState .noTerm s with
                    msg := t.msg, mlen := BitVec.ofNat 32 (s.nsym.toNat / 8),
                    status := { (failedState .noTerm s).status with term := false } }))

/-- R102: ENCODE followed directly by DECODE. -/
def Obligations.EncodeThenDecodeReturnsMessage : Prop :=
  ∀ (s : State) (x : Nat → Byte), s.params.legal = true → (s.mlen.toNat : Int) ≤ (s.params.msgMax : Int) - 1 →
    (∀ b, b < s.mlen.toNat → s.msg.read b = some (x b)) →
    ∃ t u, exec .encode s = .next t ∧ exec .decode t = .next u ∧
      ((∀ b, b < s.mlen.toNat → x b ≠ 0x00#8) →
        u.mlen = s.mlen ∧ (∀ b, b < s.mlen.toNat → u.msg.read b = s.msg.read b) ∧
        u.msg.read s.mlen.toNat = some 0x00#8 ∧ u.status.term = true ∧ u.status.errcode = .noError) ∧
      (∀ z, z < s.mlen.toNat → x z = 0x00#8 → (∀ b, b < z → x b ≠ 0x00#8) →
        u.mlen.toNat = z ∧ ∀ b, b < z → u.msg.read b = s.msg.read b)

/-- R140: chip j of symbol i lies at sample i·SF + j; read back as an integer it is the product of the two polarities and the
strength, and it fits a 32-bit sample. -/
def Obligations.ChipValueAndPlacement : Prop :=
  ∀ (s t : State) (i j : Nat) (y p : PolBit), exec .spread s = .next t → t.status.errcode = .noError →
    i < s.nsym.toNat → j < s.sf.toNat → s.sym.read i = some y → s.pn.read j = some p →
    ∃ v, t.smp.read (i * s.sf.toNat + j) = some v ∧
      v.toInt = pol y * pol p * (s.strength.toNat : Int) ∧
      v.toInt = (if y = p then (s.strength.toNat : Int) else -(s.strength.toNat : Int)) ∧
      -(2 ^ 31 - 1) ≤ v.toInt ∧ v.toInt ≤ 2 ^ 31 - 1

/-- R141: SPREAD in every state: the three checks in order, the payload, the padding, the fault. -/
def Obligations.SpreadWritesPaddedPayload : Prop :=
  decode 0x00000003#32 = .ok .spread ∧
  ∀ s : State,
    ((s.sf.toNat = 0 ∨ s.params.pnMax < s.sf.toNat) → exec .spread s = .next (failedState .sfRange s)) ∧
    (1 ≤ s.sf.toNat → s.sf.toNat ≤ s.params.pnMax →
      (8 * s.params.msgMax < s.nsym.toNat ∨ s.params.smpMax < s.slen.toNat) →
      exec .spread s = .next (failedState .lenRange s)) ∧
    (1 ≤ s.sf.toNat → s.sf.toNat ≤ s.params.pnMax → s.nsym.toNat ≤ 8 * s.params.msgMax →
      s.slen.toNat ≤ s.params.smpMax → s.slen.toNat < s.nsym.toNat * s.sf.toNat →
      exec .spread s = .next (failedState .capacity s)) ∧
    (SpreadChecksPass s →
      (((∃ i, i < s.nsym.toNat ∧ s.sym.read i = none) ∨
          (0 < s.nsym.toNat ∧ ∃ j, j < s.sf.toNat ∧ s.pn.read j = none)) →
        exec .spread s = .fault (.uninit (.command .spread))) ∧
      ∀ y p : Nat → PolBit, (∀ i, i < s.nsym.toNat → s.sym.read i = some (y i)) →
        (0 < s.nsym.toNat → ∀ j, j < s.sf.toNat → s.pn.read j = some (p j)) →
        ∃ t, exec .spread s = .next t ∧
          (∀ i j, i < s.nsym.toNat → j < s.sf.toNat → t.smp.read (i * s.sf.toNat + j) =
            some (wrap32 (if y i = p j then (s.strength.toNat : Int) else -(s.strength.toNat : Int)))) ∧
          (∀ k, s.nsym.toNat * s.sf.toNat ≤ k → k < s.slen.toNat → t.smp.read k = some 0x00000000#32) ∧
          (∀ k, s.slen.toNat ≤ k → t.smp.read k = s.smp.read k) ∧
          t = { s with smp := t.smp, pending := none, status := finishedStatus s.status })

/-- R142: SPREAD.ADD in every state: the three checks in order, the sums modulo 2^32, OVF, the fault. -/
def Obligations.SpreadAddAddsPayloadModulo : Prop :=
  decode 0x00000103#32 = .ok .spreadAdd ∧
  ∀ s : State,
    ((s.sf.toNat = 0 ∨ s.params.pnMax < s.sf.toNat) → exec .spreadAdd s = .next (failedState .sfRange s)) ∧
    (1 ≤ s.sf.toNat → s.sf.toNat ≤ s.params.pnMax →
      (8 * s.params.msgMax < s.nsym.toNat ∨ s.params.smpMax < s.slen.toNat) →
      exec .spreadAdd s = .next (failedState .lenRange s)) ∧
    (1 ≤ s.sf.toNat → s.sf.toNat ≤ s.params.pnMax → s.nsym.toNat ≤ 8 * s.params.msgMax →
      s.slen.toNat ≤ s.params.smpMax → s.slen.toNat < s.nsym.toNat * s.sf.toNat →
      exec .spreadAdd s = .next (failedState .capacity s)) ∧
    (SpreadChecksPass s →
      (((∃ i, i < s.nsym.toNat ∧ s.sym.read i = none) ∨
          (0 < s.nsym.toNat ∧ ∃ j, j < s.sf.toNat ∧ s.pn.read j = none) ∨
          (∃ k, k < s.nsym.toNat * s.sf.toNat ∧ s.smp.read k = none)) →
        exec .spreadAdd s = .fault (.uninit (.command .spreadAdd))) ∧
      ∀ (y p : Nat → PolBit) (x : Nat → Word), (∀ i, i < s.nsym.toNat → s.sym.read i = some (y i)) →
        (0 < s.nsym.toNat → ∀ j, j < s.sf.toNat → s.pn.read j = some (p j)) →
        (∀ k, k < s.nsym.toNat * s.sf.toNat → s.smp.read k = some (x k)) →
        ∃ t, exec .spreadAdd s = .next t ∧
          (∀ i j, i < s.nsym.toNat → j < s.sf.toNat → t.smp.read (i * s.sf.toNat + j) =
            some (wrap32 (sint32 (x (i * s.sf.toNat + j)) +
              (if y i = p j then (s.strength.toNat : Int) else -(s.strength.toNat : Int))))) ∧
          (∀ k, s.nsym.toNat * s.sf.toNat ≤ k → t.smp.read k = s.smp.read k) ∧
          (t.status.ovf = true ↔ s.status.ovf = true ∨ ∃ i j, i < s.nsym.toNat ∧ j < s.sf.toNat ∧
            (sint32 (x (i * s.sf.toNat + j)) +
                (if y i = p j then (s.strength.toNat : Int) else -(s.strength.toNat : Int)) < -2 ^ 31 ∨
              2 ^ 31 - 1 < sint32 (x (i * s.sf.toNat + j)) +
                (if y i = p j then (s.strength.toNat : Int) else -(s.strength.toNat : Int)))) ∧
          t = { s with smp := t.smp, pending := none,
                       status := { finishedStatus s.status with ovf := t.status.ovf } })

/-- R142's corner case: a carrier whose samples fit 16 bits never wraps at STRENGTH < 2^31 − 2^15. -/
def Obligations.SixteenBitCarrierNeverWraps : Prop :=
  ∀ (s t : State), s.strength.toNat < 2 ^ 31 - 2 ^ 15 →
    (∀ k v, k < s.nsym.toNat * s.sf.toNat → s.smp.read k = some v → -2 ^ 15 ≤ v.toInt ∧ v.toInt < 2 ^ 15) →
    exec .spreadAdd s = .next t → t.status.ovf = s.status.ovf

/-- R143: after SPREAD.ADD every sample below SLEN is carrier plus zero-padded payload, the exact sum while OVF stays 0. -/
def Obligations.SpreadAddGivesStegoSamples : Prop :=
  ∀ (s t : State) (y p : Nat → PolBit) (x : Nat → Word), SpreadChecksPass s →
    (∀ i, i < s.nsym.toNat → s.sym.read i = some (y i)) → (∀ j, j < s.sf.toNat → s.pn.read j = some (p j)) →
    (∀ k, k < s.slen.toNat → s.smp.read k = some (x k)) → exec .spreadAdd s = .next t →
    ∀ k, k < s.slen.toNat → ∃ v : Word, t.smp.read k = some v ∧
      v = wrap32 (sint32 (x k) +
        (if k < s.nsym.toNat * s.sf.toNat then
          pol (y (k / s.sf.toNat)) * pol (p (k % s.sf.toNat)) * (s.strength.toNat : Int) else 0)) ∧
      (t.status.ovf = false → v.toInt = (x k).toInt +
        (if k < s.nsym.toNat * s.sf.toNat then
          pol (y (k / s.sf.toNat)) * pol (p (k % s.sf.toNat)) * (s.strength.toNat : Int) else 0))

/-- R162: CORRELATE in every state: the two checks in order, the decisions, NSYM, CORR, CLIP, the fault. -/
def Obligations.CorrelateDecidesFullGroups : Prop :=
  decode 0x00000004#32 = .ok .correlate ∧
  ∀ s : State,
    ((s.sf.toNat = 0 ∨ s.params.pnMax < s.sf.toNat) → exec .correlate s = .next (failedState .sfRange s)) ∧
    (1 ≤ s.sf.toNat → s.sf.toNat ≤ s.params.pnMax → s.params.smpMax < s.slen.toNat →
      exec .correlate s = .next (failedState .lenRange s)) ∧
    (CorrelateChecksPass s →
      (((∃ k, k < groupsDecided s * s.sf.toNat ∧ s.smp.read k = none) ∨
          (0 < groupsDecided s ∧ ∃ j, j < s.sf.toNat ∧ s.pn.read j = none)) →
        exec .correlate s = .fault (.uninit (.command .correlate))) ∧
      ∀ (x : Nat → Word) (p : Nat → PolBit), (∀ k, k < groupsDecided s * s.sf.toNat → s.smp.read k = some (x k)) →
        (0 < groupsDecided s → ∀ j, j < s.sf.toNat → s.pn.read j = some (p j)) →
        ∃ t, exec .correlate s = .next t ∧
          (∀ g, g < groupsDecided s → t.sym.read g =
            some (if 0 < ∑ j ∈ Finset.range s.sf.toNat, sint32 (x (g * s.sf.toNat + j)) * pol (p j)
              then 1#1 else 0#1)) ∧
          (∀ g, groupsDecided s ≤ g → t.sym.read g = s.sym.read g) ∧
          t.corr = wrap64 (if groupsDecided s = 0 then 0 else
            ∑ j ∈ Finset.range s.sf.toNat, sint32 (x ((groupsDecided s - 1) * s.sf.toNat + j)) * pol (p j)) ∧
          t = { s with sym := t.sym, nsym := BitVec.ofNat 32 (groupsDecided s), corr := t.corr, pending := none,
                       status := { finishedStatus s.status with
                         clip := decide (8 * s.params.msgMax < s.slen.toNat / s.sf.toNat) } })

/-- R160: the correlation is the exact sum, within SF · 2^31 < 2^63, so CORR read as a 64-bit integer is the last group's
exact Z. -/
def Obligations.CorrelationIsExact : Prop :=
  ∀ (s t : State) (x : Nat → Word) (p : Nat → PolBit), CorrelateChecksPass s → 0 < groupsDecided s →
    (∀ k, k < groupsDecided s * s.sf.toNat → s.smp.read k = some (x k)) →
    (∀ j, j < s.sf.toNat → s.pn.read j = some (p j)) → exec .correlate s = .next t →
    (∀ g, |∑ j ∈ Finset.range s.sf.toNat, sint32 (x (g * s.sf.toNat + j)) * pol (p j)| ≤ (s.sf.toNat : Int) * 2 ^ 31 ∧
      |∑ j ∈ Finset.range s.sf.toNat, sint32 (x (g * s.sf.toNat + j)) * pol (p j)| < 2 ^ 63) ∧
    t.corr.toInt =
      ∑ j ∈ Finset.range s.sf.toNat, sint32 (x ((groupsDecided s - 1) * s.sf.toNat + j)) * pol (p j)

/-- R161. -/
def Obligations.SlicerThresholdIsStrictZero : Prop :=
  (∀ z : Int, 0 < z → sliceBit z = 1#1) ∧ (∀ z : Int, z < 0 → sliceBit z = 0#1) ∧ sliceBit 0 = 0#1

/-- R163: after SPREAD.ADD without wrap-around, CORRELATE decides symbol i by pol(SYM[i])·STRENGTH·SF plus the carrier's own
correlation; where the payload fills SMP, CORR is that number for the last symbol. -/
def Obligations.MatchedFilterSeparatesSymbolAndCarrier : Prop :=
  ∀ (s t : State) (y p : Nat → PolBit) (x : Nat → Word), SpreadChecksPass s →
    (∀ i, i < s.nsym.toNat → s.sym.read i = some (y i)) → (∀ j, j < s.sf.toNat → s.pn.read j = some (p j)) →
    (∀ k, k < s.slen.toNat → s.smp.read k = some (x k)) → exec .spreadAdd s = .next t → t.status.ovf = false →
    ∃ u, exec .correlate t = .next u ∧
      (∀ i, i < s.nsym.toNat → u.sym.read i =
        some (if 0 < pol (y i) * (s.strength.toNat : Int) * (s.sf.toNat : Int) +
            ∑ j ∈ Finset.range s.sf.toNat, (x (i * s.sf.toNat + j)).toInt * pol (p j)
          then 1#1 else 0#1)) ∧
      (s.nsym.toNat * s.sf.toNat = s.slen.toNat → 0 < s.nsym.toNat →
        u.corr = wrap64 (pol (y (s.nsym.toNat - 1)) * (s.strength.toNat : Int) * (s.sf.toNat : Int) +
          ∑ j ∈ Finset.range s.sf.toNat, (x ((s.nsym.toNat - 1) * s.sf.toNat + j)).toInt * pol (p j)))

/-- R163, R141, R162: with STRENGTH ≥ 1, CORRELATE recovers every symbol SPREAD wrote (the carrier is zero). -/
def Obligations.SpreadThenCorrelateRecoversSymbols : Prop :=
  ∀ (s t : State), SpreadChecksPass s → 1 ≤ s.strength.toNat → 0 < s.nsym.toNat →
    exec .spread s = .next t →
    ∃ u, exec .correlate t = .next u ∧ ∀ i, i < s.nsym.toNat → u.sym.read i = s.sym.read i

/-! Commands: rules over all of them. -/

/-- R216: a command ends in the fault Uninit, under its own name, exactly when its checks pass and a cell it reads holds no
value. -/
def Obligations.CommandFaultsExactlyOnEmptyCell : Prop :=
  ∀ (i : Instr) (s : State) (f : Fault),
    exec i s = .fault f ↔ f = .uninit (.command i) ∧ ReadsEmptyCell i s

/-- R184: a command that the engine starts completes, or reads a cell that holds no value; it is never refused. -/
def Obligations.StartedCommandCompletes : Prop :=
  ∀ (i : Instr) (s : State), ¬ ReadsEmptyCell i s →
    ∃ t, exec i s = .next t ∧ t.pending = none ∧ t.status.busy = false ∧ t.status.done = true

/-- R182: what every completion does to PENDING and STATUS; ERR and HERR are sticky (R25). -/
def Obligations.CompletionWritesStatus : Prop :=
  ∀ (w : Word) (s t : State), completeWord w s = .next t →
    t.pending = none ∧ t.status.busy = false ∧ t.status.done = true ∧ t.status.herr = s.status.herr ∧
    (t.status.errcode = .noError → t.status.err = s.status.err) ∧
    (t.status.errcode ≠ .noError → t.status.err = true)

/-- R203: an error found by a check writes no memory cell and no register. -/
def Obligations.CheckErrorWritesOnlyStatus : Prop :=
  ∀ (w : Word) (s t : State), completeWord w s = .next t →
    t.status.errcode ∈ [ErrCode.illegal, ErrCode.sfRange, ErrCode.lenRange, ErrCode.capacity] →
    t = failedState t.status.errcode s

/-- R202: the first failing check in the order decides the code and comes before any memory access; where all pass, the
command reports NONE, or NOTERM for DECODE only. -/
def Obligations.FirstFailingCheckIsReported : Prop :=
  ∀ (w : Word) (s : State),
    (firstCheckError w s ≠ .noError → completeWord w s = .next (failedState (firstCheckError w s) s)) ∧
    (firstCheckError w s = .noError → ∀ t, completeWord w s = .next t →
      t.status.errcode = .noError ∨ (t.status.errcode = .noTerm ∧ w = 0x00000005#32))

/-- R48, R84 and each command's list: what a completion leaves unchanged. -/
def Obligations.CommandsWriteOnlyTheirResults : Prop :=
  ∀ (i : Instr) (s t : State), exec i s = .next t →
    (t.params = s.params ∧ t.ie = s.ie ∧ t.seed = s.seed ∧ t.sf = s.sf ∧ t.slen = s.slen ∧ t.strength = s.strength ∧
      t.pnPtr = s.pnPtr ∧ t.symPtr = s.symPtr ∧ t.msgPtr = s.msgPtr ∧ t.smpPtr = s.smpPtr ∧
      t.faultMark = s.faultMark ∧ t.rstN = s.rstN ∧ t.rdata = s.rdata ∧ t.inputs = s.inputs ∧ t.draws = s.draws ∧
      t.status.herr = s.status.herr) ∧
    (i ≠ .genPn → t.pn = s.pn) ∧
    (i ≠ .encode → i ≠ .correlate → t.sym = s.sym ∧ t.nsym = s.nsym) ∧
    (i ≠ .decode → t.msg = s.msg ∧ t.mlen = s.mlen ∧ t.status.term = s.status.term) ∧
    (i ≠ .spread → i ≠ .spreadAdd → t.smp = s.smp) ∧
    (i ≠ .correlate → t.corr = s.corr ∧ t.status.clip = s.status.clip) ∧
    (i ≠ .spreadAdd → t.status.ovf = s.status.ovf)

/-! The host bus. -/

/-- R75, with the ports' word indexes (10_state.md R22), the cell counts (R70) and the cells zero-extended: the three outcomes
of a data-port read while BUSY = 0. -/
def Obligations.DataPortReadRule : Prop :=
  ((Reg.data .pn).index = 0x0D#6 ∧ (Reg.data .sym).index = 0x0F#6 ∧ (Reg.data .msg).index = 0x11#6 ∧
    (Reg.data .smp).index = 0x13#6) ∧
  (∀ s : State, s.size .pn = s.params.pnMax ∧ s.size .sym = 8 * s.params.msgMax ∧ s.size .msg = s.params.msgMax ∧
    s.size .smp = s.params.smpMax ∧ s.ptr .pn = s.pnPtr ∧ s.ptr .sym = s.symPtr ∧ s.ptr .msg = s.msgPtr ∧
    s.ptr .smp = s.smpPtr) ∧
  (∀ (s : State) (i : Nat), s.readCell .pn i = (s.pn.read i).map (fun v => v.setWidth 32) ∧
    s.readCell .sym i = (s.sym.read i).map (fun v => v.setWidth 32) ∧
    s.readCell .msg i = (s.msg.read i).map (fun v => v.setWidth 32) ∧ s.readCell .smp i = s.smp.read i) ∧
  ∀ (s : State) (x : MemName), s.status.busy = false →
    (∀ v, (s.ptr x).toNat < s.size x → s.readCell x (s.ptr x).toNat = some v →
      busRead (Reg.data x).index s = .next (State.setPtr x (s.ptr x + 1#32) { s with rdata := v })) ∧
    ((s.ptr x).toNat < s.size x → s.readCell x (s.ptr x).toNat = none →
      busRead (Reg.data x).index s = .fault (.uninit (.dataPort x))) ∧
    (s.size x ≤ (s.ptr x).toNat →
      busRead (Reg.data x).index s = .next (State.setPtr x (s.ptr x + 1#32)
        { s with rdata := 0x00000000#32, status := { s.status with herr := true } }))

/-- R76 (ports and cell counts as DataPortReadRule gives them): a data-port write while BUSY = 0: the low W_X bits are stored in range, nothing out of range, and the pointer moves
in both cases; every other cell reads as before. -/
def Obligations.DataPortWriteRule : Prop :=
  ∀ (s : State) (x : MemName) (wdata : Word), s.status.busy = false →
    (∀ t, t = busWrite (Reg.data x).index wdata s →
      (s.ptr x).toNat < s.size x →
        t.readCell x (s.ptr x).toNat = some (match x with
          | .pn => wdata &&& 0x00000001#32
          | .sym => wdata &&& 0x00000001#32
          | .msg => wdata &&& 0x000000FF#32
          | .smp => wdata) ∧
        (∀ y k, (y ≠ x ∨ k ≠ (s.ptr x).toNat) → t.readCell y k = s.readCell y k) ∧
        t = State.setPtr x (s.ptr x + 1#32) { s with pn := t.pn, sym := t.sym, msg := t.msg, smp := t.smp }) ∧
    (s.size x ≤ (s.ptr x).toNat → busWrite (Reg.data x).index wdata s =
      State.setPtr x (s.ptr x + 1#32) { s with status := { s.status with herr := true } })

/-- R77: every port access made while BUSY = 0 increments the pointer modulo 2^32, a pointer past the memory stays past it until
it wraps, a host write sets it, and a host read returns it with no side effect. -/
def Obligations.PointerArithmetic : Prop :=
  ((Reg.ptr .pn).index = 0x0C#6 ∧ (Reg.ptr .sym).index = 0x0E#6 ∧ (Reg.ptr .msg).index = 0x10#6 ∧
    (Reg.ptr .smp).index = 0x12#6) ∧
  ∀ (s : State) (x : MemName) (wdata : Word), s.status.busy = false →
    (∀ t, t = busWrite (Reg.data x).index wdata s ∨ busRead (Reg.data x).index s = .next t →
      t.ptr x = BitVec.ofNat 32 ((s.ptr x).toNat + 1) ∧ (∀ y, y ≠ x → t.ptr y = s.ptr y) ∧
      (s.size x ≤ (s.ptr x).toNat → (s.ptr x).toNat + 1 < 2 ^ 32 → s.size x ≤ (t.ptr x).toNat)) ∧
    (busWrite (Reg.ptr x).index wdata s).ptr x = wdata ∧
    busRead (Reg.ptr x).index s = .next { s with rdata := s.ptr x }

/-- R78: what is blocked while BUSY = 1, and what is not. -/
def Obligations.BlockedAccessesAreDropped : Prop :=
  ∀ (s : State), s.status.busy = true →
    (∀ (r : Reg) (w : Word), r ∈ [Reg.cmd, .seed, .sf, .nsym, .mlen, .slen, .strength, .ptr .pn, .ptr .sym, .ptr .msg,
        .ptr .smp, .data .pn, .data .sym, .data .msg, .data .smp] →
      busWrite r.index w s = { s with status := { s.status with herr := true } }) ∧
    (∀ x, busRead (Reg.data x).index s =
      .next { s with rdata := 0x00000000#32, status := { s.status with herr := true } }) ∧
    (∀ idx : RegIndex, (∀ x, idx ≠ (Reg.data x).index) →
      busRead idx s = .next { s with rdata := s.readReg (regAt idx) }) ∧
    (∀ w : Word, w.getLsbD 1 = false → busWrite 0x01#6 w s = { s with ie := w.getLsbD 0 }) ∧
    (∀ w : Word, w.getLsbD 1 = true → busWrite 0x01#6 w s = s.softReset) ∧
    (∀ w : Word, busWrite 0x02#6 w s = s.clearStatus w) ∧
    (∀ (idx : RegIndex) (w : Word), idx ∈ [0x00#6, 0x0A#6, 0x0B#6, 0x14#6, 0x15#6, 0x16#6] ∨ 0x17 ≤ idx.toNat →
      busWrite idx w s = s)

/-- R22 to R37: what a read of each register that is no port returns, by word index, with no other effect. -/
def Obligations.RegisterReadValues : Prop :=
  ∀ s : State,
    busRead 0x00#6 s = .next { s with rdata := 0x44535353#32 } ∧
    busRead 0x01#6 s = .next { s with rdata := if s.ie then 1#32 else 0#32 } ∧
    busRead 0x02#6 s = .next { s with rdata := s.status.toWord } ∧
    busRead 0x03#6 s = .next { s with rdata := 0#32 } ∧
    busRead 0x04#6 s = .next { s with rdata := s.seed } ∧
    busRead 0x05#6 s = .next { s with rdata := s.sf } ∧
    busRead 0x06#6 s = .next { s with rdata := s.nsym } ∧
    busRead 0x07#6 s = .next { s with rdata := s.mlen } ∧
    busRead 0x08#6 s = .next { s with rdata := s.slen } ∧
    busRead 0x09#6 s = .next { s with rdata := s.strength.setWidth 32 } ∧
    busRead 0x0A#6 s = .next { s with rdata := s.corr.setWidth 32 } ∧
    busRead 0x0B#6 s = .next { s with rdata := (s.corr >>> 32).setWidth 32 } ∧
    busRead 0x0C#6 s = .next { s with rdata := s.pnPtr } ∧
    busRead 0x0E#6 s = .next { s with rdata := s.symPtr } ∧
    busRead 0x10#6 s = .next { s with rdata := s.msgPtr } ∧
    busRead 0x12#6 s = .next { s with rdata := s.smpPtr } ∧
    busRead 0x14#6 s = .next { s with rdata := BitVec.ofNat 32 s.params.pnMax } ∧
    busRead 0x15#6 s = .next { s with rdata := BitVec.ofNat 32 s.params.msgMax } ∧
    busRead 0x16#6 s = .next { s with rdata := BitVec.ofNat 32 s.params.smpMax }

/-- R22, R28 to R33, R35: a write to a configuration register while BUSY = 0 stores wdata, bits 30:0 for STRENGTH, and changes
nothing else; in particular PN is not regenerated (70_reset_and_hazards.md R238). R24: so does a write to CTRL without a soft
reset, which stores IE. -/
def Obligations.ConfigurationWriteStoresOnlyItsRegister : Prop :=
  ∀ (s : State) (w : Word), s.status.busy = false →
    busWrite 0x04#6 w s = { s with seed := w } ∧ busWrite 0x05#6 w s = { s with sf := w } ∧
    busWrite 0x06#6 w s = { s with nsym := w } ∧ busWrite 0x07#6 w s = { s with mlen := w } ∧
    busWrite 0x08#6 w s = { s with slen := w } ∧ busWrite 0x09#6 w s = { s with strength := w.extractLsb' 0 31 } ∧
    busWrite 0x0C#6 w s = { s with pnPtr := w } ∧ busWrite 0x0E#6 w s = { s with symPtr := w } ∧
    busWrite 0x10#6 w s = { s with msgPtr := w } ∧ busWrite 0x12#6 w s = { s with smpPtr := w } ∧
    (w.getLsbD 1 = false → busWrite 0x01#6 w s = { s with ie := w.getLsbD 0 })

/-- R25, R201: STATUS bit by bit; reserved bits read as zero, and ERRCODE is the code's number, 0 to 5. -/
def Obligations.StatusWordLayout : Prop :=
  (∀ f : Status, f.toWord.getLsbD 0 = f.busy ∧ f.toWord.getLsbD 1 = f.done ∧ f.toWord.getLsbD 2 = f.err ∧
    f.toWord.getLsbD 3 = f.herr ∧ f.toWord.getLsbD 4 = f.term ∧ f.toWord.getLsbD 5 = f.clip ∧
    f.toWord.getLsbD 6 = f.ovf ∧ f.toWord.getLsbD 7 = false ∧ f.toWord.extractLsb' 8 4 = f.errcode.code ∧
    f.toWord.extractLsb' 12 20 = 0#20) ∧
  ErrCode.noError.code = 0#4 ∧ ErrCode.illegal.code = 1#4 ∧ ErrCode.sfRange.code = 2#4 ∧ ErrCode.lenRange.code = 3#4 ∧
  ErrCode.capacity.code = 4#4 ∧ ErrCode.noTerm.code = 5#4 ∧ ∀ c : ErrCode, c.code.toNat ≤ 5

/-- R74: reserved word indexes read as 0, writes to them and to read-only registers do nothing, and none of these sets HERR. -/
def Obligations.ReservedAndReadOnlyAccesses : Prop :=
  ∀ (s : State) (w : Word),
    (∀ idx : RegIndex, 0x17 ≤ idx.toNat →
      busRead idx s = .next { s with rdata := 0x00000000#32 } ∧ busWrite idx w s = s) ∧
    (∀ idx : RegIndex, idx ∈ [0x00#6, 0x0A#6, 0x0B#6, 0x14#6, 0x15#6, 0x16#6] → busWrite idx w s = s)

/-- R181. -/
def Obligations.CommandIssueLatchesWord : Prop :=
  ∀ (s : State) (w : Word),
    (s.status.busy = true → busWrite 0x03#6 w s = { s with status := { s.status with herr := true } }) ∧
    (s.status.busy = false →
      busWrite 0x03#6 w s = { s with pending := some w, status := { s.status with busy := true, done := false } })

/-- R26: a write to STATUS clears DONE, ERR, HERR and OVF where wdata has a 1 and ignores every other bit, BUSY or not. -/
def Obligations.StatusWriteClearsOnes : Prop :=
  ∀ (s : State) (w : Word),
    busWrite 0x02#6 w s = { s with status := { s.status with
      done := if w.getLsbD 1 = true then false else s.status.done,
      err := if w.getLsbD 2 = true then false else s.status.err,
      herr := if w.getLsbD 3 = true then false else s.status.herr,
      ovf := if w.getLsbD 6 = true then false else s.status.ovf } }

/-- R208: irq = CTRL.IE AND STATUS.DONE; it rises at any completion with IE = 1 and falls on a clear of DONE, a command issue, a
clear of IE, or a reset. -/
def Obligations.IrqIsEnableAndDone : Prop :=
  (∀ s : State, s.irq = true ↔ s.ie = true ∧ s.status.done = true) ∧
  (∀ (w : Word) (s t : State), s.ie = true → completeWord w s = .next t → t.irq = true) ∧
  (∀ (s : State) (w : Word), w.getLsbD 1 = true → (busWrite 0x02#6 w s).irq = false) ∧
  (∀ (s : State) (w : Word), s.status.busy = false → (busWrite 0x03#6 w s).irq = false) ∧
  (∀ (s : State) (w : Word), w.getLsbD 0 = false ∨ w.getLsbD 1 = true → (busWrite 0x01#6 w s).irq = false) ∧
  (∀ s : State, s.externalReset.irq = false)

/-- R79: a read changes rdata alone, except at a data port, which also moves its pointer and may set HERR. -/
def Obligations.ReadsChangeOnlyPortState : Prop :=
  ∀ (s t : State) (idx : RegIndex), busRead idx s = .next t →
    ((∀ x, idx ≠ (Reg.data x).index) → t = { s with rdata := t.rdata }) ∧
    (∀ x, idx = (Reg.data x).index →
      t = State.setPtr x (t.ptr x) { s with rdata := t.rdata, status := { s.status with herr := t.status.herr } })

/-- R87: while a command is pending, no host access but a soft reset changes a result register or a memory cell; OVF only goes
where a STATUS write clears it. -/
def Obligations.ResultsChangeOnlyAtCompletion : Prop :=
  ∀ (s t : State) (e : Input) (rest : List Input), s.status.busy = true → s.rstN = true → s.inputs = e :: rest →
    e ≠ .engine → e ≠ .rst false → (∀ w : Word, e = .write 0x01#6 w → w.getLsbD 1 = false) → step s = .next t →
    t.nsym = s.nsym ∧ t.mlen = s.mlen ∧ t.corr = s.corr ∧ t.status.term = s.status.term ∧
    t.status.clip = s.status.clip ∧
    ((∀ w : Word, e = .write 0x02#6 w → w.getLsbD 6 = false) → t.status.ovf = s.status.ovf) ∧
    t.pn = s.pn ∧ t.sym = s.sym ∧ t.msg = s.msg ∧ t.smp = s.smp ∧ t.pending = s.pending

/-- R182, R97 (WAIT): a pending command may wait for any number of host polls; each poll reads BUSY = 1 and changes nothing but
rdata. -/
def Obligations.PollsLeavePendingCommandAlone : Prop :=
  ∀ (n : Nat) (s : State) (w : Word), s.pending = some w → s.status.busy = true → s.faultMark = none → s.rstN = true →
    s.inputs = opWait n →
    advanceBy n s = { s with inputs := [.engine, opR .status], rdata := if n = 0 then s.rdata else s.status.toWord } ∧
      s.status.toWord.getLsbD 0 = true

/-! Reset. -/

/-- R232, R233: the soft reset in every state, BUSY or not: registers at their reset values, CTRL reading 0, memory cells kept
except those the pending command would have written. -/
def Obligations.SoftResetAndAbort : Prop :=
  ∀ (s t : State) (w : Word), w.getLsbD 1 = true → t = busWrite 0x01#6 w s →
    t = { registersReset s with pn := t.pn, sym := t.sym, msg := t.msg, smp := t.smp } ∧
    t.readReg .ctrl = 0x00000000#32 ∧
    (∀ x k, AbortTarget s x k → t.readCell x k = none) ∧
    (∀ x k, ¬ AbortTarget s x k → t.readCell x k = s.readCell x k)

/-- R231: the launch state; and the other registers at the values of 10_state.md R49. -/
def Obligations.LaunchStateAfterReset : Prop :=
  State.reset.pending = none ∧ State.reset.ie = false ∧ State.reset.status.toWord = 0x00000000#32 ∧
  State.reset.sf = 0#32 ∧ State.reset.nsym = 0#32 ∧ State.reset.mlen = 0#32 ∧ State.reset.slen = 0#32 ∧
  (∀ x k, State.reset.readCell x k = none) ∧ State.reset.faultMark = none ∧
  State.reset.seed = 0#32 ∧ State.reset.strength = 0#31 ∧ State.reset.corr = 0#64 ∧ State.reset.irq = false ∧
  ∀ x, State.reset.ptr x = 0#32

/-- R230: rst_n falling abandons a pending command and puts every register at its reset value with no cell holding a value; while
it is low an access has no effect but a read's unspecified value, and so has its release. -/
def Obligations.ExternalResetHoldsBlock : Prop :=
  ∀ (s : State) (e : Input) (rest : List Input), s.faultMark = none → s.inputs = e :: rest →
    (e = .rst false → step s =
      .next { registersReset s with pn := [], sym := [], msg := [], smp := [], rstN := false, inputs := rest }) ∧
    (s.rstN = false →
      (∀ idx : RegIndex, e = .read idx → ∃ (v : Word) (d : Nat), step s =
        .next { registersReset s with pn := [], sym := [], msg := [], smp := [], inputs := rest, rdata := v,
                                      draws := d }) ∧
      ((∀ idx : RegIndex, e ≠ .read idx) → step s =
        .next { registersReset s with pn := [], sym := [], msg := [], smp := [], inputs := rest,
                                      rstN := decide (e = .rst true) })) ∧
    (∀ t, (e = .rst false ∨ s.rstN = false) → step s = .next t → t.irq = false)

/-- R47, R49, R216: a fault sets the mark, a faulted state has no next state and keeps its mark, and no reset clears it. -/
def Obligations.FaultMarkIsNeverCleared : Prop :=
  (∀ (s : State) (f : Fault), s.faultMark = none → step s = .fault f → (advance s).faultMark = some f) ∧
  (∀ (s : State) (f : Fault), s.faultMark = some f → step s = .fault f ∧ advance s = s) ∧
  (∀ s : State, s.softReset.faultMark = s.faultMark ∧ s.externalReset.faultMark = s.faultMark)

/-! Invariants of every step. -/

/-- A step keeps all four memories in canonical form. -/
def Obligations.StepKeepsMemoriesCanonical : Prop :=
  ∀ s t : State, MemoriesCanonical s → step s = .next t → MemoriesCanonical t

/-- R84, R70: a step keeps every value inside its memory's cells, for every instance. -/
def Obligations.StepKeepsCellsInRange : Prop :=
  ∀ s t : State, CellsInRange s → step s = .next t → CellsInRange t

/-- R45: a step keeps STATUS.BUSY = 1 exactly when PENDING ≠ none. -/
def Obligations.StepKeepsBusyMatchingPending : Prop :=
  ∀ s t : State, BusyMatchesPending s → step s = .next t → BusyMatchesPending t

/-- R4, R37: no step changes the instance parameters. -/
def Obligations.StepKeepsParameters : Prop :=
  ∀ s t : State, step s = .next t → t.params = s.params

/-- The invariants hold at reset, for every instance. -/
def Obligations.ResetMeetsInvariants : Prop :=
  ∀ p : Params, MemoriesCanonical (State.resetWith p) ∧ CellsInRange (State.resetWith p) ∧
    BusyMatchesPending (State.resetWith p)

/-! The host's sequences. -/

/-- 20_memory.md R81: a sequence of host accesses and engine turns, run by the host's definitions, is what that many steps make
of it at the head of the queue; where it stops in a fault, the mark is that fault. -/
def Obligations.HostSequenceRunsAsSteps : Prop :=
  ∀ (es rest : List Input) (s : State), s.faultMark = none →
    (∀ t, runInputs es s = .next t →
      advanceBy es.length { s with inputs := es ++ rest } = { t with inputs := rest }) ∧
    (∀ f, runInputs es s = .fault f → (advanceBy es.length { s with inputs := es ++ rest }).faultMark = some f)

/-- 60_exceptions.md R219: the verification of an embed fails exactly when CORRELATE or DECODE reports an error, TERM = 0, the
recovered MLEN or MSG differs from the message, or the host's text check fails. -/
def Obligations.EmbedVerificationVerdict : Prop :=
  ∀ (validText : List Byte → Bool) (message : List Byte) (latency : Instr → Nat) (s c d : State),
    runInputs (opRun .correlate (latency .correlate)) s = .next c →
    runInputs (opRun .decode (latency .decode)) c = .next d →
    ∃ passes, hostVerify validText message latency s = .next (passes, d) ∧
      (passes = false ↔ c.status.errcode ≠ .noError ∨ d.status.errcode ≠ .noError ∨ d.status.term = false ∨
        d.mlen.toNat ≠ message.length ∨ (∃ b, b < message.length ∧ d.msg.read b ≠ message[b]?) ∨
        validText message = false)

/-- 95_test_vectors.md S5, 90_conflicts.md C4: where `embed` returns a stego signal, `extract` with the same seed and spreading
factor, on any idle block of the same instance, returns the message. The wait for each command is any number of polls. For a
carrier or a message with more elements than a 32-bit register can count, embed has its meaning from the model's choice alone:
the host writes its lengths modulo 2^32 (notes/assumptions/13.md). -/
def Obligations.ExtractReturnsEmbeddedMessage : Prop :=
  ∀ (sf seed strength : Word) (validText : List Byte → Bool) (message : List Byte) (carrier stego : List Word)
    (latency : Nat → Instr → Nat) (latency' : Instr → Nat) (s s' t : State),
    s.rstN = true → s.status.busy = false → s'.rstN = true → s'.status.busy = false → s'.params = s.params →
    hostEmbed sf seed strength validText message [carrier] latency s = .next (.ok [stego], t) →
    ∃ u, hostExtract sf seed validText stego latency' s' = .next (.ok message, u)
end

