-- ==== Sys2Proof/Laws/Memory.lean ====
section
/-! SUPPORT. The laws of the block memories: what a read sees after each operation, that every operation keeps the canonical
form and the range, and that memories in canonical form are equal when their reads are. -/

namespace Sys2Proof.Machine

variable {w : Nat}

@[simp] theorem Memory.read_nil (i : Nat) : Memory.read ([] : Memory w) i = none := rfl

theorem Memory.read_cons (c : Nat × BitVec w) (m : Memory w) (i : Nat) :
    Memory.read (c :: m) i = if c.1 = i then some c.2 else Memory.read m i := rfl

/-! Writing one cell. -/

@[simp] theorem Memory.read_write_same (i : Nat) (v : BitVec w) (m : Memory w) : (m.write i v).read i = some v := by
  induction m with
  | nil => simp [Memory.write, Memory.read]
  | cons c m ih =>
    unfold Memory.write
    split
    · rename_i h
      rw [Memory.read_cons, if_neg (by omega), ih]
    · split <;> simp [Memory.read_cons]

theorem Memory.read_write_other {i j : Nat} (v : BitVec w) (m : Memory w) (h : j ≠ i) :
    (m.write i v).read j = m.read j := by
  induction m with
  | nil => simp [Memory.write, Memory.read_cons, Ne.symm h]
  | cons c m ih =>
    unfold Memory.write
    split
    · simp [Memory.read_cons, ih]
    · split
      · rename_i h2
        simp [Memory.read_cons, Ne.symm h, h2]
      · simp [Memory.read_cons, Ne.symm h]

theorem Memory.mem_write {c : Nat × BitVec w} {i : Nat} {v : BitVec w} {m : Memory w} (h : c ∈ m.write i v) :
    c = (i, v) ∨ c ∈ m := by
  induction m with
  | nil => simpa [Memory.write] using h
  | cons d m ih =>
    unfold Memory.write at h
    split at h
    · rcases List.mem_cons.1 h with h | h
      · exact .inr (List.mem_cons.2 (.inl h))
      · exact (ih h).imp_right (List.mem_cons_of_mem d)
    · split at h
      · rcases List.mem_cons.1 h with h | h
        · exact .inl h
        · exact .inr (List.mem_cons_of_mem d h)
      · rcases List.mem_cons.1 h with h | h
        · exact .inl h
        · exact .inr h

theorem Memory.wf_write {m : Memory w} (i : Nat) (v : BitVec w) (h : m.wf) : (m.write i v).wf := by
  induction m with
  | nil => simp [Memory.write, Memory.wf]
  | cons c m ih =>
    obtain ⟨h1, h2⟩ := List.pairwise_cons.1 h
    unfold Memory.write
    split
    · rename_i hc
      refine List.pairwise_cons.2 ⟨fun d hd => ?_, ih h2⟩
      rcases Memory.mem_write hd with rfl | hd
      · exact hc
      · exact h1 d hd
    · split
      · rename_i _ hc
        exact List.pairwise_cons.2 ⟨fun d hd => by have := h1 d hd; simp only [← hc]; exact this, h2⟩
      · rename_i h3 h4
        have hlt : i < c.1 := by omega
        refine List.pairwise_cons.2 ⟨fun d hd => ?_, h⟩
        rcases List.mem_cons.1 hd with rfl | hd
        · exact hlt
        · exact Nat.lt_trans hlt (h1 d hd)

theorem Memory.within_write {m : Memory w} {n i : Nat} (v : BitVec w) (h : m.within n) (hi : i < n) :
    (m.write i v).within n := by
  intro c hc
  rcases Memory.mem_write hc with rfl | hc
  · exact hi
  · exact h c hc

/-! Taking values away. -/

theorem Memory.read_invalidate (n : Nat) (m : Memory w) (i : Nat) :
    (m.invalidate n).read i = if i < n then none else m.read i := by
  induction m with
  | nil => simp [Memory.invalidate]
  | cons c m ih =>
    unfold Memory.invalidate at ih ⊢
    rw [List.filter_cons]
    by_cases hc : n ≤ c.1
    · simp only [hc, decide_true, if_true, Memory.read_cons, ih]
      by_cases hi : i < n
      · simp [hi, show c.1 ≠ i by omega]
      · simp [hi]
    · simp only [hc, decide_false, Bool.false_eq_true, if_false, ih, Memory.read_cons]
      by_cases hi : i < n
      · simp [hi]
      · simp [hi, show c.1 ≠ i by omega]

@[simp] theorem Memory.invalidate_zero (m : Memory w) : m.invalidate 0 = m := by simp [Memory.invalidate]

theorem Memory.wf_invalidate {m : Memory w} (n : Nat) (h : m.wf) : (m.invalidate n).wf := List.Pairwise.filter _ h

theorem Memory.within_invalidate {m : Memory w} {k : Nat} (n : Nat) (h : m.within k) : (m.invalidate n).within k :=
  fun c hc => h c (List.mem_filter.1 hc).1

theorem Memory.le_of_mem_invalidate {m : Memory w} {n : Nat} {c : Nat × BitVec w} (h : c ∈ m.invalidate n) : n ≤ c.1 := by
  simpa using (List.mem_filter.1 h).2

/-! Writing a run. -/

theorem Memory.mem_cellsFrom {vs : List (BitVec w)} {k : Nat} {c : Nat × BitVec w} (h : c ∈ Memory.cellsFrom k vs) :
    k ≤ c.1 ∧ c.1 < k + vs.length := by
  induction vs generalizing k with
  | nil => simp [Memory.cellsFrom] at h
  | cons v vs ih =>
    rcases List.mem_cons.1 h with rfl | h
    · simp
    · have := ih h
      simp only [List.length_cons]
      omega

theorem Memory.wf_cellsFrom (k : Nat) (vs : List (BitVec w)) : (Memory.cellsFrom k vs).wf := by
  induction vs generalizing k with
  | nil => exact List.Pairwise.nil
  | cons v vs ih => exact List.pairwise_cons.2 ⟨fun c hc => (Memory.mem_cellsFrom hc).1, ih (k + 1)⟩

theorem Memory.read_cellsFrom_append (k : Nat) (vs : List (BitVec w)) (m : Memory w) (i : Nat) :
    Memory.read (Memory.cellsFrom k vs ++ m) i = if k ≤ i ∧ i < k + vs.length then vs[i - k]? else m.read i := by
  induction vs generalizing k with
  | nil => simp [Memory.cellsFrom]
  | cons v vs ih =>
    simp only [Memory.cellsFrom, List.cons_append, Memory.read_cons, ih, List.length_cons]
    by_cases hk : k = i
    · subst hk; simp
    · by_cases h1 : k + 1 ≤ i ∧ i < k + 1 + vs.length
      · rw [if_neg hk, if_pos h1, if_pos (by omega), show i - k = (i - (k + 1)) + 1 by omega, List.getElem?_cons_succ]
      · rw [if_neg hk, if_neg h1, if_neg (by omega)]

/-- After a run is written: the run's values below its length, the old cells above. -/
theorem Memory.read_fill (vs : List (BitVec w)) (m : Memory w) (i : Nat) :
    (m.fill vs).read i = if i < vs.length then vs[i]? else m.read i := by
  simp only [Memory.fill, Memory.read_cellsFrom_append, Nat.zero_le, true_and, Nat.zero_add, Nat.sub_zero,
    Memory.read_invalidate]
  split <;> simp_all

theorem Memory.read_fill_below {vs : List (BitVec w)} {i : Nat} (m : Memory w) (h : i < vs.length) :
    (m.fill vs).read i = some vs[i] := by rw [Memory.read_fill, if_pos h, List.getElem?_eq_getElem h]

theorem Memory.read_fill_above {vs : List (BitVec w)} {i : Nat} (m : Memory w) (h : vs.length ≤ i) :
    (m.fill vs).read i = m.read i := by rw [Memory.read_fill, if_neg (by omega)]

@[simp] theorem Memory.fill_nil (m : Memory w) : m.fill [] = m := by simp [Memory.fill, Memory.cellsFrom]

theorem Memory.wf_fill {m : Memory w} (vs : List (BitVec w)) (h : m.wf) : (m.fill vs).wf := by
  refine List.pairwise_append.2 ⟨Memory.wf_cellsFrom 0 vs, Memory.wf_invalidate _ h, fun a ha b hb => ?_⟩
  have h1 := (Memory.mem_cellsFrom ha).2
  have h2 := Memory.le_of_mem_invalidate hb
  omega

theorem Memory.within_fill {m : Memory w} {n : Nat} {vs : List (BitVec w)} (h : m.within n) (hv : vs.length ≤ n) :
    (m.fill vs).within n := by
  intro c hc
  rcases List.mem_append.1 hc with hc | hc
  · have := (Memory.mem_cellsFrom hc).2
    omega
  · exact Memory.within_invalidate _ h c hc

/-! Reading a run. -/

theorem Memory.readFrom_eq_some_iff {m : Memory w} {k n : Nat} {vs : List (BitVec w)} :
    m.readFrom k n = some vs ↔ vs.length = n ∧ ∀ i, i < n → m.read (k + i) = vs[i]? := by
  induction n generalizing k vs with
  | zero => simp [Memory.readFrom, eq_comm]
  | succ n ih =>
    constructor
    · intro h
      unfold Memory.readFrom at h
      split at h
      · rename_i v us h1 h2
        cases h
        obtain ⟨h3, h4⟩ := ih.1 h2
        refine ⟨by simp [h3], fun i hi => ?_⟩
        cases i with
        | zero => simpa using h1
        | succ i => simpa [Nat.add_assoc, Nat.add_comm 1 i] using h4 i (by omega)
      · cases h
    · rintro ⟨h1, h2⟩
      cases vs with
      | nil => simp at h1
      | cons v vs =>
        have h3 : m.read k = some v := by simpa using h2 0 (by omega)
        have h4 : m.readFrom (k + 1) n = some vs :=
          ih.2 ⟨by simpa using h1, fun i hi => by
            simpa [Nat.add_assoc, Nat.add_comm 1 i] using h2 (i + 1) (by omega)⟩
        simp [Memory.readFrom, h3, h4]

/-- A run reads as a list exactly when it is the list of its cells. -/
theorem Memory.readRun_eq_some_iff {m : Memory w} {n : Nat} {vs : List (BitVec w)} :
    m.readRun n = some vs ↔ vs.length = n ∧ ∀ i, i < n → m.read i = vs[i]? := by
  simp [Memory.readRun, Memory.readFrom_eq_some_iff]

theorem Memory.readRun_length {m : Memory w} {n : Nat} {vs : List (BitVec w)} (h : m.readRun n = some vs) :
    vs.length = n := (Memory.readRun_eq_some_iff.1 h).1

theorem Memory.readFrom_eq_none_iff {m : Memory w} {k n : Nat} :
    m.readFrom k n = none ↔ ∃ i, i < n ∧ m.read (k + i) = none := by
  induction n generalizing k with
  | zero => simp [Memory.readFrom]
  | succ n ih =>
    unfold Memory.readFrom
    cases h1 : m.read k with
    | none => exact ⟨fun _ => ⟨0, by omega, by simpa using h1⟩, fun _ => rfl⟩
    | some v =>
      cases h2 : m.readFrom (k + 1) n with
      | none =>
        obtain ⟨i, hi, h3⟩ := ih.1 h2
        exact ⟨fun _ => ⟨i + 1, by omega, by simpa [Nat.add_assoc, Nat.add_comm 1 i] using h3⟩, fun _ => rfl⟩
      | some vs =>
        refine ⟨fun h => (by simp at h), ?_⟩
        rintro ⟨i, hi, h3⟩
        exfalso
        cases i with
        | zero => simp [h1] at h3
        | succ i =>
          have : m.readFrom (k + 1) n = none :=
            ih.2 ⟨i, by omega, by simpa [Nat.add_assoc, Nat.add_comm 1 i] using h3⟩
          simp [h2] at this

/-- A run does not read exactly when one of its cells holds no value. -/
theorem Memory.readRun_eq_none_iff {m : Memory w} {n : Nat} :
    m.readRun n = none ↔ ∃ i, i < n ∧ m.read i = none := by simp [Memory.readRun, Memory.readFrom_eq_none_iff]

theorem Memory.exists_readRun {m : Memory w} {n : Nat} (h : ∀ i, i < n → m.read i ≠ none) :
    ∃ vs, m.readRun n = some vs := by
  cases hr : m.readRun n with
  | some vs => exact ⟨vs, rfl⟩
  | none =>
    obtain ⟨i, hi, h2⟩ := Memory.readRun_eq_none_iff.1 hr
    exact absurd h2 (h i hi)

/-! The canonical form. -/

theorem Memory.read_eq_none_of_below {m : Memory w} {i : Nat} (h : ∀ c ∈ m, i < c.1) : m.read i = none := by
  induction m with
  | nil => rfl
  | cons c m ih =>
    have := h c (List.mem_cons_self ..)
    rw [Memory.read_cons, if_neg (by omega), ih fun d hd => h d (List.mem_cons_of_mem _ hd)]

theorem Memory.read_eq_none_of_within {m : Memory w} {n i : Nat} (h : m.within n) (hi : n ≤ i) : m.read i = none := by
  induction m with
  | nil => rfl
  | cons c m ih =>
    have := h c (List.mem_cons_self ..)
    rw [Memory.read_cons, if_neg (by omega), ih fun d hd => h d (List.mem_cons_of_mem _ hd)]

/-- Memories in canonical form whose reads agree are equal. -/
theorem Memory.ext_of_wf {m m' : Memory w} (h : m.wf) (h' : m'.wf) (hr : ∀ i, m.read i = m'.read i) : m = m' := by
  induction m generalizing m' with
  | nil =>
    cases m' with
    | nil => rfl
    | cons c' m' => simpa [Memory.read_cons] using hr c'.1
  | cons c m ih =>
    obtain ⟨h1, h2⟩ := List.pairwise_cons.1 h
    cases m' with
    | nil => simpa [Memory.read_cons] using hr c.1
    | cons c' m' =>
      obtain ⟨h1', h2'⟩ := List.pairwise_cons.1 h'
      have hc : c.1 = c'.1 := by
        rcases Nat.lt_trichotomy c.1 c'.1 with hlt | heq | hgt
        · have hn : Memory.read (c' :: m') c.1 = none := Memory.read_eq_none_of_below fun d hd => by
            rcases List.mem_cons.1 hd with rfl | hd
            · exact hlt
            · exact Nat.lt_trans hlt (h1' d hd)
          have := hr c.1
          rw [hn] at this
          simp [Memory.read_cons] at this
        · exact heq
        · have hn : Memory.read (c :: m) c'.1 = none := Memory.read_eq_none_of_below fun d hd => by
            rcases List.mem_cons.1 hd with rfl | hd
            · exact hgt
            · exact Nat.lt_trans hgt (h1 d hd)
          have := hr c'.1
          rw [hn] at this
          simp [Memory.read_cons] at this
      have hv : c.2 = c'.2 := by
        have := hr c.1
        simpa [Memory.read_cons, hc] using this
      have hm : m = m' := by
        refine ih h2 h2' fun i => ?_
        by_cases hi : c.1 = i
        · subst hi
          rw [Memory.read_eq_none_of_below fun d hd => h1 d hd,
            Memory.read_eq_none_of_below fun d hd => hc ▸ h1' d hd]
        · have := hr i
          rwa [Memory.read_cons, Memory.read_cons, if_neg hi, if_neg (hc ▸ hi)] at this
      rw [Prod.ext hc hv, hm]

end Sys2Proof.Machine
end

