-- ==== Sys2Proof/Laws/State.lean ====
section
/-! SUPPORT. One lemma per field per named update of State: what the update leaves in the field. -/

namespace Sys2Proof.Machine

/-! `State.setRdata`. -/

@[simp] theorem State.setRdata_params (v : Word) (s : State) : (s.setRdata v).params = s.params := rfl
@[simp] theorem State.setRdata_ie (v : Word) (s : State) : (s.setRdata v).ie = s.ie := rfl
@[simp] theorem State.setRdata_status (v : Word) (s : State) : (s.setRdata v).status = s.status := rfl
@[simp] theorem State.setRdata_seed (v : Word) (s : State) : (s.setRdata v).seed = s.seed := rfl
@[simp] theorem State.setRdata_sf (v : Word) (s : State) : (s.setRdata v).sf = s.sf := rfl
@[simp] theorem State.setRdata_nsym (v : Word) (s : State) : (s.setRdata v).nsym = s.nsym := rfl
@[simp] theorem State.setRdata_mlen (v : Word) (s : State) : (s.setRdata v).mlen = s.mlen := rfl
@[simp] theorem State.setRdata_slen (v : Word) (s : State) : (s.setRdata v).slen = s.slen := rfl
@[simp] theorem State.setRdata_strength (v : Word) (s : State) : (s.setRdata v).strength = s.strength := rfl
@[simp] theorem State.setRdata_corr (v : Word) (s : State) : (s.setRdata v).corr = s.corr := rfl
@[simp] theorem State.setRdata_pnPtr (v : Word) (s : State) : (s.setRdata v).pnPtr = s.pnPtr := rfl
@[simp] theorem State.setRdata_symPtr (v : Word) (s : State) : (s.setRdata v).symPtr = s.symPtr := rfl
@[simp] theorem State.setRdata_msgPtr (v : Word) (s : State) : (s.setRdata v).msgPtr = s.msgPtr := rfl
@[simp] theorem State.setRdata_smpPtr (v : Word) (s : State) : (s.setRdata v).smpPtr = s.smpPtr := rfl
@[simp] theorem State.setRdata_pn (v : Word) (s : State) : (s.setRdata v).pn = s.pn := rfl
@[simp] theorem State.setRdata_sym (v : Word) (s : State) : (s.setRdata v).sym = s.sym := rfl
@[simp] theorem State.setRdata_msg (v : Word) (s : State) : (s.setRdata v).msg = s.msg := rfl
@[simp] theorem State.setRdata_smp (v : Word) (s : State) : (s.setRdata v).smp = s.smp := rfl
@[simp] theorem State.setRdata_pending (v : Word) (s : State) : (s.setRdata v).pending = s.pending := rfl
@[simp] theorem State.setRdata_faultMark (v : Word) (s : State) : (s.setRdata v).faultMark = s.faultMark := rfl
@[simp] theorem State.setRdata_rstN (v : Word) (s : State) : (s.setRdata v).rstN = s.rstN := rfl
@[simp] theorem State.setRdata_rdata (v : Word) (s : State) : (s.setRdata v).rdata = v := rfl
@[simp] theorem State.setRdata_inputs (v : Word) (s : State) : (s.setRdata v).inputs = s.inputs := rfl
@[simp] theorem State.setRdata_draws (v : Word) (s : State) : (s.setRdata v).draws = s.draws := rfl

/-! `State.setHerr`. -/

@[simp] theorem State.setHerr_params (s : State) : (s.setHerr).params = s.params := rfl
@[simp] theorem State.setHerr_ie (s : State) : (s.setHerr).ie = s.ie := rfl
@[simp] theorem State.setHerr_status (s : State) : (s.setHerr).status = { s.status with herr := true } := rfl
@[simp] theorem State.setHerr_seed (s : State) : (s.setHerr).seed = s.seed := rfl
@[simp] theorem State.setHerr_sf (s : State) : (s.setHerr).sf = s.sf := rfl
@[simp] theorem State.setHerr_nsym (s : State) : (s.setHerr).nsym = s.nsym := rfl
@[simp] theorem State.setHerr_mlen (s : State) : (s.setHerr).mlen = s.mlen := rfl
@[simp] theorem State.setHerr_slen (s : State) : (s.setHerr).slen = s.slen := rfl
@[simp] theorem State.setHerr_strength (s : State) : (s.setHerr).strength = s.strength := rfl
@[simp] theorem State.setHerr_corr (s : State) : (s.setHerr).corr = s.corr := rfl
@[simp] theorem State.setHerr_pnPtr (s : State) : (s.setHerr).pnPtr = s.pnPtr := rfl
@[simp] theorem State.setHerr_symPtr (s : State) : (s.setHerr).symPtr = s.symPtr := rfl
@[simp] theorem State.setHerr_msgPtr (s : State) : (s.setHerr).msgPtr = s.msgPtr := rfl
@[simp] theorem State.setHerr_smpPtr (s : State) : (s.setHerr).smpPtr = s.smpPtr := rfl
@[simp] theorem State.setHerr_pn (s : State) : (s.setHerr).pn = s.pn := rfl
@[simp] theorem State.setHerr_sym (s : State) : (s.setHerr).sym = s.sym := rfl
@[simp] theorem State.setHerr_msg (s : State) : (s.setHerr).msg = s.msg := rfl
@[simp] theorem State.setHerr_smp (s : State) : (s.setHerr).smp = s.smp := rfl
@[simp] theorem State.setHerr_pending (s : State) : (s.setHerr).pending = s.pending := rfl
@[simp] theorem State.setHerr_faultMark (s : State) : (s.setHerr).faultMark = s.faultMark := rfl
@[simp] theorem State.setHerr_rstN (s : State) : (s.setHerr).rstN = s.rstN := rfl
@[simp] theorem State.setHerr_rdata (s : State) : (s.setHerr).rdata = s.rdata := rfl
@[simp] theorem State.setHerr_inputs (s : State) : (s.setHerr).inputs = s.inputs := rfl
@[simp] theorem State.setHerr_draws (s : State) : (s.setHerr).draws = s.draws := rfl

/-! `State.clearStatus`. -/

@[simp] theorem State.clearStatus_params (w : Word) (s : State) : (s.clearStatus w).params = s.params := rfl
@[simp] theorem State.clearStatus_ie (w : Word) (s : State) : (s.clearStatus w).ie = s.ie := rfl
@[simp] theorem State.clearStatus_status (w : Word) (s : State) : (s.clearStatus w).status = s.status.clearedBy w := rfl
@[simp] theorem State.clearStatus_seed (w : Word) (s : State) : (s.clearStatus w).seed = s.seed := rfl
@[simp] theorem State.clearStatus_sf (w : Word) (s : State) : (s.clearStatus w).sf = s.sf := rfl
@[simp] theorem State.clearStatus_nsym (w : Word) (s : State) : (s.clearStatus w).nsym = s.nsym := rfl
@[simp] theorem State.clearStatus_mlen (w : Word) (s : State) : (s.clearStatus w).mlen = s.mlen := rfl
@[simp] theorem State.clearStatus_slen (w : Word) (s : State) : (s.clearStatus w).slen = s.slen := rfl
@[simp] theorem State.clearStatus_strength (w : Word) (s : State) : (s.clearStatus w).strength = s.strength := rfl
@[simp] theorem State.clearStatus_corr (w : Word) (s : State) : (s.clearStatus w).corr = s.corr := rfl
@[simp] theorem State.clearStatus_pnPtr (w : Word) (s : State) : (s.clearStatus w).pnPtr = s.pnPtr := rfl
@[simp] theorem State.clearStatus_symPtr (w : Word) (s : State) : (s.clearStatus w).symPtr = s.symPtr := rfl
@[simp] theorem State.clearStatus_msgPtr (w : Word) (s : State) : (s.clearStatus w).msgPtr = s.msgPtr := rfl
@[simp] theorem State.clearStatus_smpPtr (w : Word) (s : State) : (s.clearStatus w).smpPtr = s.smpPtr := rfl
@[simp] theorem State.clearStatus_pn (w : Word) (s : State) : (s.clearStatus w).pn = s.pn := rfl
@[simp] theorem State.clearStatus_sym (w : Word) (s : State) : (s.clearStatus w).sym = s.sym := rfl
@[simp] theorem State.clearStatus_msg (w : Word) (s : State) : (s.clearStatus w).msg = s.msg := rfl
@[simp] theorem State.clearStatus_smp (w : Word) (s : State) : (s.clearStatus w).smp = s.smp := rfl
@[simp] theorem State.clearStatus_pending (w : Word) (s : State) : (s.clearStatus w).pending = s.pending := rfl
@[simp] theorem State.clearStatus_faultMark (w : Word) (s : State) : (s.clearStatus w).faultMark = s.faultMark := rfl
@[simp] theorem State.clearStatus_rstN (w : Word) (s : State) : (s.clearStatus w).rstN = s.rstN := rfl
@[simp] theorem State.clearStatus_rdata (w : Word) (s : State) : (s.clearStatus w).rdata = s.rdata := rfl
@[simp] theorem State.clearStatus_inputs (w : Word) (s : State) : (s.clearStatus w).inputs = s.inputs := rfl
@[simp] theorem State.clearStatus_draws (w : Word) (s : State) : (s.clearStatus w).draws = s.draws := rfl

/-! `State.issue`. -/

@[simp] theorem State.issue_params (w : Word) (s : State) : (s.issue w).params = s.params := rfl
@[simp] theorem State.issue_ie (w : Word) (s : State) : (s.issue w).ie = s.ie := rfl
@[simp] theorem State.issue_status (w : Word) (s : State) : (s.issue w).status = s.status.issued := rfl
@[simp] theorem State.issue_seed (w : Word) (s : State) : (s.issue w).seed = s.seed := rfl
@[simp] theorem State.issue_sf (w : Word) (s : State) : (s.issue w).sf = s.sf := rfl
@[simp] theorem State.issue_nsym (w : Word) (s : State) : (s.issue w).nsym = s.nsym := rfl
@[simp] theorem State.issue_mlen (w : Word) (s : State) : (s.issue w).mlen = s.mlen := rfl
@[simp] theorem State.issue_slen (w : Word) (s : State) : (s.issue w).slen = s.slen := rfl
@[simp] theorem State.issue_strength (w : Word) (s : State) : (s.issue w).strength = s.strength := rfl
@[simp] theorem State.issue_corr (w : Word) (s : State) : (s.issue w).corr = s.corr := rfl
@[simp] theorem State.issue_pnPtr (w : Word) (s : State) : (s.issue w).pnPtr = s.pnPtr := rfl
@[simp] theorem State.issue_symPtr (w : Word) (s : State) : (s.issue w).symPtr = s.symPtr := rfl
@[simp] theorem State.issue_msgPtr (w : Word) (s : State) : (s.issue w).msgPtr = s.msgPtr := rfl
@[simp] theorem State.issue_smpPtr (w : Word) (s : State) : (s.issue w).smpPtr = s.smpPtr := rfl
@[simp] theorem State.issue_pn (w : Word) (s : State) : (s.issue w).pn = s.pn := rfl
@[simp] theorem State.issue_sym (w : Word) (s : State) : (s.issue w).sym = s.sym := rfl
@[simp] theorem State.issue_msg (w : Word) (s : State) : (s.issue w).msg = s.msg := rfl
@[simp] theorem State.issue_smp (w : Word) (s : State) : (s.issue w).smp = s.smp := rfl
@[simp] theorem State.issue_pending (w : Word) (s : State) : (s.issue w).pending = some w := rfl
@[simp] theorem State.issue_faultMark (w : Word) (s : State) : (s.issue w).faultMark = s.faultMark := rfl
@[simp] theorem State.issue_rstN (w : Word) (s : State) : (s.issue w).rstN = s.rstN := rfl
@[simp] theorem State.issue_rdata (w : Word) (s : State) : (s.issue w).rdata = s.rdata := rfl
@[simp] theorem State.issue_inputs (w : Word) (s : State) : (s.issue w).inputs = s.inputs := rfl
@[simp] theorem State.issue_draws (w : Word) (s : State) : (s.issue w).draws = s.draws := rfl

/-! `State.completeOk`. -/

@[simp] theorem State.completeOk_params (s : State) : (s.completeOk).params = s.params := rfl
@[simp] theorem State.completeOk_ie (s : State) : (s.completeOk).ie = s.ie := rfl
@[simp] theorem State.completeOk_status (s : State) : (s.completeOk).status = s.status.completedOk := rfl
@[simp] theorem State.completeOk_seed (s : State) : (s.completeOk).seed = s.seed := rfl
@[simp] theorem State.completeOk_sf (s : State) : (s.completeOk).sf = s.sf := rfl
@[simp] theorem State.completeOk_nsym (s : State) : (s.completeOk).nsym = s.nsym := rfl
@[simp] theorem State.completeOk_mlen (s : State) : (s.completeOk).mlen = s.mlen := rfl
@[simp] theorem State.completeOk_slen (s : State) : (s.completeOk).slen = s.slen := rfl
@[simp] theorem State.completeOk_strength (s : State) : (s.completeOk).strength = s.strength := rfl
@[simp] theorem State.completeOk_corr (s : State) : (s.completeOk).corr = s.corr := rfl
@[simp] theorem State.completeOk_pnPtr (s : State) : (s.completeOk).pnPtr = s.pnPtr := rfl
@[simp] theorem State.completeOk_symPtr (s : State) : (s.completeOk).symPtr = s.symPtr := rfl
@[simp] theorem State.completeOk_msgPtr (s : State) : (s.completeOk).msgPtr = s.msgPtr := rfl
@[simp] theorem State.completeOk_smpPtr (s : State) : (s.completeOk).smpPtr = s.smpPtr := rfl
@[simp] theorem State.completeOk_pn (s : State) : (s.completeOk).pn = s.pn := rfl
@[simp] theorem State.completeOk_sym (s : State) : (s.completeOk).sym = s.sym := rfl
@[simp] theorem State.completeOk_msg (s : State) : (s.completeOk).msg = s.msg := rfl
@[simp] theorem State.completeOk_smp (s : State) : (s.completeOk).smp = s.smp := rfl
@[simp] theorem State.completeOk_pending (s : State) : (s.completeOk).pending = none := rfl
@[simp] theorem State.completeOk_faultMark (s : State) : (s.completeOk).faultMark = s.faultMark := rfl
@[simp] theorem State.completeOk_rstN (s : State) : (s.completeOk).rstN = s.rstN := rfl
@[simp] theorem State.completeOk_rdata (s : State) : (s.completeOk).rdata = s.rdata := rfl
@[simp] theorem State.completeOk_inputs (s : State) : (s.completeOk).inputs = s.inputs := rfl
@[simp] theorem State.completeOk_draws (s : State) : (s.completeOk).draws = s.draws := rfl

/-! `State.completeError`. -/

@[simp] theorem State.completeError_params (c : ErrCode) (s : State) : (s.completeError c).params = s.params := rfl
@[simp] theorem State.completeError_ie (c : ErrCode) (s : State) : (s.completeError c).ie = s.ie := rfl
@[simp] theorem State.completeError_status (c : ErrCode) (s : State) : (s.completeError c).status = s.status.completedError c := rfl
@[simp] theorem State.completeError_seed (c : ErrCode) (s : State) : (s.completeError c).seed = s.seed := rfl
@[simp] theorem State.completeError_sf (c : ErrCode) (s : State) : (s.completeError c).sf = s.sf := rfl
@[simp] theorem State.completeError_nsym (c : ErrCode) (s : State) : (s.completeError c).nsym = s.nsym := rfl
@[simp] theorem State.completeError_mlen (c : ErrCode) (s : State) : (s.completeError c).mlen = s.mlen := rfl
@[simp] theorem State.completeError_slen (c : ErrCode) (s : State) : (s.completeError c).slen = s.slen := rfl
@[simp] theorem State.completeError_strength (c : ErrCode) (s : State) : (s.completeError c).strength = s.strength := rfl
@[simp] theorem State.completeError_corr (c : ErrCode) (s : State) : (s.completeError c).corr = s.corr := rfl
@[simp] theorem State.completeError_pnPtr (c : ErrCode) (s : State) : (s.completeError c).pnPtr = s.pnPtr := rfl
@[simp] theorem State.completeError_symPtr (c : ErrCode) (s : State) : (s.completeError c).symPtr = s.symPtr := rfl
@[simp] theorem State.completeError_msgPtr (c : ErrCode) (s : State) : (s.completeError c).msgPtr = s.msgPtr := rfl
@[simp] theorem State.completeError_smpPtr (c : ErrCode) (s : State) : (s.completeError c).smpPtr = s.smpPtr := rfl
@[simp] theorem State.completeError_pn (c : ErrCode) (s : State) : (s.completeError c).pn = s.pn := rfl
@[simp] theorem State.completeError_sym (c : ErrCode) (s : State) : (s.completeError c).sym = s.sym := rfl
@[simp] theorem State.completeError_msg (c : ErrCode) (s : State) : (s.completeError c).msg = s.msg := rfl
@[simp] theorem State.completeError_smp (c : ErrCode) (s : State) : (s.completeError c).smp = s.smp := rfl
@[simp] theorem State.completeError_pending (c : ErrCode) (s : State) : (s.completeError c).pending = none := rfl
@[simp] theorem State.completeError_faultMark (c : ErrCode) (s : State) : (s.completeError c).faultMark = s.faultMark := rfl
@[simp] theorem State.completeError_rstN (c : ErrCode) (s : State) : (s.completeError c).rstN = s.rstN := rfl
@[simp] theorem State.completeError_rdata (c : ErrCode) (s : State) : (s.completeError c).rdata = s.rdata := rfl
@[simp] theorem State.completeError_inputs (c : ErrCode) (s : State) : (s.completeError c).inputs = s.inputs := rfl
@[simp] theorem State.completeError_draws (c : ErrCode) (s : State) : (s.completeError c).draws = s.draws := rfl

/-! `State.storePn`. -/

@[simp] theorem State.storePn_params (b : List PolBit) (s : State) : (s.storePn b).params = s.params := rfl
@[simp] theorem State.storePn_ie (b : List PolBit) (s : State) : (s.storePn b).ie = s.ie := rfl
@[simp] theorem State.storePn_status (b : List PolBit) (s : State) : (s.storePn b).status = s.status := rfl
@[simp] theorem State.storePn_seed (b : List PolBit) (s : State) : (s.storePn b).seed = s.seed := rfl
@[simp] theorem State.storePn_sf (b : List PolBit) (s : State) : (s.storePn b).sf = s.sf := rfl
@[simp] theorem State.storePn_nsym (b : List PolBit) (s : State) : (s.storePn b).nsym = s.nsym := rfl
@[simp] theorem State.storePn_mlen (b : List PolBit) (s : State) : (s.storePn b).mlen = s.mlen := rfl
@[simp] theorem State.storePn_slen (b : List PolBit) (s : State) : (s.storePn b).slen = s.slen := rfl
@[simp] theorem State.storePn_strength (b : List PolBit) (s : State) : (s.storePn b).strength = s.strength := rfl
@[simp] theorem State.storePn_corr (b : List PolBit) (s : State) : (s.storePn b).corr = s.corr := rfl
@[simp] theorem State.storePn_pnPtr (b : List PolBit) (s : State) : (s.storePn b).pnPtr = s.pnPtr := rfl
@[simp] theorem State.storePn_symPtr (b : List PolBit) (s : State) : (s.storePn b).symPtr = s.symPtr := rfl
@[simp] theorem State.storePn_msgPtr (b : List PolBit) (s : State) : (s.storePn b).msgPtr = s.msgPtr := rfl
@[simp] theorem State.storePn_smpPtr (b : List PolBit) (s : State) : (s.storePn b).smpPtr = s.smpPtr := rfl
@[simp] theorem State.storePn_pn (b : List PolBit) (s : State) : (s.storePn b).pn = s.pn.fill b := rfl
@[simp] theorem State.storePn_sym (b : List PolBit) (s : State) : (s.storePn b).sym = s.sym := rfl
@[simp] theorem State.storePn_msg (b : List PolBit) (s : State) : (s.storePn b).msg = s.msg := rfl
@[simp] theorem State.storePn_smp (b : List PolBit) (s : State) : (s.storePn b).smp = s.smp := rfl
@[simp] theorem State.storePn_pending (b : List PolBit) (s : State) : (s.storePn b).pending = s.pending := rfl
@[simp] theorem State.storePn_faultMark (b : List PolBit) (s : State) : (s.storePn b).faultMark = s.faultMark := rfl
@[simp] theorem State.storePn_rstN (b : List PolBit) (s : State) : (s.storePn b).rstN = s.rstN := rfl
@[simp] theorem State.storePn_rdata (b : List PolBit) (s : State) : (s.storePn b).rdata = s.rdata := rfl
@[simp] theorem State.storePn_inputs (b : List PolBit) (s : State) : (s.storePn b).inputs = s.inputs := rfl
@[simp] theorem State.storePn_draws (b : List PolBit) (s : State) : (s.storePn b).draws = s.draws := rfl

/-! `State.storeSymbols`. -/

@[simp] theorem State.storeSymbols_params (b : List PolBit) (s : State) : (s.storeSymbols b).params = s.params := rfl
@[simp] theorem State.storeSymbols_ie (b : List PolBit) (s : State) : (s.storeSymbols b).ie = s.ie := rfl
@[simp] theorem State.storeSymbols_status (b : List PolBit) (s : State) : (s.storeSymbols b).status = s.status := rfl
@[simp] theorem State.storeSymbols_seed (b : List PolBit) (s : State) : (s.storeSymbols b).seed = s.seed := rfl
@[simp] theorem State.storeSymbols_sf (b : List PolBit) (s : State) : (s.storeSymbols b).sf = s.sf := rfl
@[simp] theorem State.storeSymbols_nsym (b : List PolBit) (s : State) : (s.storeSymbols b).nsym = BitVec.ofNat 32 b.length := rfl
@[simp] theorem State.storeSymbols_mlen (b : List PolBit) (s : State) : (s.storeSymbols b).mlen = s.mlen := rfl
@[simp] theorem State.storeSymbols_slen (b : List PolBit) (s : State) : (s.storeSymbols b).slen = s.slen := rfl
@[simp] theorem State.storeSymbols_strength (b : List PolBit) (s : State) : (s.storeSymbols b).strength = s.strength := rfl
@[simp] theorem State.storeSymbols_corr (b : List PolBit) (s : State) : (s.storeSymbols b).corr = s.corr := rfl
@[simp] theorem State.storeSymbols_pnPtr (b : List PolBit) (s : State) : (s.storeSymbols b).pnPtr = s.pnPtr := rfl
@[simp] theorem State.storeSymbols_symPtr (b : List PolBit) (s : State) : (s.storeSymbols b).symPtr = s.symPtr := rfl
@[simp] theorem State.storeSymbols_msgPtr (b : List PolBit) (s : State) : (s.storeSymbols b).msgPtr = s.msgPtr := rfl
@[simp] theorem State.storeSymbols_smpPtr (b : List PolBit) (s : State) : (s.storeSymbols b).smpPtr = s.smpPtr := rfl
@[simp] theorem State.storeSymbols_pn (b : List PolBit) (s : State) : (s.storeSymbols b).pn = s.pn := rfl
@[simp] theorem State.storeSymbols_sym (b : List PolBit) (s : State) : (s.storeSymbols b).sym = s.sym.fill b := rfl
@[simp] theorem State.storeSymbols_msg (b : List PolBit) (s : State) : (s.storeSymbols b).msg = s.msg := rfl
@[simp] theorem State.storeSymbols_smp (b : List PolBit) (s : State) : (s.storeSymbols b).smp = s.smp := rfl
@[simp] theorem State.storeSymbols_pending (b : List PolBit) (s : State) : (s.storeSymbols b).pending = s.pending := rfl
@[simp] theorem State.storeSymbols_faultMark (b : List PolBit) (s : State) : (s.storeSymbols b).faultMark = s.faultMark := rfl
@[simp] theorem State.storeSymbols_rstN (b : List PolBit) (s : State) : (s.storeSymbols b).rstN = s.rstN := rfl
@[simp] theorem State.storeSymbols_rdata (b : List PolBit) (s : State) : (s.storeSymbols b).rdata = s.rdata := rfl
@[simp] theorem State.storeSymbols_inputs (b : List PolBit) (s : State) : (s.storeSymbols b).inputs = s.inputs := rfl
@[simp] theorem State.storeSymbols_draws (b : List PolBit) (s : State) : (s.storeSymbols b).draws = s.draws := rfl

/-! `State.storeMessage`. -/

@[simp] theorem State.storeMessage_params (b : List Byte) (n : Nat) (e : Bool) (s : State) : (s.storeMessage b n e).params = s.params := rfl
@[simp] theorem State.storeMessage_ie (b : List Byte) (n : Nat) (e : Bool) (s : State) : (s.storeMessage b n e).ie = s.ie := rfl
@[simp] theorem State.storeMessage_status (b : List Byte) (n : Nat) (e : Bool) (s : State) : (s.storeMessage b n e).status = { s.status with term := e } := rfl
@[simp] theorem State.storeMessage_seed (b : List Byte) (n : Nat) (e : Bool) (s : State) : (s.storeMessage b n e).seed = s.seed := rfl
@[simp] theorem State.storeMessage_sf (b : List Byte) (n : Nat) (e : Bool) (s : State) : (s.storeMessage b n e).sf = s.sf := rfl
@[simp] theorem State.storeMessage_nsym (b : List Byte) (n : Nat) (e : Bool) (s : State) : (s.storeMessage b n e).nsym = s.nsym := rfl
@[simp] theorem State.storeMessage_mlen (b : List Byte) (n : Nat) (e : Bool) (s : State) : (s.storeMessage b n e).mlen = BitVec.ofNat 32 n := rfl
@[simp] theorem State.storeMessage_slen (b : List Byte) (n : Nat) (e : Bool) (s : State) : (s.storeMessage b n e).slen = s.slen := rfl
@[simp] theorem State.storeMessage_strength (b : List Byte) (n : Nat) (e : Bool) (s : State) : (s.storeMessage b n e).strength = s.strength := rfl
@[simp] theorem State.storeMessage_corr (b : List Byte) (n : Nat) (e : Bool) (s : State) : (s.storeMessage b n e).corr = s.corr := rfl
@[simp] theorem State.storeMessage_pnPtr (b : List Byte) (n : Nat) (e : Bool) (s : State) : (s.storeMessage b n e).pnPtr = s.pnPtr := rfl
@[simp] theorem State.storeMessage_symPtr (b : List Byte) (n : Nat) (e : Bool) (s : State) : (s.storeMessage b n e).symPtr = s.symPtr := rfl
@[simp] theorem State.storeMessage_msgPtr (b : List Byte) (n : Nat) (e : Bool) (s : State) : (s.storeMessage b n e).msgPtr = s.msgPtr := rfl
@[simp] theorem State.storeMessage_smpPtr (b : List Byte) (n : Nat) (e : Bool) (s : State) : (s.storeMessage b n e).smpPtr = s.smpPtr := rfl
@[simp] theorem State.storeMessage_pn (b : List Byte) (n : Nat) (e : Bool) (s : State) : (s.storeMessage b n e).pn = s.pn := rfl
@[simp] theorem State.storeMessage_sym (b : List Byte) (n : Nat) (e : Bool) (s : State) : (s.storeMessage b n e).sym = s.sym := rfl
@[simp] theorem State.storeMessage_msg (b : List Byte) (n : Nat) (e : Bool) (s : State) : (s.storeMessage b n e).msg = s.msg.fill b := rfl
@[simp] theorem State.storeMessage_smp (b : List Byte) (n : Nat) (e : Bool) (s : State) : (s.storeMessage b n e).smp = s.smp := rfl
@[simp] theorem State.storeMessage_pending (b : List Byte) (n : Nat) (e : Bool) (s : State) : (s.storeMessage b n e).pending = s.pending := rfl
@[simp] theorem State.storeMessage_faultMark (b : List Byte) (n : Nat) (e : Bool) (s : State) : (s.storeMessage b n e).faultMark = s.faultMark := rfl
@[simp] theorem State.storeMessage_rstN (b : List Byte) (n : Nat) (e : Bool) (s : State) : (s.storeMessage b n e).rstN = s.rstN := rfl
@[simp] theorem State.storeMessage_rdata (b : List Byte) (n : Nat) (e : Bool) (s : State) : (s.storeMessage b n e).rdata = s.rdata := rfl
@[simp] theorem State.storeMessage_inputs (b : List Byte) (n : Nat) (e : Bool) (s : State) : (s.storeMessage b n e).inputs = s.inputs := rfl
@[simp] theorem State.storeMessage_draws (b : List Byte) (n : Nat) (e : Bool) (s : State) : (s.storeMessage b n e).draws = s.draws := rfl

/-! `State.storeSamples`. -/

@[simp] theorem State.storeSamples_params (v : List Word) (s : State) : (s.storeSamples v).params = s.params := rfl
@[simp] theorem State.storeSamples_ie (v : List Word) (s : State) : (s.storeSamples v).ie = s.ie := rfl
@[simp] theorem State.storeSamples_status (v : List Word) (s : State) : (s.storeSamples v).status = s.status := rfl
@[simp] theorem State.storeSamples_seed (v : List Word) (s : State) : (s.storeSamples v).seed = s.seed := rfl
@[simp] theorem State.storeSamples_sf (v : List Word) (s : State) : (s.storeSamples v).sf = s.sf := rfl
@[simp] theorem State.storeSamples_nsym (v : List Word) (s : State) : (s.storeSamples v).nsym = s.nsym := rfl
@[simp] theorem State.storeSamples_mlen (v : List Word) (s : State) : (s.storeSamples v).mlen = s.mlen := rfl
@[simp] theorem State.storeSamples_slen (v : List Word) (s : State) : (s.storeSamples v).slen = s.slen := rfl
@[simp] theorem State.storeSamples_strength (v : List Word) (s : State) : (s.storeSamples v).strength = s.strength := rfl
@[simp] theorem State.storeSamples_corr (v : List Word) (s : State) : (s.storeSamples v).corr = s.corr := rfl
@[simp] theorem State.storeSamples_pnPtr (v : List Word) (s : State) : (s.storeSamples v).pnPtr = s.pnPtr := rfl
@[simp] theorem State.storeSamples_symPtr (v : List Word) (s : State) : (s.storeSamples v).symPtr = s.symPtr := rfl
@[simp] theorem State.storeSamples_msgPtr (v : List Word) (s : State) : (s.storeSamples v).msgPtr = s.msgPtr := rfl
@[simp] theorem State.storeSamples_smpPtr (v : List Word) (s : State) : (s.storeSamples v).smpPtr = s.smpPtr := rfl
@[simp] theorem State.storeSamples_pn (v : List Word) (s : State) : (s.storeSamples v).pn = s.pn := rfl
@[simp] theorem State.storeSamples_sym (v : List Word) (s : State) : (s.storeSamples v).sym = s.sym := rfl
@[simp] theorem State.storeSamples_msg (v : List Word) (s : State) : (s.storeSamples v).msg = s.msg := rfl
@[simp] theorem State.storeSamples_smp (v : List Word) (s : State) : (s.storeSamples v).smp = s.smp.fill v := rfl
@[simp] theorem State.storeSamples_pending (v : List Word) (s : State) : (s.storeSamples v).pending = s.pending := rfl
@[simp] theorem State.storeSamples_faultMark (v : List Word) (s : State) : (s.storeSamples v).faultMark = s.faultMark := rfl
@[simp] theorem State.storeSamples_rstN (v : List Word) (s : State) : (s.storeSamples v).rstN = s.rstN := rfl
@[simp] theorem State.storeSamples_rdata (v : List Word) (s : State) : (s.storeSamples v).rdata = s.rdata := rfl
@[simp] theorem State.storeSamples_inputs (v : List Word) (s : State) : (s.storeSamples v).inputs = s.inputs := rfl
@[simp] theorem State.storeSamples_draws (v : List Word) (s : State) : (s.storeSamples v).draws = s.draws := rfl

/-! `State.raiseOvf`. -/

@[simp] theorem State.raiseOvf_params (b : Bool) (s : State) : (s.raiseOvf b).params = s.params := rfl
@[simp] theorem State.raiseOvf_ie (b : Bool) (s : State) : (s.raiseOvf b).ie = s.ie := rfl
@[simp] theorem State.raiseOvf_status (b : Bool) (s : State) : (s.raiseOvf b).status = { s.status with ovf := s.status.ovf || b } := rfl
@[simp] theorem State.raiseOvf_seed (b : Bool) (s : State) : (s.raiseOvf b).seed = s.seed := rfl
@[simp] theorem State.raiseOvf_sf (b : Bool) (s : State) : (s.raiseOvf b).sf = s.sf := rfl
@[simp] theorem State.raiseOvf_nsym (b : Bool) (s : State) : (s.raiseOvf b).nsym = s.nsym := rfl
@[simp] theorem State.raiseOvf_mlen (b : Bool) (s : State) : (s.raiseOvf b).mlen = s.mlen := rfl
@[simp] theorem State.raiseOvf_slen (b : Bool) (s : State) : (s.raiseOvf b).slen = s.slen := rfl
@[simp] theorem State.raiseOvf_strength (b : Bool) (s : State) : (s.raiseOvf b).strength = s.strength := rfl
@[simp] theorem State.raiseOvf_corr (b : Bool) (s : State) : (s.raiseOvf b).corr = s.corr := rfl
@[simp] theorem State.raiseOvf_pnPtr (b : Bool) (s : State) : (s.raiseOvf b).pnPtr = s.pnPtr := rfl
@[simp] theorem State.raiseOvf_symPtr (b : Bool) (s : State) : (s.raiseOvf b).symPtr = s.symPtr := rfl
@[simp] theorem State.raiseOvf_msgPtr (b : Bool) (s : State) : (s.raiseOvf b).msgPtr = s.msgPtr := rfl
@[simp] theorem State.raiseOvf_smpPtr (b : Bool) (s : State) : (s.raiseOvf b).smpPtr = s.smpPtr := rfl
@[simp] theorem State.raiseOvf_pn (b : Bool) (s : State) : (s.raiseOvf b).pn = s.pn := rfl
@[simp] theorem State.raiseOvf_sym (b : Bool) (s : State) : (s.raiseOvf b).sym = s.sym := rfl
@[simp] theorem State.raiseOvf_msg (b : Bool) (s : State) : (s.raiseOvf b).msg = s.msg := rfl
@[simp] theorem State.raiseOvf_smp (b : Bool) (s : State) : (s.raiseOvf b).smp = s.smp := rfl
@[simp] theorem State.raiseOvf_pending (b : Bool) (s : State) : (s.raiseOvf b).pending = s.pending := rfl
@[simp] theorem State.raiseOvf_faultMark (b : Bool) (s : State) : (s.raiseOvf b).faultMark = s.faultMark := rfl
@[simp] theorem State.raiseOvf_rstN (b : Bool) (s : State) : (s.raiseOvf b).rstN = s.rstN := rfl
@[simp] theorem State.raiseOvf_rdata (b : Bool) (s : State) : (s.raiseOvf b).rdata = s.rdata := rfl
@[simp] theorem State.raiseOvf_inputs (b : Bool) (s : State) : (s.raiseOvf b).inputs = s.inputs := rfl
@[simp] theorem State.raiseOvf_draws (b : Bool) (s : State) : (s.raiseOvf b).draws = s.draws := rfl

/-! `State.storeCorrelation`. -/

@[simp] theorem State.storeCorrelation_params (z : Int) (b : Bool) (s : State) : (s.storeCorrelation z b).params = s.params := rfl
@[simp] theorem State.storeCorrelation_ie (z : Int) (b : Bool) (s : State) : (s.storeCorrelation z b).ie = s.ie := rfl
@[simp] theorem State.storeCorrelation_status (z : Int) (b : Bool) (s : State) : (s.storeCorrelation z b).status = { s.status with clip := b } := rfl
@[simp] theorem State.storeCorrelation_seed (z : Int) (b : Bool) (s : State) : (s.storeCorrelation z b).seed = s.seed := rfl
@[simp] theorem State.storeCorrelation_sf (z : Int) (b : Bool) (s : State) : (s.storeCorrelation z b).sf = s.sf := rfl
@[simp] theorem State.storeCorrelation_nsym (z : Int) (b : Bool) (s : State) : (s.storeCorrelation z b).nsym = s.nsym := rfl
@[simp] theorem State.storeCorrelation_mlen (z : Int) (b : Bool) (s : State) : (s.storeCorrelation z b).mlen = s.mlen := rfl
@[simp] theorem State.storeCorrelation_slen (z : Int) (b : Bool) (s : State) : (s.storeCorrelation z b).slen = s.slen := rfl
@[simp] theorem State.storeCorrelation_strength (z : Int) (b : Bool) (s : State) : (s.storeCorrelation z b).strength = s.strength := rfl
@[simp] theorem State.storeCorrelation_corr (z : Int) (b : Bool) (s : State) : (s.storeCorrelation z b).corr = wrap64 z := rfl
@[simp] theorem State.storeCorrelation_pnPtr (z : Int) (b : Bool) (s : State) : (s.storeCorrelation z b).pnPtr = s.pnPtr := rfl
@[simp] theorem State.storeCorrelation_symPtr (z : Int) (b : Bool) (s : State) : (s.storeCorrelation z b).symPtr = s.symPtr := rfl
@[simp] theorem State.storeCorrelation_msgPtr (z : Int) (b : Bool) (s : State) : (s.storeCorrelation z b).msgPtr = s.msgPtr := rfl
@[simp] theorem State.storeCorrelation_smpPtr (z : Int) (b : Bool) (s : State) : (s.storeCorrelation z b).smpPtr = s.smpPtr := rfl
@[simp] theorem State.storeCorrelation_pn (z : Int) (b : Bool) (s : State) : (s.storeCorrelation z b).pn = s.pn := rfl
@[simp] theorem State.storeCorrelation_sym (z : Int) (b : Bool) (s : State) : (s.storeCorrelation z b).sym = s.sym := rfl
@[simp] theorem State.storeCorrelation_msg (z : Int) (b : Bool) (s : State) : (s.storeCorrelation z b).msg = s.msg := rfl
@[simp] theorem State.storeCorrelation_smp (z : Int) (b : Bool) (s : State) : (s.storeCorrelation z b).smp = s.smp := rfl
@[simp] theorem State.storeCorrelation_pending (z : Int) (b : Bool) (s : State) : (s.storeCorrelation z b).pending = s.pending := rfl
@[simp] theorem State.storeCorrelation_faultMark (z : Int) (b : Bool) (s : State) : (s.storeCorrelation z b).faultMark = s.faultMark := rfl
@[simp] theorem State.storeCorrelation_rstN (z : Int) (b : Bool) (s : State) : (s.storeCorrelation z b).rstN = s.rstN := rfl
@[simp] theorem State.storeCorrelation_rdata (z : Int) (b : Bool) (s : State) : (s.storeCorrelation z b).rdata = s.rdata := rfl
@[simp] theorem State.storeCorrelation_inputs (z : Int) (b : Bool) (s : State) : (s.storeCorrelation z b).inputs = s.inputs := rfl
@[simp] theorem State.storeCorrelation_draws (z : Int) (b : Bool) (s : State) : (s.storeCorrelation z b).draws = s.draws := rfl

/-! `State.resetRegisters`. -/

@[simp] theorem State.resetRegisters_params (s : State) : (s.resetRegisters).params = s.params := rfl
@[simp] theorem State.resetRegisters_ie (s : State) : (s.resetRegisters).ie = false := rfl
@[simp] theorem State.resetRegisters_status (s : State) : (s.resetRegisters).status = Status.reset := rfl
@[simp] theorem State.resetRegisters_seed (s : State) : (s.resetRegisters).seed = 0#32 := rfl
@[simp] theorem State.resetRegisters_sf (s : State) : (s.resetRegisters).sf = 0#32 := rfl
@[simp] theorem State.resetRegisters_nsym (s : State) : (s.resetRegisters).nsym = 0#32 := rfl
@[simp] theorem State.resetRegisters_mlen (s : State) : (s.resetRegisters).mlen = 0#32 := rfl
@[simp] theorem State.resetRegisters_slen (s : State) : (s.resetRegisters).slen = 0#32 := rfl
@[simp] theorem State.resetRegisters_strength (s : State) : (s.resetRegisters).strength = 0#31 := rfl
@[simp] theorem State.resetRegisters_corr (s : State) : (s.resetRegisters).corr = 0#64 := rfl
@[simp] theorem State.resetRegisters_pnPtr (s : State) : (s.resetRegisters).pnPtr = 0#32 := rfl
@[simp] theorem State.resetRegisters_symPtr (s : State) : (s.resetRegisters).symPtr = 0#32 := rfl
@[simp] theorem State.resetRegisters_msgPtr (s : State) : (s.resetRegisters).msgPtr = 0#32 := rfl
@[simp] theorem State.resetRegisters_smpPtr (s : State) : (s.resetRegisters).smpPtr = 0#32 := rfl
@[simp] theorem State.resetRegisters_pn (s : State) : (s.resetRegisters).pn = s.pn := rfl
@[simp] theorem State.resetRegisters_sym (s : State) : (s.resetRegisters).sym = s.sym := rfl
@[simp] theorem State.resetRegisters_msg (s : State) : (s.resetRegisters).msg = s.msg := rfl
@[simp] theorem State.resetRegisters_smp (s : State) : (s.resetRegisters).smp = s.smp := rfl
@[simp] theorem State.resetRegisters_pending (s : State) : (s.resetRegisters).pending = none := rfl
@[simp] theorem State.resetRegisters_faultMark (s : State) : (s.resetRegisters).faultMark = s.faultMark := rfl
@[simp] theorem State.resetRegisters_rstN (s : State) : (s.resetRegisters).rstN = s.rstN := rfl
@[simp] theorem State.resetRegisters_rdata (s : State) : (s.resetRegisters).rdata = s.rdata := rfl
@[simp] theorem State.resetRegisters_inputs (s : State) : (s.resetRegisters).inputs = s.inputs := rfl
@[simp] theorem State.resetRegisters_draws (s : State) : (s.resetRegisters).draws = s.draws := rfl

/-! `State.clearMemories`. -/

@[simp] theorem State.clearMemories_params (s : State) : (s.clearMemories).params = s.params := rfl
@[simp] theorem State.clearMemories_ie (s : State) : (s.clearMemories).ie = s.ie := rfl
@[simp] theorem State.clearMemories_status (s : State) : (s.clearMemories).status = s.status := rfl
@[simp] theorem State.clearMemories_seed (s : State) : (s.clearMemories).seed = s.seed := rfl
@[simp] theorem State.clearMemories_sf (s : State) : (s.clearMemories).sf = s.sf := rfl
@[simp] theorem State.clearMemories_nsym (s : State) : (s.clearMemories).nsym = s.nsym := rfl
@[simp] theorem State.clearMemories_mlen (s : State) : (s.clearMemories).mlen = s.mlen := rfl
@[simp] theorem State.clearMemories_slen (s : State) : (s.clearMemories).slen = s.slen := rfl
@[simp] theorem State.clearMemories_strength (s : State) : (s.clearMemories).strength = s.strength := rfl
@[simp] theorem State.clearMemories_corr (s : State) : (s.clearMemories).corr = s.corr := rfl
@[simp] theorem State.clearMemories_pnPtr (s : State) : (s.clearMemories).pnPtr = s.pnPtr := rfl
@[simp] theorem State.clearMemories_symPtr (s : State) : (s.clearMemories).symPtr = s.symPtr := rfl
@[simp] theorem State.clearMemories_msgPtr (s : State) : (s.clearMemories).msgPtr = s.msgPtr := rfl
@[simp] theorem State.clearMemories_smpPtr (s : State) : (s.clearMemories).smpPtr = s.smpPtr := rfl
@[simp] theorem State.clearMemories_pn (s : State) : (s.clearMemories).pn = [] := rfl
@[simp] theorem State.clearMemories_sym (s : State) : (s.clearMemories).sym = [] := rfl
@[simp] theorem State.clearMemories_msg (s : State) : (s.clearMemories).msg = [] := rfl
@[simp] theorem State.clearMemories_smp (s : State) : (s.clearMemories).smp = [] := rfl
@[simp] theorem State.clearMemories_pending (s : State) : (s.clearMemories).pending = s.pending := rfl
@[simp] theorem State.clearMemories_faultMark (s : State) : (s.clearMemories).faultMark = s.faultMark := rfl
@[simp] theorem State.clearMemories_rstN (s : State) : (s.clearMemories).rstN = s.rstN := rfl
@[simp] theorem State.clearMemories_rdata (s : State) : (s.clearMemories).rdata = s.rdata := rfl
@[simp] theorem State.clearMemories_inputs (s : State) : (s.clearMemories).inputs = s.inputs := rfl
@[simp] theorem State.clearMemories_draws (s : State) : (s.clearMemories).draws = s.draws := rfl

/-! `State.externalReset`. -/

@[simp] theorem State.externalReset_params (s : State) : (s.externalReset).params = s.params := rfl
@[simp] theorem State.externalReset_ie (s : State) : (s.externalReset).ie = false := rfl
@[simp] theorem State.externalReset_status (s : State) : (s.externalReset).status = Status.reset := rfl
@[simp] theorem State.externalReset_seed (s : State) : (s.externalReset).seed = 0#32 := rfl
@[simp] theorem State.externalReset_sf (s : State) : (s.externalReset).sf = 0#32 := rfl
@[simp] theorem State.externalReset_nsym (s : State) : (s.externalReset).nsym = 0#32 := rfl
@[simp] theorem State.externalReset_mlen (s : State) : (s.externalReset).mlen = 0#32 := rfl
@[simp] theorem State.externalReset_slen (s : State) : (s.externalReset).slen = 0#32 := rfl
@[simp] theorem State.externalReset_strength (s : State) : (s.externalReset).strength = 0#31 := rfl
@[simp] theorem State.externalReset_corr (s : State) : (s.externalReset).corr = 0#64 := rfl
@[simp] theorem State.externalReset_pnPtr (s : State) : (s.externalReset).pnPtr = 0#32 := rfl
@[simp] theorem State.externalReset_symPtr (s : State) : (s.externalReset).symPtr = 0#32 := rfl
@[simp] theorem State.externalReset_msgPtr (s : State) : (s.externalReset).msgPtr = 0#32 := rfl
@[simp] theorem State.externalReset_smpPtr (s : State) : (s.externalReset).smpPtr = 0#32 := rfl
@[simp] theorem State.externalReset_pn (s : State) : (s.externalReset).pn = [] := rfl
@[simp] theorem State.externalReset_sym (s : State) : (s.externalReset).sym = [] := rfl
@[simp] theorem State.externalReset_msg (s : State) : (s.externalReset).msg = [] := rfl
@[simp] theorem State.externalReset_smp (s : State) : (s.externalReset).smp = [] := rfl
@[simp] theorem State.externalReset_pending (s : State) : (s.externalReset).pending = none := rfl
@[simp] theorem State.externalReset_faultMark (s : State) : (s.externalReset).faultMark = s.faultMark := rfl
@[simp] theorem State.externalReset_rstN (s : State) : (s.externalReset).rstN = s.rstN := rfl
@[simp] theorem State.externalReset_rdata (s : State) : (s.externalReset).rdata = s.rdata := rfl
@[simp] theorem State.externalReset_inputs (s : State) : (s.externalReset).inputs = s.inputs := rfl
@[simp] theorem State.externalReset_draws (s : State) : (s.externalReset).draws = s.draws := rfl

/-! `State.setRstN`. -/

@[simp] theorem State.setRstN_params (b : Bool) (s : State) : (s.setRstN b).params = s.params := rfl
@[simp] theorem State.setRstN_ie (b : Bool) (s : State) : (s.setRstN b).ie = s.ie := rfl
@[simp] theorem State.setRstN_status (b : Bool) (s : State) : (s.setRstN b).status = s.status := rfl
@[simp] theorem State.setRstN_seed (b : Bool) (s : State) : (s.setRstN b).seed = s.seed := rfl
@[simp] theorem State.setRstN_sf (b : Bool) (s : State) : (s.setRstN b).sf = s.sf := rfl
@[simp] theorem State.setRstN_nsym (b : Bool) (s : State) : (s.setRstN b).nsym = s.nsym := rfl
@[simp] theorem State.setRstN_mlen (b : Bool) (s : State) : (s.setRstN b).mlen = s.mlen := rfl
@[simp] theorem State.setRstN_slen (b : Bool) (s : State) : (s.setRstN b).slen = s.slen := rfl
@[simp] theorem State.setRstN_strength (b : Bool) (s : State) : (s.setRstN b).strength = s.strength := rfl
@[simp] theorem State.setRstN_corr (b : Bool) (s : State) : (s.setRstN b).corr = s.corr := rfl
@[simp] theorem State.setRstN_pnPtr (b : Bool) (s : State) : (s.setRstN b).pnPtr = s.pnPtr := rfl
@[simp] theorem State.setRstN_symPtr (b : Bool) (s : State) : (s.setRstN b).symPtr = s.symPtr := rfl
@[simp] theorem State.setRstN_msgPtr (b : Bool) (s : State) : (s.setRstN b).msgPtr = s.msgPtr := rfl
@[simp] theorem State.setRstN_smpPtr (b : Bool) (s : State) : (s.setRstN b).smpPtr = s.smpPtr := rfl
@[simp] theorem State.setRstN_pn (b : Bool) (s : State) : (s.setRstN b).pn = s.pn := rfl
@[simp] theorem State.setRstN_sym (b : Bool) (s : State) : (s.setRstN b).sym = s.sym := rfl
@[simp] theorem State.setRstN_msg (b : Bool) (s : State) : (s.setRstN b).msg = s.msg := rfl
@[simp] theorem State.setRstN_smp (b : Bool) (s : State) : (s.setRstN b).smp = s.smp := rfl
@[simp] theorem State.setRstN_pending (b : Bool) (s : State) : (s.setRstN b).pending = s.pending := rfl
@[simp] theorem State.setRstN_faultMark (b : Bool) (s : State) : (s.setRstN b).faultMark = s.faultMark := rfl
@[simp] theorem State.setRstN_rstN (b : Bool) (s : State) : (s.setRstN b).rstN = b := rfl
@[simp] theorem State.setRstN_rdata (b : Bool) (s : State) : (s.setRstN b).rdata = s.rdata := rfl
@[simp] theorem State.setRstN_inputs (b : Bool) (s : State) : (s.setRstN b).inputs = s.inputs := rfl
@[simp] theorem State.setRstN_draws (b : Bool) (s : State) : (s.setRstN b).draws = s.draws := rfl

/-! `State.drawRdata`. -/

@[simp] theorem State.drawRdata_params (s : State) : (s.drawRdata).params = s.params := rfl
@[simp] theorem State.drawRdata_ie (s : State) : (s.drawRdata).ie = s.ie := rfl
@[simp] theorem State.drawRdata_status (s : State) : (s.drawRdata).status = s.status := rfl
@[simp] theorem State.drawRdata_seed (s : State) : (s.drawRdata).seed = s.seed := rfl
@[simp] theorem State.drawRdata_sf (s : State) : (s.drawRdata).sf = s.sf := rfl
@[simp] theorem State.drawRdata_nsym (s : State) : (s.drawRdata).nsym = s.nsym := rfl
@[simp] theorem State.drawRdata_mlen (s : State) : (s.drawRdata).mlen = s.mlen := rfl
@[simp] theorem State.drawRdata_slen (s : State) : (s.drawRdata).slen = s.slen := rfl
@[simp] theorem State.drawRdata_strength (s : State) : (s.drawRdata).strength = s.strength := rfl
@[simp] theorem State.drawRdata_corr (s : State) : (s.drawRdata).corr = s.corr := rfl
@[simp] theorem State.drawRdata_pnPtr (s : State) : (s.drawRdata).pnPtr = s.pnPtr := rfl
@[simp] theorem State.drawRdata_symPtr (s : State) : (s.drawRdata).symPtr = s.symPtr := rfl
@[simp] theorem State.drawRdata_msgPtr (s : State) : (s.drawRdata).msgPtr = s.msgPtr := rfl
@[simp] theorem State.drawRdata_smpPtr (s : State) : (s.drawRdata).smpPtr = s.smpPtr := rfl
@[simp] theorem State.drawRdata_pn (s : State) : (s.drawRdata).pn = s.pn := rfl
@[simp] theorem State.drawRdata_sym (s : State) : (s.drawRdata).sym = s.sym := rfl
@[simp] theorem State.drawRdata_msg (s : State) : (s.drawRdata).msg = s.msg := rfl
@[simp] theorem State.drawRdata_smp (s : State) : (s.drawRdata).smp = s.smp := rfl
@[simp] theorem State.drawRdata_pending (s : State) : (s.drawRdata).pending = s.pending := rfl
@[simp] theorem State.drawRdata_faultMark (s : State) : (s.drawRdata).faultMark = s.faultMark := rfl
@[simp] theorem State.drawRdata_rstN (s : State) : (s.drawRdata).rstN = s.rstN := rfl
@[simp] theorem State.drawRdata_rdata (s : State) : (s.drawRdata).rdata = Config.resetRead s.draws := rfl
@[simp] theorem State.drawRdata_inputs (s : State) : (s.drawRdata).inputs = s.inputs := rfl
@[simp] theorem State.drawRdata_draws (s : State) : (s.drawRdata).draws = s.draws + 1 := rfl

/-! `State.setInputs`. -/

@[simp] theorem State.setInputs_params (l : List Input) (s : State) : (s.setInputs l).params = s.params := rfl
@[simp] theorem State.setInputs_ie (l : List Input) (s : State) : (s.setInputs l).ie = s.ie := rfl
@[simp] theorem State.setInputs_status (l : List Input) (s : State) : (s.setInputs l).status = s.status := rfl
@[simp] theorem State.setInputs_seed (l : List Input) (s : State) : (s.setInputs l).seed = s.seed := rfl
@[simp] theorem State.setInputs_sf (l : List Input) (s : State) : (s.setInputs l).sf = s.sf := rfl
@[simp] theorem State.setInputs_nsym (l : List Input) (s : State) : (s.setInputs l).nsym = s.nsym := rfl
@[simp] theorem State.setInputs_mlen (l : List Input) (s : State) : (s.setInputs l).mlen = s.mlen := rfl
@[simp] theorem State.setInputs_slen (l : List Input) (s : State) : (s.setInputs l).slen = s.slen := rfl
@[simp] theorem State.setInputs_strength (l : List Input) (s : State) : (s.setInputs l).strength = s.strength := rfl
@[simp] theorem State.setInputs_corr (l : List Input) (s : State) : (s.setInputs l).corr = s.corr := rfl
@[simp] theorem State.setInputs_pnPtr (l : List Input) (s : State) : (s.setInputs l).pnPtr = s.pnPtr := rfl
@[simp] theorem State.setInputs_symPtr (l : List Input) (s : State) : (s.setInputs l).symPtr = s.symPtr := rfl
@[simp] theorem State.setInputs_msgPtr (l : List Input) (s : State) : (s.setInputs l).msgPtr = s.msgPtr := rfl
@[simp] theorem State.setInputs_smpPtr (l : List Input) (s : State) : (s.setInputs l).smpPtr = s.smpPtr := rfl
@[simp] theorem State.setInputs_pn (l : List Input) (s : State) : (s.setInputs l).pn = s.pn := rfl
@[simp] theorem State.setInputs_sym (l : List Input) (s : State) : (s.setInputs l).sym = s.sym := rfl
@[simp] theorem State.setInputs_msg (l : List Input) (s : State) : (s.setInputs l).msg = s.msg := rfl
@[simp] theorem State.setInputs_smp (l : List Input) (s : State) : (s.setInputs l).smp = s.smp := rfl
@[simp] theorem State.setInputs_pending (l : List Input) (s : State) : (s.setInputs l).pending = s.pending := rfl
@[simp] theorem State.setInputs_faultMark (l : List Input) (s : State) : (s.setInputs l).faultMark = s.faultMark := rfl
@[simp] theorem State.setInputs_rstN (l : List Input) (s : State) : (s.setInputs l).rstN = s.rstN := rfl
@[simp] theorem State.setInputs_rdata (l : List Input) (s : State) : (s.setInputs l).rdata = s.rdata := rfl
@[simp] theorem State.setInputs_inputs (l : List Input) (s : State) : (s.setInputs l).inputs = l := rfl
@[simp] theorem State.setInputs_draws (l : List Input) (s : State) : (s.setInputs l).draws = s.draws := rfl

/-! `State.markFault`. -/

@[simp] theorem State.markFault_params (f : Fault) (s : State) : (s.markFault f).params = s.params := rfl
@[simp] theorem State.markFault_ie (f : Fault) (s : State) : (s.markFault f).ie = s.ie := rfl
@[simp] theorem State.markFault_status (f : Fault) (s : State) : (s.markFault f).status = s.status := rfl
@[simp] theorem State.markFault_seed (f : Fault) (s : State) : (s.markFault f).seed = s.seed := rfl
@[simp] theorem State.markFault_sf (f : Fault) (s : State) : (s.markFault f).sf = s.sf := rfl
@[simp] theorem State.markFault_nsym (f : Fault) (s : State) : (s.markFault f).nsym = s.nsym := rfl
@[simp] theorem State.markFault_mlen (f : Fault) (s : State) : (s.markFault f).mlen = s.mlen := rfl
@[simp] theorem State.markFault_slen (f : Fault) (s : State) : (s.markFault f).slen = s.slen := rfl
@[simp] theorem State.markFault_strength (f : Fault) (s : State) : (s.markFault f).strength = s.strength := rfl
@[simp] theorem State.markFault_corr (f : Fault) (s : State) : (s.markFault f).corr = s.corr := rfl
@[simp] theorem State.markFault_pnPtr (f : Fault) (s : State) : (s.markFault f).pnPtr = s.pnPtr := rfl
@[simp] theorem State.markFault_symPtr (f : Fault) (s : State) : (s.markFault f).symPtr = s.symPtr := rfl
@[simp] theorem State.markFault_msgPtr (f : Fault) (s : State) : (s.markFault f).msgPtr = s.msgPtr := rfl
@[simp] theorem State.markFault_smpPtr (f : Fault) (s : State) : (s.markFault f).smpPtr = s.smpPtr := rfl
@[simp] theorem State.markFault_pn (f : Fault) (s : State) : (s.markFault f).pn = s.pn := rfl
@[simp] theorem State.markFault_sym (f : Fault) (s : State) : (s.markFault f).sym = s.sym := rfl
@[simp] theorem State.markFault_msg (f : Fault) (s : State) : (s.markFault f).msg = s.msg := rfl
@[simp] theorem State.markFault_smp (f : Fault) (s : State) : (s.markFault f).smp = s.smp := rfl
@[simp] theorem State.markFault_pending (f : Fault) (s : State) : (s.markFault f).pending = s.pending := rfl
@[simp] theorem State.markFault_rstN (f : Fault) (s : State) : (s.markFault f).rstN = s.rstN := rfl
@[simp] theorem State.markFault_rdata (f : Fault) (s : State) : (s.markFault f).rdata = s.rdata := rfl
@[simp] theorem State.markFault_inputs (f : Fault) (s : State) : (s.markFault f).inputs = s.inputs := rfl
@[simp] theorem State.markFault_draws (f : Fault) (s : State) : (s.markFault f).draws = s.draws := rfl

/-! `State.setPtr`. -/

@[simp] theorem State.setPtr_params (x : MemName) (v : Word) (s : State) : (s.setPtr x v).params = s.params := by cases x <;> rfl
@[simp] theorem State.setPtr_ie (x : MemName) (v : Word) (s : State) : (s.setPtr x v).ie = s.ie := by cases x <;> rfl
@[simp] theorem State.setPtr_status (x : MemName) (v : Word) (s : State) : (s.setPtr x v).status = s.status := by cases x <;> rfl
@[simp] theorem State.setPtr_seed (x : MemName) (v : Word) (s : State) : (s.setPtr x v).seed = s.seed := by cases x <;> rfl
@[simp] theorem State.setPtr_sf (x : MemName) (v : Word) (s : State) : (s.setPtr x v).sf = s.sf := by cases x <;> rfl
@[simp] theorem State.setPtr_nsym (x : MemName) (v : Word) (s : State) : (s.setPtr x v).nsym = s.nsym := by cases x <;> rfl
@[simp] theorem State.setPtr_mlen (x : MemName) (v : Word) (s : State) : (s.setPtr x v).mlen = s.mlen := by cases x <;> rfl
@[simp] theorem State.setPtr_slen (x : MemName) (v : Word) (s : State) : (s.setPtr x v).slen = s.slen := by cases x <;> rfl
@[simp] theorem State.setPtr_strength (x : MemName) (v : Word) (s : State) : (s.setPtr x v).strength = s.strength := by cases x <;> rfl
@[simp] theorem State.setPtr_corr (x : MemName) (v : Word) (s : State) : (s.setPtr x v).corr = s.corr := by cases x <;> rfl
@[simp] theorem State.setPtr_pn (x : MemName) (v : Word) (s : State) : (s.setPtr x v).pn = s.pn := by cases x <;> rfl
@[simp] theorem State.setPtr_sym (x : MemName) (v : Word) (s : State) : (s.setPtr x v).sym = s.sym := by cases x <;> rfl
@[simp] theorem State.setPtr_msg (x : MemName) (v : Word) (s : State) : (s.setPtr x v).msg = s.msg := by cases x <;> rfl
@[simp] theorem State.setPtr_smp (x : MemName) (v : Word) (s : State) : (s.setPtr x v).smp = s.smp := by cases x <;> rfl
@[simp] theorem State.setPtr_pending (x : MemName) (v : Word) (s : State) : (s.setPtr x v).pending = s.pending := by cases x <;> rfl
@[simp] theorem State.setPtr_faultMark (x : MemName) (v : Word) (s : State) : (s.setPtr x v).faultMark = s.faultMark := by cases x <;> rfl
@[simp] theorem State.setPtr_rstN (x : MemName) (v : Word) (s : State) : (s.setPtr x v).rstN = s.rstN := by cases x <;> rfl
@[simp] theorem State.setPtr_rdata (x : MemName) (v : Word) (s : State) : (s.setPtr x v).rdata = s.rdata := by cases x <;> rfl
@[simp] theorem State.setPtr_inputs (x : MemName) (v : Word) (s : State) : (s.setPtr x v).inputs = s.inputs := by cases x <;> rfl
@[simp] theorem State.setPtr_draws (x : MemName) (v : Word) (s : State) : (s.setPtr x v).draws = s.draws := by cases x <;> rfl

/-! `State.stepPtr`. -/

@[simp] theorem State.stepPtr_params (x : MemName) (s : State) : (s.stepPtr x).params = s.params := by cases x <;> rfl
@[simp] theorem State.stepPtr_ie (x : MemName) (s : State) : (s.stepPtr x).ie = s.ie := by cases x <;> rfl
@[simp] theorem State.stepPtr_status (x : MemName) (s : State) : (s.stepPtr x).status = s.status := by cases x <;> rfl
@[simp] theorem State.stepPtr_seed (x : MemName) (s : State) : (s.stepPtr x).seed = s.seed := by cases x <;> rfl
@[simp] theorem State.stepPtr_sf (x : MemName) (s : State) : (s.stepPtr x).sf = s.sf := by cases x <;> rfl
@[simp] theorem State.stepPtr_nsym (x : MemName) (s : State) : (s.stepPtr x).nsym = s.nsym := by cases x <;> rfl
@[simp] theorem State.stepPtr_mlen (x : MemName) (s : State) : (s.stepPtr x).mlen = s.mlen := by cases x <;> rfl
@[simp] theorem State.stepPtr_slen (x : MemName) (s : State) : (s.stepPtr x).slen = s.slen := by cases x <;> rfl
@[simp] theorem State.stepPtr_strength (x : MemName) (s : State) : (s.stepPtr x).strength = s.strength := by cases x <;> rfl
@[simp] theorem State.stepPtr_corr (x : MemName) (s : State) : (s.stepPtr x).corr = s.corr := by cases x <;> rfl
@[simp] theorem State.stepPtr_pn (x : MemName) (s : State) : (s.stepPtr x).pn = s.pn := by cases x <;> rfl
@[simp] theorem State.stepPtr_sym (x : MemName) (s : State) : (s.stepPtr x).sym = s.sym := by cases x <;> rfl
@[simp] theorem State.stepPtr_msg (x : MemName) (s : State) : (s.stepPtr x).msg = s.msg := by cases x <;> rfl
@[simp] theorem State.stepPtr_smp (x : MemName) (s : State) : (s.stepPtr x).smp = s.smp := by cases x <;> rfl
@[simp] theorem State.stepPtr_pending (x : MemName) (s : State) : (s.stepPtr x).pending = s.pending := by cases x <;> rfl
@[simp] theorem State.stepPtr_faultMark (x : MemName) (s : State) : (s.stepPtr x).faultMark = s.faultMark := by cases x <;> rfl
@[simp] theorem State.stepPtr_rstN (x : MemName) (s : State) : (s.stepPtr x).rstN = s.rstN := by cases x <;> rfl
@[simp] theorem State.stepPtr_rdata (x : MemName) (s : State) : (s.stepPtr x).rdata = s.rdata := by cases x <;> rfl
@[simp] theorem State.stepPtr_inputs (x : MemName) (s : State) : (s.stepPtr x).inputs = s.inputs := by cases x <;> rfl
@[simp] theorem State.stepPtr_draws (x : MemName) (s : State) : (s.stepPtr x).draws = s.draws := by cases x <;> rfl

/-! `State.writeCell`. -/

@[simp] theorem State.writeCell_params (x : MemName) (i : Nat) (v : Word) (s : State) : (s.writeCell x i v).params = s.params := by cases x <;> rfl
@[simp] theorem State.writeCell_ie (x : MemName) (i : Nat) (v : Word) (s : State) : (s.writeCell x i v).ie = s.ie := by cases x <;> rfl
@[simp] theorem State.writeCell_status (x : MemName) (i : Nat) (v : Word) (s : State) : (s.writeCell x i v).status = s.status := by cases x <;> rfl
@[simp] theorem State.writeCell_seed (x : MemName) (i : Nat) (v : Word) (s : State) : (s.writeCell x i v).seed = s.seed := by cases x <;> rfl
@[simp] theorem State.writeCell_sf (x : MemName) (i : Nat) (v : Word) (s : State) : (s.writeCell x i v).sf = s.sf := by cases x <;> rfl
@[simp] theorem State.writeCell_nsym (x : MemName) (i : Nat) (v : Word) (s : State) : (s.writeCell x i v).nsym = s.nsym := by cases x <;> rfl
@[simp] theorem State.writeCell_mlen (x : MemName) (i : Nat) (v : Word) (s : State) : (s.writeCell x i v).mlen = s.mlen := by cases x <;> rfl
@[simp] theorem State.writeCell_slen (x : MemName) (i : Nat) (v : Word) (s : State) : (s.writeCell x i v).slen = s.slen := by cases x <;> rfl
@[simp] theorem State.writeCell_strength (x : MemName) (i : Nat) (v : Word) (s : State) : (s.writeCell x i v).strength = s.strength := by cases x <;> rfl
@[simp] theorem State.writeCell_corr (x : MemName) (i : Nat) (v : Word) (s : State) : (s.writeCell x i v).corr = s.corr := by cases x <;> rfl
@[simp] theorem State.writeCell_pnPtr (x : MemName) (i : Nat) (v : Word) (s : State) : (s.writeCell x i v).pnPtr = s.pnPtr := by cases x <;> rfl
@[simp] theorem State.writeCell_symPtr (x : MemName) (i : Nat) (v : Word) (s : State) : (s.writeCell x i v).symPtr = s.symPtr := by cases x <;> rfl
@[simp] theorem State.writeCell_msgPtr (x : MemName) (i : Nat) (v : Word) (s : State) : (s.writeCell x i v).msgPtr = s.msgPtr := by cases x <;> rfl
@[simp] theorem State.writeCell_smpPtr (x : MemName) (i : Nat) (v : Word) (s : State) : (s.writeCell x i v).smpPtr = s.smpPtr := by cases x <;> rfl
@[simp] theorem State.writeCell_pending (x : MemName) (i : Nat) (v : Word) (s : State) : (s.writeCell x i v).pending = s.pending := by cases x <;> rfl
@[simp] theorem State.writeCell_faultMark (x : MemName) (i : Nat) (v : Word) (s : State) : (s.writeCell x i v).faultMark = s.faultMark := by cases x <;> rfl
@[simp] theorem State.writeCell_rstN (x : MemName) (i : Nat) (v : Word) (s : State) : (s.writeCell x i v).rstN = s.rstN := by cases x <;> rfl
@[simp] theorem State.writeCell_rdata (x : MemName) (i : Nat) (v : Word) (s : State) : (s.writeCell x i v).rdata = s.rdata := by cases x <;> rfl
@[simp] theorem State.writeCell_inputs (x : MemName) (i : Nat) (v : Word) (s : State) : (s.writeCell x i v).inputs = s.inputs := by cases x <;> rfl
@[simp] theorem State.writeCell_draws (x : MemName) (i : Nat) (v : Word) (s : State) : (s.writeCell x i v).draws = s.draws := by cases x <;> rfl

/-! `State.invalidate`. -/

@[simp] theorem State.invalidate_params (x : MemName) (n : Nat) (s : State) : (s.invalidate x n).params = s.params := by cases x <;> rfl
@[simp] theorem State.invalidate_ie (x : MemName) (n : Nat) (s : State) : (s.invalidate x n).ie = s.ie := by cases x <;> rfl
@[simp] theorem State.invalidate_status (x : MemName) (n : Nat) (s : State) : (s.invalidate x n).status = s.status := by cases x <;> rfl
@[simp] theorem State.invalidate_seed (x : MemName) (n : Nat) (s : State) : (s.invalidate x n).seed = s.seed := by cases x <;> rfl
@[simp] theorem State.invalidate_sf (x : MemName) (n : Nat) (s : State) : (s.invalidate x n).sf = s.sf := by cases x <;> rfl
@[simp] theorem State.invalidate_nsym (x : MemName) (n : Nat) (s : State) : (s.invalidate x n).nsym = s.nsym := by cases x <;> rfl
@[simp] theorem State.invalidate_mlen (x : MemName) (n : Nat) (s : State) : (s.invalidate x n).mlen = s.mlen := by cases x <;> rfl
@[simp] theorem State.invalidate_slen (x : MemName) (n : Nat) (s : State) : (s.invalidate x n).slen = s.slen := by cases x <;> rfl
@[simp] theorem State.invalidate_strength (x : MemName) (n : Nat) (s : State) : (s.invalidate x n).strength = s.strength := by cases x <;> rfl
@[simp] theorem State.invalidate_corr (x : MemName) (n : Nat) (s : State) : (s.invalidate x n).corr = s.corr := by cases x <;> rfl
@[simp] theorem State.invalidate_pnPtr (x : MemName) (n : Nat) (s : State) : (s.invalidate x n).pnPtr = s.pnPtr := by cases x <;> rfl
@[simp] theorem State.invalidate_symPtr (x : MemName) (n : Nat) (s : State) : (s.invalidate x n).symPtr = s.symPtr := by cases x <;> rfl
@[simp] theorem State.invalidate_msgPtr (x : MemName) (n : Nat) (s : State) : (s.invalidate x n).msgPtr = s.msgPtr := by cases x <;> rfl
@[simp] theorem State.invalidate_smpPtr (x : MemName) (n : Nat) (s : State) : (s.invalidate x n).smpPtr = s.smpPtr := by cases x <;> rfl
@[simp] theorem State.invalidate_pending (x : MemName) (n : Nat) (s : State) : (s.invalidate x n).pending = s.pending := by cases x <;> rfl
@[simp] theorem State.invalidate_faultMark (x : MemName) (n : Nat) (s : State) : (s.invalidate x n).faultMark = s.faultMark := by cases x <;> rfl
@[simp] theorem State.invalidate_rstN (x : MemName) (n : Nat) (s : State) : (s.invalidate x n).rstN = s.rstN := by cases x <;> rfl
@[simp] theorem State.invalidate_rdata (x : MemName) (n : Nat) (s : State) : (s.invalidate x n).rdata = s.rdata := by cases x <;> rfl
@[simp] theorem State.invalidate_inputs (x : MemName) (n : Nat) (s : State) : (s.invalidate x n).inputs = s.inputs := by cases x <;> rfl
@[simp] theorem State.invalidate_draws (x : MemName) (n : Nat) (s : State) : (s.invalidate x n).draws = s.draws := by cases x <;> rfl

/-! What the updates that name a memory leave in the field they name, and in the same field of the other memories. -/

@[simp] theorem State.setPtr_ptr_same (x : MemName) (v : Word) (s : State) : (s.setPtr x v).ptr x = v := by cases x <;> rfl

theorem State.setPtr_ptr_other (x y : MemName) (v : Word) (s : State) (h : y ≠ x) : (s.setPtr x v).ptr y = s.ptr y := by
  cases x <;> cases y <;> first | rfl | exact absurd rfl h

@[simp] theorem State.stepPtr_ptr_same (x : MemName) (s : State) : (s.stepPtr x).ptr x = s.ptr x + 1#32 := by
  cases x <;> rfl

theorem State.stepPtr_ptr_other (x y : MemName) (s : State) (h : y ≠ x) : (s.stepPtr x).ptr y = s.ptr y :=
  State.setPtr_ptr_other x y _ s h

@[simp] theorem State.writeCell_ptr (x y : MemName) (i : Nat) (v : Word) (s : State) :
    (s.writeCell x i v).ptr y = s.ptr y := by cases x <;> cases y <;> rfl

@[simp] theorem State.invalidate_ptr (x y : MemName) (n : Nat) (s : State) : (s.invalidate x n).ptr y = s.ptr y := by
  cases x <;> cases y <;> rfl

@[simp] theorem State.setRdata_ptr (v : Word) (y : MemName) (s : State) : (s.setRdata v).ptr y = s.ptr y := by
  cases y <;> rfl

@[simp] theorem State.setHerr_ptr (y : MemName) (s : State) : s.setHerr.ptr y = s.ptr y := by cases y <;> rfl

@[simp] theorem State.setPtr_readCell (x y : MemName) (v : Word) (i : Nat) (s : State) :
    (s.setPtr x v).readCell y i = s.readCell y i := by cases x <;> cases y <;> rfl

@[simp] theorem State.stepPtr_readCell (x y : MemName) (i : Nat) (s : State) :
    (s.stepPtr x).readCell y i = s.readCell y i := by cases x <;> cases y <;> rfl

@[simp] theorem State.setRdata_readCell (v : Word) (y : MemName) (i : Nat) (s : State) :
    (s.setRdata v).readCell y i = s.readCell y i := by cases y <;> rfl

@[simp] theorem State.setHerr_readCell (y : MemName) (i : Nat) (s : State) : s.setHerr.readCell y i = s.readCell y i := by
  cases y <;> rfl

@[simp] theorem State.writeCell_size (x y : MemName) (i : Nat) (v : Word) (s : State) :
    (s.writeCell x i v).size y = s.size y := by cases x <;> cases y <;> rfl

@[simp] theorem State.setPtr_size (x y : MemName) (v : Word) (s : State) : (s.setPtr x v).size y = s.size y := by
  cases x <;> cases y <;> rfl

@[simp] theorem State.stepPtr_size (x y : MemName) (s : State) : (s.stepPtr x).size y = s.size y := by
  cases x <;> cases y <;> rfl

@[simp] theorem State.markFault_of_none (f : Fault) (s : State) (h : s.faultMark = none) :
    (s.markFault f).faultMark = some f := by simp [State.markFault, h]

@[simp] theorem State.markFault_of_some (f g : Fault) (s : State) (h : s.faultMark = some g) :
    (s.markFault f).faultMark = some g := by simp [State.markFault, h]

/-! STATUS. -/

@[simp] theorem Status.issued_busy (f : Status) : f.issued.busy = true := rfl
@[simp] theorem Status.completedOk_busy (f : Status) : f.completedOk.busy = false := rfl
@[simp] theorem Status.completedError_busy (c : ErrCode) (f : Status) : (f.completedError c).busy = false := rfl
@[simp] theorem Status.clearedBy_busy (w : Word) (f : Status) : (f.clearedBy w).busy = f.busy := rfl

end Sys2Proof.Machine
end

