-- ==== Sys2Proof/Laws/Bus.lean ====
section
/-! SUPPORT. The host's accesses and the resets: what each can answer and what it leaves alone. -/

namespace Sys2Proof.Machine

variable {s t : State}

/-! The register map. -/

theorem regAt_index (r : Reg) : regAt r.index = r := by
  cases r with
  | ptr x => cases x <;> decide
  | data x => cases x <;> decide
  | _ => decide

/-- The word indexes 0x17 to 0x3F are reserved (10_state.md R38). -/
theorem regAt_reserved_iff (idx : RegIndex) : regAt idx = .reserved ↔ 0x17 ≤ idx.toNat := by
  revert idx; decide +kernel

/-! Cells through a memory's name. -/

theorem readCell_writeCell_same (x : MemName) (i : Nat) (v : Word) (s : State) :
    (s.writeCell x i v).readCell x i =
      some (match x with
            | .pn => (v.setWidth 1).setWidth 32
            | .sym => (v.setWidth 1).setWidth 32
            | .msg => (v.setWidth 8).setWidth 32
            | .smp => v) := by
  cases x <;> simp [State.readCell, State.writeCell]

theorem readCell_writeCell_other {x y : MemName} {i j : Nat} (v : Word) (s : State) (h : y ≠ x ∨ j ≠ i) :
    (s.writeCell x i v).readCell y j = s.readCell y j := by
  cases x <;> cases y <;>
    first
    | rfl
    | (have hj : j ≠ i := by simpa using h
       simp [State.readCell, State.writeCell, Memory.read_write_other _ _ hj])

/-! Data ports. -/

theorem portRead_next {x : MemName} (h : portRead x s = .next t) :
    (s.status.busy = true ∧ t = s.setHerr.setRdata 0#32) ∨
      (s.status.busy = false ∧ (s.ptr x).toNat < s.size x ∧
        ∃ v, s.readCell x (s.ptr x).toNat = some v ∧ t = (s.setRdata v).stepPtr x) ∨
      (s.status.busy = false ∧ s.size x ≤ (s.ptr x).toNat ∧ t = (s.setHerr.setRdata 0#32).stepPtr x) := by
  unfold portRead at h
  split at h
  · cases h; exact .inl ⟨by assumption, rfl⟩
  · rename_i hb
    split at h
    · split at h <;> cases h
      exact .inr (.inl ⟨by simpa using hb, by assumption, _, by assumption, rfl⟩)
    · cases h
      exact .inr (.inr ⟨by simpa using hb, by omega, rfl⟩)

theorem portRead_fault {x : MemName} {f : Fault} (h : portRead x s = .fault f) :
    s.status.busy = false ∧ (s.ptr x).toNat < s.size x ∧ s.readCell x (s.ptr x).toNat = none ∧
      f = .uninit (.dataPort x) := by
  unfold portRead at h
  split at h
  · cases h
  · rename_i hb
    split at h
    · split at h <;> cases h
      exact ⟨by simpa using hb, by assumption, by assumption, rfl⟩
    · cases h

theorem busRead_data {idx : RegIndex} {x : MemName} (h : regAt idx = .data x) : busRead idx s = portRead x s := by
  simp [busRead, h]

theorem busRead_of_not_data {idx : RegIndex} (h : ∀ x, regAt idx ≠ .data x) :
    busRead idx s = .next (s.setRdata (s.readReg (regAt idx))) := by
  unfold busRead
  split
  · rename_i x hx; exact absurd hx (h x)
  · rfl

/-! Aborts and the soft reset: one spec lemma, then each field. -/

/-- An abort takes the value away from a run of cells of one memory, and does nothing else (70_reset_and_hazards.md
R233). -/
theorem abortCommand_eq (i : Instr) (s : State) : ∃ x n, abortCommand i s = s.invalidate x n := by
  have h0 : s = s.invalidate .pn 0 := by simp [State.invalidate]
  cases i <;> simp only [abortCommand] <;> first | exact ⟨_, _, h0⟩ | (split <;> first | exact ⟨_, _, rfl⟩ | exact ⟨_, _, h0⟩)

theorem abortPending_eq (s : State) : ∃ x n, abortPending s = s.invalidate x n := by
  have h0 : s = s.invalidate .pn 0 := by simp [State.invalidate]
  unfold abortPending
  split
  · exact ⟨_, _, h0⟩
  · split
    · exact abortCommand_eq _ s
    · exact ⟨_, _, h0⟩

theorem softReset_eq (s : State) : ∃ x n, s.softReset = (s.invalidate x n).resetRegisters := by
  obtain ⟨x, n, h⟩ := abortPending_eq s
  exact ⟨x, n, by rw [State.softReset, h]⟩

@[simp] theorem softReset_params (s : State) : s.softReset.params = s.params := by
  obtain ⟨x, n, h⟩ := softReset_eq s; simp [h]

@[simp] theorem softReset_pending (s : State) : s.softReset.pending = none := rfl
@[simp] theorem softReset_status (s : State) : s.softReset.status = Status.reset := rfl
@[simp] theorem softReset_ie (s : State) : s.softReset.ie = false := rfl

@[simp] theorem softReset_faultMark (s : State) : s.softReset.faultMark = s.faultMark := by
  obtain ⟨x, n, h⟩ := softReset_eq s; simp [h]

@[simp] theorem softReset_inputs (s : State) : s.softReset.inputs = s.inputs := by
  obtain ⟨x, n, h⟩ := softReset_eq s; simp [h]

@[simp] theorem softReset_rstN (s : State) : s.softReset.rstN = s.rstN := by
  obtain ⟨x, n, h⟩ := softReset_eq s; simp [h]

@[simp] theorem softReset_rdata (s : State) : s.softReset.rdata = s.rdata := by
  obtain ⟨x, n, h⟩ := softReset_eq s; simp [h]

@[simp] theorem softReset_draws (s : State) : s.softReset.draws = s.draws := by
  obtain ⟨x, n, h⟩ := softReset_eq s; simp [h]

/-! Writes: the shapes a bus write can have. -/

/-- A bus write is a blocked write, or the effect of the register it names (R71, R78). -/
theorem busWrite_cases (idx : RegIndex) (w : Word) (s : State) :
    (s.status.busy = true ∧ (regAt idx).writeBlocked = true ∧ busWrite idx w s = s.setHerr) ∨
      ((s.status.busy = false ∨ (regAt idx).writeBlocked = false) ∧ busWrite idx w s = writeReg (regAt idx) w s) := by
  unfold busWrite
  split
  · rename_i h
    rw [Bool.and_eq_true] at h
    exact .inl ⟨h.1, h.2, rfl⟩
  · rename_i h
    refine .inr ⟨?_, rfl⟩
    cases hb : s.status.busy
    · exact .inl rfl
    · exact .inr (by simpa [hb] using h)

end Sys2Proof.Machine
end

