-- ==== Sys2Proof/Laws/Units.lean ====
section
/-! SUPPORT. The five units' list functions, read by index: lengths, elements, and the sum behind a correlation. -/

namespace Sys2Proof.Machine

/-- Cells 0 .. n−1 that hold x 0 .. x (n−1) read as the list of those values. -/
theorem Memory.readRun_of_cells {w : Nat} {m : Memory w} {n : Nat} {x : Nat → BitVec w}
    (h : ∀ i, i < n → m.read i = some (x i)) : m.readRun n = some ((List.range n).map x) := by
  refine Memory.readRun_eq_some_iff.2 ⟨by simp, fun i hi => ?_⟩
  rw [h i hi]
  simp [List.getElem?_map, List.getElem?_range hi]

/-! PN generator. -/

@[simp] theorem lfsrChips_length (n : Nat) (x : BitVec 64) : (lfsrChips n x).length = n := by
  induction n generalizing x with
  | zero => rfl
  | succ n ih => simp [lfsrChips, ih]

/-- Chip j is the output of step j+1 (R122). -/
theorem lfsrChips_getElem? {n j : Nat} (x : BitVec 64) (h : j < n) :
    (lfsrChips n x)[j]? = some (lfsrChip (lfsrNext^[j] x)) := by
  induction n generalizing x j with
  | zero => omega
  | succ n ih =>
    cases j with
    | zero => simp [lfsrChips, lfsrStep]
    | succ j => simp [lfsrChips, lfsrStep, ih (lfsrNext x) (Nat.lt_of_succ_lt_succ h)]

/-! Bit codec. -/

@[simp] theorem byteSymbols_length (b : Byte) : (byteSymbols b).length = 8 := rfl

theorem byteSymbols_getElem? {t : Nat} (b : Byte) (h : t < 8) : (byteSymbols b)[t]? = some (byteBit b (7 - t)) := by
  interval_cases t <;> rfl

theorem flatMap_byteSymbols_length (bytes : List Byte) : (bytes.flatMap byteSymbols).length = 8 * bytes.length := by
  induction bytes with
  | nil => rfl
  | cons b bytes ih => simp [List.flatMap_cons, ih]; omega

@[simp] theorem messageSymbols_length (bytes : List Byte) : (messageSymbols bytes).length = 8 * (bytes.length + 1) := by
  rw [messageSymbols, flatMap_byteSymbols_length, List.length_append, List.length_singleton]

theorem flatMap_byteSymbols_getElem? {bytes : List Byte} {k t : Nat} {b : Byte} (hb : bytes[k]? = some b) (ht : t < 8) :
    (bytes.flatMap byteSymbols)[8 * k + t]? = some (byteBit b (7 - t)) := by
  induction bytes generalizing k with
  | nil => simp at hb
  | cons c bytes ih =>
    rw [List.flatMap_cons]
    cases k with
    | zero =>
      simp only [List.getElem?_cons_zero, Option.some.injEq] at hb
      rw [List.getElem?_append_left (by simp; omega), Nat.mul_zero, Nat.zero_add, hb, byteSymbols_getElem? b ht]
    | succ k =>
      rw [List.getElem?_append_right (by simp; omega), byteSymbols_length,
        show 8 * (k + 1) + t - 8 = 8 * k + t by omega]
      exact ih (by simpa using hb)

/-- Symbol 8·k+t is bit 7−t of byte k, the terminator being the last byte (R100). -/
theorem messageSymbols_getElem? {bytes : List Byte} {k t : Nat} (hk : k ≤ bytes.length) (ht : t < 8) :
    (messageSymbols bytes)[8 * k + t]? = some (byteBit (bytes.getD k 0x00#8) (7 - t)) := by
  refine flatMap_byteSymbols_getElem? ?_ ht
  rcases Nat.lt_or_eq_of_le hk with h | rfl
  · simp [List.getElem?_append_left h, List.getD, List.getElem?_eq_getElem h]
  · simp [List.getD]

@[simp] theorem assemble_length (n : Nat) (bits : List PolBit) : (assemble n bits).length = n := by
  induction n generalizing bits with
  | zero => rfl
  | succ n ih => simp [assemble, ih]

theorem assemble_getElem? {n k : Nat} (bits : List PolBit) (h : k < n) :
    (assemble n bits)[k]? = some (symbolsByte (bits.drop (8 * k))) := by
  induction n generalizing bits k with
  | zero => omega
  | succ n ih =>
    cases k with
    | zero => simp [assemble]
    | succ k =>
      rw [assemble, List.getElem?_cons_succ, ih _ (Nat.lt_of_succ_lt_succ h), List.drop_drop]
      congr 3
      omega

/-- Packing a byte's own symbols gives the byte back. -/
theorem symbolsByte_byteSymbols (b : Byte) (rest : List PolBit) : symbolsByte (byteSymbols b ++ rest) = b := by
  have : (byteSymbols b ++ rest).take 8 = byteSymbols b := by simp [List.take_append]
  rw [symbolsByte, this]
  clear this
  revert b
  decide +kernel

theorem assemble_flatMap (bytes : List Byte) (rest : List PolBit) :
    assemble bytes.length (bytes.flatMap byteSymbols ++ rest) = bytes := by
  induction bytes with
  | nil => rfl
  | cons b bytes ih =>
    rw [List.flatMap_cons, List.append_assoc, List.length_cons, assemble, symbolsByte_byteSymbols]
    have : (byteSymbols b ++ (bytes.flatMap byteSymbols ++ rest)).drop 8 = bytes.flatMap byteSymbols ++ rest := by
      simp [List.drop_append]
    rw [this, ih]

/-! Spreader. -/

@[simp] theorem payload_length (st : BitVec 31) (a p : List PolBit) : (payload st a p).length = a.length * p.length := by
  induction a with
  | nil => simp [payload]
  | cons b a ih =>
    have : payload st (b :: a) p = p.map (chipValue st b) ++ payload st a p := rfl
    rw [this, List.length_append, ih, List.length_map, List.length_cons, Nat.succ_mul, Nat.add_comm]

/-- Chip j of symbol i is at index i·SF + j (R140). -/
theorem payload_getElem? {st : BitVec 31} {a p : List PolBit} {i j : Nat} {y c : PolBit} (hi : a[i]? = some y)
    (hj : p[j]? = some c) : (payload st a p)[i * p.length + j]? = some (chipValue st y c) := by
  obtain ⟨hj', hc⟩ := List.getElem?_eq_some_iff.1 hj
  induction a generalizing i with
  | nil => simp at hi
  | cons b a ih =>
    have hp : payload st (b :: a) p = p.map (chipValue st b) ++ payload st a p := rfl
    rw [hp]
    cases i with
    | zero =>
      simp only [List.getElem?_cons_zero, Option.some.injEq] at hi
      rw [Nat.zero_mul, Nat.zero_add, List.getElem?_append_left (by simpa using hj')]
      simp [hj, hi]
    | succ i =>
      rw [List.getElem?_append_right (by simp [Nat.succ_mul]; omega), List.length_map,
        show (i + 1) * p.length + j - p.length = i * p.length + j by rw [Nat.succ_mul]; omega]
      exact ih (by simpa using hi)

@[simp] theorem carrierSums_length (xs : List Word) (cs : List Int) :
    (carrierSums xs cs).length = min xs.length cs.length := by simp [carrierSums]

theorem carrierSums_getElem? {xs : List Word} {cs : List Int} {k : Nat} {x : Word} {c : Int} (hx : xs[k]? = some x)
    (hc : cs[k]? = some c) : (carrierSums xs cs)[k]? = some (sint32 x + c) := by
  simp [carrierSums, List.getElem?_zipWith, hx, hc]

/-! Correlator. -/

@[simp] theorem groupCorrelations_length (sf : Nat) (p : List PolBit) (n : Nat) (xs : List Word) :
    (groupCorrelations sf p n xs).length = n := by
  induction n generalizing xs with
  | zero => rfl
  | succ n ih => simp [groupCorrelations, ih]

theorem groupCorrelations_getElem? {sf : Nat} {p : List PolBit} {n g : Nat} (xs : List Word) (h : g < n) :
    (groupCorrelations sf p n xs)[g]? = some (correlation ((xs.drop (g * sf)).take sf) p) := by
  induction n generalizing xs g with
  | zero => omega
  | succ n ih =>
    cases g with
    | zero => simp [groupCorrelations]
    | succ g =>
      rw [groupCorrelations, List.getElem?_cons_succ, ih _ (Nat.lt_of_succ_lt_succ h), List.drop_drop]
      congr 4
      rw [Nat.succ_mul, Nat.add_comm]

/-- The correlation of n samples x 0 .. x (n−1) with n chips is the sum of R160. -/
theorem correlation_range (n : Nat) (x : Nat → Word) (p : Nat → PolBit) :
    correlation ((List.range n).map x) ((List.range n).map p) = ∑ j ∈ Finset.range n, sint32 (x j) * pol (p j) := by
  have : ((List.range n).map x).zipWith (fun x p => sint32 x * pol p) ((List.range n).map p) =
      (List.range n).map (fun j => sint32 (x j) * pol (p j)) := by
    simp [List.zipWith_map, List.zipWith_self]
  rw [correlation, this]
  clear this
  induction n with
  | zero => rfl
  | succ n ih => rw [List.range_succ, List.map_append, List.sum_append, Finset.sum_range_succ, ih]; simp

end Sys2Proof.Machine
end

