-- ==== Sys2Proof/Laws/Exec.lean ====
section
/-! SUPPORT. One lemma for each meaning that says everything it can answer, and the equation it satisfies where its checks
pass and its operands are readable; and what each check means. -/

namespace Sys2Proof.Machine

variable {s t : State}

/-! The checks. -/

theorem sfIllegal_eq_false_iff : s.sfIllegal = false ↔ 1 ≤ s.sf.toNat ∧ s.sf.toNat ≤ s.params.pnMax := by
  simp [State.sfIllegal]; omega

theorem sfIllegal_eq_true_iff : s.sfIllegal = true ↔ s.sf.toNat = 0 ∨ s.params.pnMax < s.sf.toNat := by
  simp [State.sfIllegal]

theorem checkGenPn_eq_none_iff : checkGenPn s = none ↔ 1 ≤ s.sf.toNat ∧ s.sf.toNat ≤ s.params.pnMax := by
  rw [← sfIllegal_eq_false_iff]; unfold checkGenPn; split <;> simp_all

theorem checkEncode_eq_none_iff : checkEncode s = none ↔ s.mlen.toNat < s.params.msgMax := by
  unfold checkEncode; split <;> simp <;> omega

theorem checkSpread_eq_none_iff : checkSpread s = none ↔
    (1 ≤ s.sf.toNat ∧ s.sf.toNat ≤ s.params.pnMax) ∧ s.nsym.toNat ≤ s.params.symMax ∧ s.slen.toNat ≤ s.params.smpMax ∧
      s.nsym.toNat * s.sf.toNat ≤ s.slen.toNat := by
  rw [← sfIllegal_eq_false_iff]
  unfold checkSpread
  split
  · simp_all
  · split
    · simp_all; omega
    · split <;> simp_all

theorem checkCorrelate_eq_none_iff : checkCorrelate s = none ↔
    (1 ≤ s.sf.toNat ∧ s.sf.toNat ≤ s.params.pnMax) ∧ s.slen.toNat ≤ s.params.smpMax := by
  rw [← sfIllegal_eq_false_iff]
  unfold checkCorrelate
  split
  · simp_all
  · split <;> simp_all

theorem checkDecode_eq_none_iff : checkDecode s = none ↔ s.nsym.toNat ≤ s.params.symMax := by
  unfold checkDecode; split <;> simp <;> omega

/-! What each meaning can answer. -/

theorem execGenPn_next (h : execGenPn s = .next t) :
    (∃ c, checkGenPn s = some c ∧ t = s.completeError c) ∨
      (checkGenPn s = none ∧ t = (s.storePn (lfsrChips s.sf.toNat (scramble s.seed))).completeOk) := by
  unfold execGenPn at h
  split at h <;> cases h
  · exact .inl ⟨_, by assumption, rfl⟩
  · exact .inr ⟨by assumption, rfl⟩

theorem execEncode_next (h : execEncode s = .next t) :
    (∃ c, checkEncode s = some c ∧ t = s.completeError c) ∨
      (∃ bytes, checkEncode s = none ∧ s.msg.readRun s.mlen.toNat = some bytes ∧
        t = (s.storeSymbols (messageSymbols bytes)).completeOk) := by
  unfold execEncode at h
  split at h
  · cases h; exact .inl ⟨_, by assumption, rfl⟩
  · split at h <;> cases h
    exact .inr ⟨_, by assumption, by assumption, rfl⟩

theorem execDecode_next (h : execDecode s = .next t) :
    (∃ c, checkDecode s = some c ∧ t = s.completeError c) ∨
      (∃ bits, checkDecode s = none ∧ s.sym.readRun (8 * s.assembledBytes) = some bits ∧
        ((∃ b, terminatorIndex (assemble s.assembledBytes bits) = some b ∧
            t = (s.storeMessage (assemble s.assembledBytes bits) b true).completeOk) ∨
          (terminatorIndex (assemble s.assembledBytes bits) = none ∧
            t = (s.storeMessage (assemble s.assembledBytes bits) s.assembledBytes false).completeError .noTerm))) := by
  unfold execDecode at h
  split at h
  · cases h; exact .inl ⟨_, by assumption, rfl⟩
  · split at h
    · cases h
    · dsimp only at h
      split at h <;> cases h
      · exact .inr ⟨_, by assumption, by assumption, .inl ⟨_, by assumption, rfl⟩⟩
      · exact .inr ⟨_, by assumption, by assumption, .inr ⟨by assumption, rfl⟩⟩

theorem execSpread_next (h : execSpread s = .next t) :
    (∃ c, checkSpread s = some c ∧ t = s.completeError c) ∨
      (∃ symbols chips, checkSpread s = none ∧ s.spreadOperands = some (symbols, chips) ∧
        t = (s.storeSamples ((payload s.strength symbols chips).map wrap32 ++
          List.replicate (s.slen.toNat - s.payloadLength) 0x00000000#32)).completeOk) := by
  unfold execSpread at h
  split at h
  · cases h; exact .inl ⟨_, by assumption, rfl⟩
  · split at h <;> cases h
    exact .inr ⟨_, _, by assumption, by assumption, rfl⟩

theorem execSpreadAdd_next (h : execSpreadAdd s = .next t) :
    (∃ c, checkSpread s = some c ∧ t = s.completeError c) ∨
      (∃ symbols chips carrier, checkSpread s = none ∧ s.spreadOperands = some (symbols, chips) ∧
        s.smp.readRun s.payloadLength = some carrier ∧
        t = ((s.storeSamples ((carrierSums carrier (payload s.strength symbols chips)).map wrap32)).raiseOvf
          ((carrierSums carrier (payload s.strength symbols chips)).any sumWraps)).completeOk) := by
  unfold execSpreadAdd at h
  split at h
  · cases h; exact .inl ⟨_, by assumption, rfl⟩
  · split at h <;> cases h
    exact .inr ⟨_, _, _, by assumption, by assumption, by assumption, rfl⟩

theorem execCorrelate_next (h : execCorrelate s = .next t) :
    (∃ c, checkCorrelate s = some c ∧ t = s.completeError c) ∨
      (∃ samples chips, checkCorrelate s = none ∧ s.correlateOperands = some (samples, chips) ∧
        t = ((s.storeSymbols ((groupCorrelations s.sf.toNat chips s.decidedGroups samples).map sliceBit)).storeCorrelation
          ((groupCorrelations s.sf.toNat chips s.decidedGroups samples).getLastD 0)
          (clipFlag s.fullGroups s.params.symMax)).completeOk) := by
  unfold execCorrelate at h
  split at h
  · cases h; exact .inl ⟨_, by assumption, rfl⟩
  · split at h <;> cases h
    exact .inr ⟨_, _, by assumption, by assumption, rfl⟩

/-! Check errors. -/

theorem execGenPn_of_error {c : ErrCode} (h : checkGenPn s = some c) : execGenPn s = .next (s.completeError c) := by
  simp [execGenPn, h]

theorem execEncode_of_error {c : ErrCode} (h : checkEncode s = some c) : execEncode s = .next (s.completeError c) := by
  simp [execEncode, h]

theorem execDecode_of_error {c : ErrCode} (h : checkDecode s = some c) : execDecode s = .next (s.completeError c) := by
  simp [execDecode, h]

theorem execSpread_of_error {c : ErrCode} (h : checkSpread s = some c) : execSpread s = .next (s.completeError c) := by
  simp [execSpread, h]

theorem execSpreadAdd_of_error {c : ErrCode} (h : checkSpread s = some c) :
    execSpreadAdd s = .next (s.completeError c) := by simp [execSpreadAdd, h]

theorem execCorrelate_of_error {c : ErrCode} (h : checkCorrelate s = some c) :
    execCorrelate s = .next (s.completeError c) := by simp [execCorrelate, h]

/-! Completion where the checks pass and the operands are readable. -/

theorem execGenPn_of_check (h : checkGenPn s = none) :
    execGenPn s = .next (s.storePn (lfsrChips s.sf.toNat (scramble s.seed))).completeOk := by simp [execGenPn, h]

theorem execEncode_of_cells {x : Nat → Byte} (h : checkEncode s = none)
    (hx : ∀ k, k < s.mlen.toNat → s.msg.read k = some (x k)) :
    execEncode s = .next (s.storeSymbols (messageSymbols ((List.range s.mlen.toNat).map x))).completeOk := by
  simp [execEncode, h, Memory.readRun_of_cells hx]

theorem spreadOperands_of_cells {y p : Nat → PolBit} (hy : ∀ i, i < s.nsym.toNat → s.sym.read i = some (y i))
    (hp : 0 < s.nsym.toNat → ∀ j, j < s.sf.toNat → s.pn.read j = some (p j)) :
    ∃ a c, s.spreadOperands = some (a, c) ∧ a = (List.range s.nsym.toNat).map y ∧
      (0 < s.nsym.toNat → c = (List.range s.sf.toNat).map p) := by
  by_cases h0 : s.nsym.toNat = 0
  · exact ⟨[], [], by simp [State.spreadOperands, h0], by simp [h0], fun h => by omega⟩
  · exact ⟨_, _, by simp [State.spreadOperands, h0, Memory.readRun_of_cells hy, Memory.readRun_of_cells (hp (by omega))],
      rfl, fun _ => rfl⟩

theorem correlateOperands_of_cells {x : Nat → Word} {p : Nat → PolBit}
    (hx : ∀ k, k < s.decidedGroups * s.sf.toNat → s.smp.read k = some (x k))
    (hp : 0 < s.decidedGroups → ∀ j, j < s.sf.toNat → s.pn.read j = some (p j)) :
    ∃ a c, s.correlateOperands = some (a, c) ∧ a = (List.range (s.decidedGroups * s.sf.toNat)).map x ∧
      (0 < s.decidedGroups → c = (List.range s.sf.toNat).map p) := by
  by_cases h0 : s.decidedGroups = 0
  · exact ⟨[], [], by simp [State.correlateOperands, h0], by simp [h0], fun h => by omega⟩
  · exact ⟨_, _, by
      simp [State.correlateOperands, h0, Memory.readRun_of_cells hx, Memory.readRun_of_cells (hp (by omega))],
      rfl, fun _ => rfl⟩

/-! The lengths of what a command writes. -/

theorem spreadOperands_length {a c : List PolBit} (h : s.spreadOperands = some (a, c)) :
    a.length = s.nsym.toNat ∧ (payload s.strength a c).length = s.payloadLength := by
  unfold State.spreadOperands at h
  split at h
  · rename_i h0
    cases h
    simp [State.payloadLength, h0]
  · split at h <;> cases h
    rename_i h1 h2
    simp [State.payloadLength, Memory.readRun_length h1, Memory.readRun_length h2]

end Sys2Proof.Machine
end

