-- ==== Sys2Proof/Laws/Step.lean ====
section
/-! SUPPORT. What one step can be, said once. -/

namespace Sys2Proof.Machine

variable {s t : State}

/-- What one entry of the input queue can do, if it answers a next state. -/
theorem takeInput_next {e : Input} (h : takeInput e s = .next t) :
    (s.rstN = false ∧ t = heldInReset e s) ∨
      (s.rstN = true ∧
        ((∃ idx w, e = .write idx w ∧ t = busWrite idx w s) ∨
          (∃ idx, e = .read idx ∧ busRead idx s = .next t) ∨
          (e = .engine ∧ engineTurn s = .next t) ∨
          (e = .rst true ∧ t = s) ∨
          (e = .rst false ∧ t = s.externalReset.setRstN false))) := by
  unfold takeInput at h
  split at h
  · rename_i hr
    refine .inr ⟨hr, ?_⟩
    unfold runInput at h
    split at h
    · cases h; exact .inl ⟨_, _, rfl, rfl⟩
    · exact .inr (.inl ⟨_, rfl, h⟩)
    · exact .inr (.inr (.inl ⟨rfl, h⟩))
    · cases h; exact .inr (.inr (.inr (.inl ⟨rfl, rfl⟩)))
    · cases h; exact .inr (.inr (.inr (.inr ⟨rfl, rfl⟩)))
  · rename_i hr
    cases h
    exact .inl ⟨by simpa using hr, rfl⟩

/-- The engine's turn, if it answers a next state: idle, an illegal word, or a command's completion. -/
theorem engineTurn_next (h : engineTurn s = .next t) :
    (s.pending = none ∧ t = s) ∨
      (∃ w e, s.pending = some w ∧ decode w = .error e ∧ t = s.completeError .illegal) ∨
      (∃ w i, s.pending = some w ∧ decode w = .ok i ∧ exec i s = .next t) := by
  unfold engineTurn at h
  split at h
  · cases h; exact .inl ⟨by assumption, rfl⟩
  · rename_i w hw
    unfold completeWord at h
    split at h
    · exact .inr (.inr ⟨w, _, hw, by assumption, h⟩)
    · cases h; exact .inr (.inl ⟨w, _, hw, by assumption, rfl⟩)

/-- One step, if it answers a next state: the mark is clear, and the head of the queue, or the engine's turn where the queue is
empty, happens in the state with the rest of the queue. -/
theorem step_next (h : step s = .next t) :
    s.faultMark = none ∧ takeInput (s.inputs.headD .engine) (s.setInputs s.inputs.tail) = .next t := by
  unfold step at h
  split at h
  · cases h
  · rename_i hm
    refine ⟨hm, ?_⟩
    unfold nextInput at h
    split at h
    · rename_i hi
      have : s.setInputs s.inputs.tail = s := by simp only [State.setInputs, hi, List.tail_nil]; rw [← hi]
      rw [this, hi]
      exact h
    · rename_i e rest hi
      simpa [hi] using h

theorem step_of_mark {f : Fault} (h : s.faultMark = some f) : step s = .fault f := by simp [step, h]

theorem step_of_cons {e : Input} {rest : List Input} (hm : s.faultMark = none) (hi : s.inputs = e :: rest) :
    step s = takeInput e (s.setInputs rest) := by simp [step, hm, nextInput, hi]

theorem step_of_nil (hm : s.faultMark = none) (hi : s.inputs = []) : step s = takeInput .engine s := by
  simp [step, hm, nextInput, hi]

end Sys2Proof.Machine
end

