-- ==== Sys2Proof/Laws/HostProgram.lean ====
section
/-! SUPPORT. Sequencing of host accesses, and that what an access does is independent of the queue behind it. -/

namespace Sys2Proof.Machine

/-! Sequencing. -/

section sequencing

variable {α β : Type}

@[simp] theorem hostThen_next (a : α) (k : α → Host.Outcome β Fault Refusal) : hostThen (.next a) k = k a := rfl

@[simp] theorem hostThen_fault (f : Fault) (k : α → Host.Outcome β Fault Refusal) : hostThen (.fault f) k = .fault f := rfl

@[simp] theorem hostThen_refused (r : Refusal) (k : α → Host.Outcome β Fault Refusal) :
    hostThen (.refused r) k = .refused r := rfl

theorem hostThen_eq_next_iff {o : Host.Outcome α Fault Refusal} {k : α → Host.Outcome β Fault Refusal} {b : β} :
    hostThen o k = .next b ↔ ∃ a, o = .next a ∧ k a = .next b := by
  cases o <;> simp [hostThen]

theorem hostThen_assoc {γ : Type} (o : Host.Outcome α Fault Refusal) (k : α → Host.Outcome β Fault Refusal)
    (l : β → Host.Outcome γ Fault Refusal) : hostThen (hostThen o k) l = hostThen o fun a => hostThen (k a) l := by
  cases o <;> rfl

end sequencing

@[simp] theorem runInputs_nil (s : State) : runInputs [] s = .next s := rfl

@[simp] theorem runInputs_cons (e : Input) (es : List Input) (s : State) :
    runInputs (e :: es) s = hostThen (takeInput e s) (runInputs es) := rfl

theorem runInputs_append (es fs : List Input) (s : State) :
    runInputs (es ++ fs) s = hostThen (runInputs es s) (runInputs fs) := by
  induction es generalizing s with
  | nil => rfl
  | cons e es ih =>
    rw [List.cons_append, runInputs_cons, runInputs_cons, hostThen_assoc]
    congr 1
    funext t
    exact ih t

/-! What happens does not depend on the queue behind it: every operation commutes with `setInputs`. -/

theorem exec_setInputs (i : Instr) (es : List Input) (s : State) :
    exec i (s.setInputs es) = hostThen (exec i s) fun t => .next (t.setInputs es) := by
  cases i with
  | nop => rfl
  | genPn =>
    change (match checkGenPn s with | some c => _ | none => _) = hostThen (match checkGenPn s with | some c => _ | none => _) _
    cases checkGenPn s <;> rfl
  | encode =>
    change execEncode _ = hostThen (execEncode s) _
    unfold execEncode
    rw [show checkEncode (s.setInputs es) = checkEncode s from rfl, State.setInputs_msg, State.setInputs_mlen]
    cases checkEncode s with
    | some c => rfl
    | none => cases s.msg.readRun s.mlen.toNat <;> rfl
  | spread =>
    change execSpread _ = hostThen (execSpread s) _
    unfold execSpread
    rw [show checkSpread (s.setInputs es) = checkSpread s from rfl,
      show (s.setInputs es).spreadOperands = s.spreadOperands from rfl]
    cases checkSpread s with
    | some c => rfl
    | none => cases s.spreadOperands <;> rfl
  | spreadAdd =>
    change execSpreadAdd _ = hostThen (execSpreadAdd s) _
    unfold execSpreadAdd
    rw [show checkSpread (s.setInputs es) = checkSpread s from rfl,
      show (s.setInputs es).spreadOperands = s.spreadOperands from rfl,
      show (s.setInputs es).smp.readRun (s.setInputs es).payloadLength = s.smp.readRun s.payloadLength from rfl]
    cases checkSpread s with
    | some c => rfl
    | none => cases s.spreadOperands <;> cases s.smp.readRun s.payloadLength <;> rfl
  | correlate =>
    change execCorrelate _ = hostThen (execCorrelate s) _
    unfold execCorrelate
    rw [show checkCorrelate (s.setInputs es) = checkCorrelate s from rfl,
      show (s.setInputs es).correlateOperands = s.correlateOperands from rfl]
    cases checkCorrelate s with
    | some c => rfl
    | none => cases s.correlateOperands <;> rfl
  | decode =>
    change execDecode _ = hostThen (execDecode s) _
    unfold execDecode
    rw [show checkDecode (s.setInputs es) = checkDecode s from rfl, State.setInputs_sym,
      show (s.setInputs es).assembledBytes = s.assembledBytes from rfl]
    cases checkDecode s with
    | some c => rfl
    | none =>
      cases s.sym.readRun (8 * s.assembledBytes) with
      | none => rfl
      | some bits =>
        dsimp only
        cases terminatorIndex (assemble s.assembledBytes bits) <;> rfl

theorem engineTurn_setInputs (es : List Input) (s : State) :
    engineTurn (s.setInputs es) = hostThen (engineTurn s) fun t => .next (t.setInputs es) := by
  unfold engineTurn
  rw [State.setInputs_pending]
  cases s.pending with
  | none => rfl
  | some w =>
    unfold completeWord
    dsimp only
    cases decode w with
    | error e => rfl
    | ok i => exact exec_setInputs i es s

theorem abortCommand_setInputs (i : Instr) (es : List Input) (s : State) :
    abortCommand i (s.setInputs es) = (abortCommand i s).setInputs es := by
  cases i <;> simp only [abortCommand] <;> first | rfl | (rw [apply_ite (State.setInputs es)]; rfl)

theorem softReset_setInputs (es : List Input) (s : State) : (s.setInputs es).softReset = s.softReset.setInputs es := by
  unfold State.softReset abortPending
  rw [State.setInputs_pending]
  cases s.pending with
  | none => rfl
  | some w =>
    dsimp only
    cases decode w with
    | error e => rfl
    | ok i => dsimp only; rw [abortCommand_setInputs]; rfl

theorem busWrite_setInputs (idx : RegIndex) (w : Word) (es : List Input) (s : State) :
    busWrite idx w (s.setInputs es) = (busWrite idx w s).setInputs es := by
  unfold busWrite
  rw [State.setInputs_status, apply_ite (State.setInputs es)]
  congr 1
  cases regAt idx with
  | ctrl =>
    simp only [writeReg]
    rw [softReset_setInputs, apply_ite (State.setInputs es)]
    rfl
  | ptr x => cases x <;> rfl
  | data x => cases x <;> simp only [writeReg, portWrite] <;> rw [apply_ite (State.setInputs es)] <;> rfl
  | _ => rfl

theorem busRead_setInputs (idx : RegIndex) (es : List Input) (s : State) :
    busRead idx (s.setInputs es) = hostThen (busRead idx s) fun t => .next (t.setInputs es) := by
  unfold busRead
  cases regAt idx with
  | data x =>
    change portRead x _ = hostThen (portRead x s) _
    unfold portRead
    rw [State.setInputs_status, show (s.setInputs es).ptr x = s.ptr x by cases x <;> rfl,
      show (s.setInputs es).size x = s.size x by cases x <;> rfl,
      show (s.setInputs es).readCell x (s.ptr x).toNat = s.readCell x (s.ptr x).toNat by cases x <;> rfl]
    split
    · rfl
    · split
      · cases s.readCell x (s.ptr x).toNat <;> cases x <;> rfl
      · cases x <;> rfl
  | ptr x => cases x <;> rfl
  | _ => rfl

/-- One entry of the queue does the same whatever stands behind it. -/
theorem takeInput_setInputs (e : Input) (es : List Input) (s : State) :
    takeInput e (s.setInputs es) = hostThen (takeInput e s) fun t => .next (t.setInputs es) := by
  unfold takeInput
  rw [State.setInputs_rstN]
  split
  · cases e with
    | write idx w => exact congrArg Host.Outcome.next (busWrite_setInputs idx w es s)
    | read idx => exact busRead_setInputs idx es s
    | engine => exact engineTurn_setInputs es s
    | rst level => cases level <;> rfl
  · cases e <;> rfl

end Sys2Proof.Machine
end

