-- ==== Sys2Proof/Laws/PerInstr.lean ====
section
/-! SUPPORT. A statement about every command as syntax: its fields and its word. -/

namespace Sys2Proof.Laws.EncodedWord

/-- A command is well formed, and its word meets R94's three conditions for a legal word. -/
def Statement (i : Instr) : Prop := i.wellFormed = true ∧ wellFormedWord (encode i) = true

theorem nop : Statement .nop := ⟨rfl, by decide⟩
theorem genPn : Statement .genPn := ⟨rfl, by decide⟩
theorem encode : Statement .encode := ⟨rfl, by decide⟩
theorem spread : Statement .spread := ⟨rfl, by decide⟩
theorem spreadAdd : Statement .spreadAdd := ⟨rfl, by decide⟩
theorem correlate : Statement .correlate := ⟨rfl, by decide⟩
theorem decode : Statement .decode := ⟨rfl, by decide⟩

end Sys2Proof.Laws.EncodedWord
end

