-- ==== Sys2Proof/Tests/Slice0.lean ====
section
/-! SUPPORT. Tests with expected results from spec/95_test_vectors.md (the vector is named beside each), the smoke test of the
well-formedness checks, and, for every statement with hypotheses, a state that meets them. -/

namespace Sys2Proof.Tests

open Sys2Proof Sys2Proof.Machine

-- The kernel checks of these theorems one after another: side by side each waits in a thread of its own.
set_option Elab.async false

/-- A next state with a property. -/
def nextSat (o : Host.Outcome State Fault Refusal) (p : State → Bool) : Bool :=
  match o with
  | .next t => p t
  | _ => false

/-- A fault with a given reason. -/
def faultIs (o : Host.Outcome State Fault Refusal) (f : Fault) : Bool :=
  match o with
  | .fault g => decide (g = f)
  | _ => false

/-- A memory whose cells 0, 1, … hold the given numbers. -/
def cells (w : Nat) (vs : List Nat) : Memory w := Memory.cellsFrom 0 (vs.map (BitVec.ofNat w))

/-- The values of a memory whose cells are 0, 1, … . -/
def values {w : Nat} (m : Memory w) : List Nat := m.map (fun c => c.2.toNat)

/-- Section 4's common state: SF = 6, PN = 111101, NSYM = 2, SYM = 10, STRENGTH = 3, SLEN = 14, SMP = 10 in every cell. -/
def spreadState : State :=
  { State.reset with sf := 6#32, nsym := 2#32, slen := 14#32, strength := 3#31, pn := cells 1 [1, 1, 1, 1, 0, 1],
                     sym := cells 1 [1, 0], smp := cells 32 (List.replicate 14 10) }

/-- V5.1's state. -/
def correlateState : State :=
  { State.reset with sf := 6#32, slen := 20#32, pn := cells 1 [1, 1, 1, 1, 0, 1],
                     smp := cells 32 [1, 1, 1, 1, 4, 0, 1, 1, 1, 1, 3, 0, 1, 1, 1, 1, 5, 0, 9, 9] }

/-- "HI" with MLEN = 2 (V3.1). -/
def encodeState : State := { State.reset with mlen := 2#32, msg := cells 8 [0x48, 0x49] }

/-- The symbols of "HI" and its terminator, cut to n (V3.2). -/
def decodeState (n : Nat) : State :=
  { State.reset with nsym := BitVec.ofNat 32 n,
                     sym := cells 1 [0, 1, 0, 0, 1, 0, 0, 0, 0, 1, 0, 0, 1, 0, 0, 1, 0, 0, 0, 0, 0, 0, 0, 0] }

/-- SEED and SF set. -/
def genState (seed sf : Nat) : State := { State.reset with seed := BitVec.ofNat 32 seed, sf := BitVec.ofNat 32 sf }

/-- A block with the word `w` pending. -/
def busyState (w : Word) : State := State.reset.issue w

/-! Well-formedness: a term that each check refuses. -/

theorem test_reservedBits_refused : reservedBitsZero 0x00000200#32 = false ∧ reservedBitsZero 0x80000003#32 = false := by decide
theorem test_accumulate_refused : accumulateOnlySpread 0x00000101#32 = false := by decide
theorem test_opcode_refused : opcodeKnown 0x00000006#32 = false := by decide
theorem test_legal_words : ([0x0, 0x1, 0x2, 0x3, 0x103, 0x4, 0x5].map (fun n => wellFormedWord (BitVec.ofNat 32 n))).all id := by decide
theorem test_default_params_legal : Params.default.legal = true := by decide
theorem test_params_refused :
    [{ pnMax := 0, msgMax := 1, smpMax := 1 : Params }, { pnMax := 2 ^ 31 + 1, msgMax := 1, smpMax := 1 },
     { pnMax := 1, msgMax := 0, smpMax := 1 }, { pnMax := 1, msgMax := 2 ^ 28 + 1, smpMax := 1 },
     { pnMax := 1, msgMax := 1, smpMax := 0 }, { pnMax := 1, msgMax := 1, smpMax := 2 ^ 31 + 1 }].all
      (fun p => !p.legal) = true := by decide

/-! Decoding: words written out from R90's encoding string, and R72's byte lanes. -/

theorem test_decode_gen_pn_bits : decode 0b00000000000000000000000_0_00000001#32 = .ok .genPn := by decide
theorem test_decode_encode_bits : decode 0b00000000000000000000000_0_00000010#32 = .ok .encode := by decide
theorem test_decode_spread_add_bits : decode 0b00000000000000000000000_1_00000011#32 = .ok .spreadAdd := by decide
theorem test_decode_correlate_bits : decode 0b00000000000000000000000_0_00000100#32 = .ok .correlate := by decide
theorem test_decode_nop_bits : decode 0b00000000000000000000000_0_00000000#32 = .ok .nop := by decide
theorem test_decode_lanes : decodeBytes [0x03#8, 0x01#8, 0x00#8, 0x00#8, 0xFF#8] = .ok (.spreadAdd, [0xFF#8]) := by decide
theorem test_decode_sub_word : decodeBytes [0x03#8, 0x01#8] = .error .subWord := by decide
theorem test_decode_table_word : decodeTableWord 32 0x103 = some .spreadAdd ∧ decodeTableWord 32 0x106 = none := by decide

/-! PN generator: V2.1, V2.2, V2.3. -/

theorem test_scramble_zero : scramble 0#32 = 0xE220A8397B1DCDAF#64 := by decide
theorem test_lfsr_fourth_state : lfsrNext^[4] 0xE220A8397B1DCDAF#64 = 0x97220A8397B1DCDA#64 := by decide
theorem test_gen_pn_seed_42 :
    nextSat (exec .genPn (genState 0x2A 16)) (fun t => values t.pn = [1, 0, 1, 0, 1, 0, 0, 1, 0, 1, 1, 1, 0, 1, 1, 0]) := by
  decide +kernel
theorem test_gen_pn_sf_range :
    nextSat (exec .genPn (genState 0 4097)) (fun t => t.status.toWord = 0x206#32 && t.pn = []) := by decide +kernel

/-! Bit codec: V3.1, V3.2. -/

theorem test_encode_hi : nextSat (exec .encode encodeState) (fun t => t.nsym = 24#32 &&
    values t.sym = [0, 1, 0, 0, 1, 0, 0, 0, 0, 1, 0, 0, 1, 0, 0, 1, 0, 0, 0, 0, 0, 0, 0, 0]) := by decide +kernel
theorem test_encode_uninit :
    faultIs (exec .encode { encodeState with msg := cells 8 [0x48] }) (.uninit (.command .encode)) := by decide +kernel
theorem test_decode_hi : nextSat (exec .decode (decodeState 24)) (fun t => t.status.toWord = 0x012#32 &&
    values t.msg = [0x48, 0x49, 0x00] && t.mlen = 2#32) := by decide +kernel
theorem test_decode_no_terminator : nextSat (exec .decode (decodeState 20)) (fun t => t.status.toWord = 0x506#32 &&
    values t.msg = [0x48, 0x49] && t.mlen = 2#32) := by decide +kernel

/-! Spreader: V4.1, V4.3, V4.2, V4.4. -/

theorem test_spread_pads : nextSat (exec .spread spreadState) (fun t => t.status.toWord = 0x002#32 &&
    values t.smp = [3, 3, 3, 3, 0xFFFFFFFD, 3, 0xFFFFFFFD, 0xFFFFFFFD, 0xFFFFFFFD, 0xFFFFFFFD, 3, 0xFFFFFFFD, 0, 0]) := by
  decide +kernel
theorem test_spread_capacity : nextSat (exec .spread { spreadState with slen := 11#32 })
    (fun t => t.status.toWord = 0x406#32 && t.smp = spreadState.smp) := by decide +kernel
theorem test_spread_add_carrier : nextSat (exec .spreadAdd spreadState) (fun t => t.status.toWord = 0x002#32 &&
    values t.smp = [13, 13, 13, 13, 7, 13, 7, 7, 7, 7, 13, 7, 10, 10]) := by decide +kernel
theorem test_spread_add_wraps :
    nextSat (exec .spreadAdd { spreadState with nsym := 1#32, slen := 6#32, smp := cells 32 (List.replicate 6 0x7FFFFFFF) })
      (fun t => t.status.ovf &&
        values t.smp = [0x80000002, 0x80000002, 0x80000002, 0x80000002, 0x7FFFFFFC, 0x80000002]) := by decide +kernel

/-! Correlator: V5.1, V5.3. -/

theorem test_correlate_threshold : nextSat (exec .correlate correlateState) (fun t => values t.sym = [0, 1, 0] &&
    t.nsym = 3#32 && t.corr = 0xFFFFFFFFFFFFFFFF#64 && !t.status.clip) := by decide +kernel
theorem test_correlate_most_negative :
    nextSat (exec .correlate { correlateState with slen := 6#32, smp := cells 32 (List.replicate 6 0x80000000) })
      (fun t => values t.sym = [0] && t.corr = 0xFFFFFFFE00000000#64) := by decide +kernel

/-! Control, bus, reset: V6.2, V6.8, V6.10, V6.13, V6.14, V6.18, and P8's case (c). -/

theorem test_nop_irq : (advanceBy 3 { State.reset with inputs := [opW .ctrl 1#32, opCmd .nop, .engine] }).irq = true := by
  decide +kernel
theorem test_error_is_sticky :
    (advanceBy 4 { State.reset with inputs := [opW .cmd 6#32, .engine, opCmd .nop, .engine] }).status.toWord = 0x006#32 := by
  decide +kernel
theorem test_blocked_write : (advanceBy 4 { State.reset with
    inputs := [opW .sf 6#32, opCmd .genPn, opW .sf 7#32, opR .status] }).rdata = 0x009#32 := by decide +kernel
theorem test_port_read_out_of_range :
    nextSat (busRead (Reg.data .pn).index { State.reset with pnPtr := 0xFFFFFFFF#32 })
      (fun t => t.rdata = 0#32 && t.status.herr && t.pnPtr = 0#32) := by decide +kernel
theorem test_port_write_truncates :
    values (busWrite (Reg.data .msg).index 0x1234#32 State.reset).msg = [0x34] := by decide +kernel
theorem test_soft_reset_aborts :
    (advanceBy 3 { State.reset with inputs := [opW .sf 6#32, opCmd .genPn, opW .ctrl 2#32],
                                    pn := cells 1 [1, 1, 1, 1, 1, 1, 1] }).pn = [(6, 1#1)] := by decide +kernel
theorem test_aborted_cell_faults :
    (advanceBy 6 { State.reset with inputs := [opW .sf 6#32, opCmd .genPn, opW .ctrl 2#32, opW .sf 6#32,
      opW (.ptr .pn) 0#32, opR (.data .pn)] }).faultMark = some (.uninit (.dataPort .pn)) := by decide +kernel
/-- R244: an access left, a command in flight and a fault each postpone the end; an engine turn or a reset level left does
not. -/
theorem test_run_ended :
    ({ State.reset with inputs := [.engine, .rst false, .rst true] } : State).runEnded = true ∧
    ({ State.reset with inputs := [.engine, opR .status] } : State).runEnded = false ∧
    ({ State.reset with inputs := [opW .sf 6#32] } : State).runEnded = false ∧ (busyState 0x0#32).runEnded = false ∧
    ({ State.reset with faultMark := some (.uninit (.dataPort .pn)) } : State).runEnded = false := by decide +kernel
theorem test_fetch_word_runs : nextSat (step (State.reset.withFetchWord 32 0x1)) (fun t => t.status.toWord = 0x206#32) := by
  decide +kernel

/-! Witnesses: states that meet the hypotheses of each statement, at the boundaries of its clauses. -/

theorem witness_EncodedCommandDecodesBack : Instr.spreadAdd.wellFormed = true := by decide

theorem witness_StepRunsPendingCommand :
    ∀ s ∈ [State.reset.withFetchWord 32 0x3, busyState 0x3#32], s.faultMark = none ∧ s.rstN = true ∧
      s.inputs.headD .engine = .engine ∧ s.pending = some 0x3#32 ∧ decode 0x3#32 = .ok .spread ∧
      Instr.spread.wellFormed = true ∧ State.reset.faultMark = none ∧ State.reset.rstN = true ∧
      State.reset.inputs.headD .engine = .engine ∧ State.reset.pending = none := by decide +kernel

theorem witness_IllegalWordCompletesWithIllegal :
    ([0x6#32, 0x101#32, 0x200#32, 0x80000003#32, 0xFF#32] : List Word).all (fun w =>
      decide ((busyState w).faultMark = none ∧ (busyState w).rstN = true ∧
        (busyState w).inputs.headD .engine = .engine ∧ (busyState w).pending = some w ∧ wellFormedWord w = false)) = true := by
  decide +kernel

theorem witness_StepMakesNextHostAccess :
    ∀ e ∈ [Input.write 0x3F#6 0#32, .read 0x00#6], ({ State.reset with inputs := [e] } : State).faultMark = none ∧
      ({ State.reset with inputs := [e] } : State).rstN = true := by decide +kernel

theorem witness_GenPnWritesLfsrStream :
    (∀ n ∈ [0, 4097], (genState 0 n).sf.toNat = 0 ∨ (genState 0 n).params.pnMax < (genState 0 n).sf.toNat) ∧
    ∀ n ∈ [1, 4096], 1 ≤ (genState 0 n).sf.toNat ∧ (genState 0 n).sf.toNat ≤ (genState 0 n).params.pnMax := by decide +kernel

/-- SF at both ends of its range. -/
theorem witness_GenPnIsDeterministic :
    (genState 7 1).seed = ({ spreadState with seed := 7#32, sf := 1#32 } : State).seed ∧
    (genState 7 1).sf = ({ spreadState with seed := 7#32, sf := 1#32 } : State).sf ∧
    1 ≤ (genState 7 1).sf.toNat ∧ (genState 7 1).sf.toNat ≤ (genState 7 1).params.pnMax ∧
    (genState 7 4096).sf.toNat ≤ (genState 7 4096).params.pnMax ∧
    nextSat (exec .genPn (genState 7 1)) (fun _ => true) = true ∧
    nextSat (exec .genPn { spreadState with seed := 7#32, sf := 1#32 }) (fun _ => true) = true := by decide +kernel

theorem witness_DistinctSeedsWriteDistinctChips :
    (genState 0 64).seed ≠ (genState 1 64).seed ∧ (genState 0 64).sf = (genState 1 64).sf ∧ 64 ≤ (genState 0 64).sf.toNat ∧
      (genState 0 64).sf.toNat ≤ (genState 0 64).params.pnMax ∧
      nextSat (exec .genPn (genState 0 64)) (fun _ => true) = true ∧
      nextSat (exec .genPn (genState 1 64)) (fun _ => true) = true := by decide +kernel

theorem witness_ShortSequencesReadScrambledSeed :
    ∀ n ∈ [1, 59, 60, 61, 4096], 1 ≤ (genState 5 n).sf.toNat ∧ (genState 5 n).sf.toNat ≤ (genState 5 n).params.pnMax := by
  decide +kernel

theorem witness_SixtyFourChipsDetermineState : lfsrChips 64 1#64 = lfsrChips 64 1#64 := rfl

theorem witness_ScrambleRuleAndInjection : scramble 0xFFFFFFFF#32 = scramble 0xFFFFFFFF#32 := rfl

theorem witness_LfsrStepShiftsAndFeedsBack : ∀ i ∈ [0, 59, 62, 63], i < 64 := by decide

/-- MLEN = 4096 fails the check, 4095 passes it (its cells empty: the fault), and "HI" and the empty message are readable. -/
theorem witness_EncodeWritesMessageSymbols :
    ((4096 : Int) - 1 < (({ State.reset with mlen := 4096#32 } : State).mlen.toNat : Int)) ∧
    ((({ State.reset with mlen := 4095#32 } : State).mlen.toNat : Int) ≤ (4096 : Int) - 1 ∧
      State.reset.msg.read 4094 = none) ∧
    ((encodeState.mlen.toNat : Int) ≤ (encodeState.params.msgMax : Int) - 1 ∧ encodeState.params.legal = true ∧
      ∀ b, b < encodeState.mlen.toNat → encodeState.msg.read b = some ((fun k => if k = 0 then 0x48#8 else 0x49#8) b)) ∧
    ∀ b, b < State.reset.mlen.toNat → State.reset.msg.read b = some 0x00#8 := by decide +kernel

/-- NSYM = 32769 fails the check, 32768 passes it (its cells empty: the fault); 24 symbols end at byte 2, 16 hold no zero
byte, and 7 make no byte. -/
theorem witness_DecodeAssemblesBytes :
    8 * 4096 < ({ State.reset with nsym := 32769#32 } : State).nsym.toNat ∧
    (({ State.reset with nsym := 32768#32 } : State).nsym.toNat ≤ 8 * 4096 ∧ State.reset.sym.read 0 = none) ∧
    (∀ n ∈ [7, 16, 24], (decodeState n).nsym.toNat ≤ 8 * (decodeState n).params.msgMax ∧
      ∀ k, k < 8 * ((decodeState n).nsym.toNat / 8) →
        (decodeState n).sym.read k = some ((decodeState n).sym.getD k (0, 0#1)).2) ∧
    nextSat (exec .decode (decodeState 24)) (fun t => decide (t.msg.read 2 = some 0x00#8) &&
      decide (t.msg.read 0 ≠ some 0x00#8) && decide (t.msg.read 1 ≠ some 0x00#8)) = true ∧
    nextSat (exec .decode (decodeState 16)) (fun t => decide (t.msg.read 0 ≠ some 0x00#8) &&
      decide (t.msg.read 1 ≠ some 0x00#8)) = true := by decide +kernel

/-- A message with no zero byte, and one whose byte 0 is zero. -/
theorem witness_EncodeThenDecodeReturnsMessage :
    encodeState.params.legal = true ∧ (encodeState.mlen.toNat : Int) ≤ (encodeState.params.msgMax : Int) - 1 ∧
    (∀ b, b < encodeState.mlen.toNat → encodeState.msg.read b = some ((fun k => if k = 0 then 0x48#8 else 0x49#8) b)) ∧
    (∀ b, b < encodeState.mlen.toNat → (fun k => if k = 0 then 0x48#8 else 0x49#8) b ≠ 0x00#8) ∧
    (∀ b, b < encodeState.mlen.toNat →
      ({ encodeState with msg := cells 8 [0, 0x49] } : State).msg.read b =
        some ((fun k => if k = 0 then 0x00#8 else 0x49#8) b)) := by decide +kernel

theorem witness_ChipValueAndPlacement :
    nextSat (exec .spread spreadState) (fun t => t.status.errcode = .noError) = true ∧ 1 < spreadState.nsym.toNat ∧
      5 < spreadState.sf.toNat ∧ spreadState.sym.read 1 = some 0#1 ∧ spreadState.pn.read 5 = some 1#1 := by decide +kernel

/-- Each clause of the two spreader statements: SF 0 and 4097; NSYM 32769, SLEN 131073; SLEN one short; the exact fit SLEN = 12
with readable cells; NSYM = 0, where PN is not read; an empty cell. -/
theorem witness_SpreadWritesPaddedPayload :
    (∀ n ∈ [0, 4097], (genState 0 n).sf.toNat = 0 ∨ (genState 0 n).params.pnMax < (genState 0 n).sf.toNat) ∧
    (8 * spreadState.params.msgMax < ({ spreadState with nsym := 32769#32 } : State).nsym.toNat ∧
      spreadState.params.smpMax < ({ spreadState with slen := 131073#32 } : State).slen.toNat) ∧
    ({ spreadState with slen := 11#32 } : State).slen.toNat < spreadState.nsym.toNat * spreadState.sf.toNat ∧
    SpreadChecksPass { spreadState with slen := 12#32 } ∧
    (∀ i, i < spreadState.nsym.toNat → spreadState.sym.read i = some ((fun k => if k = 0 then 1#1 else 0#1) i)) ∧
    (∀ j, j < spreadState.sf.toNat → spreadState.pn.read j = some ((fun k => if k = 4 then 0#1 else 1#1) j)) ∧
    SpreadChecksPass { spreadState with nsym := 0#32, pn := [] } ∧
    (SpreadChecksPass { spreadState with sym := [] } ∧ ({ spreadState with sym := [] } : State).sym.read 0 = none) := by
  decide +kernel

theorem witness_SpreadAddAddsPayloadModulo :
    SpreadChecksPass { spreadState with slen := 12#32 } ∧
    (∀ i, i < spreadState.nsym.toNat → spreadState.sym.read i = some ((fun k => if k = 0 then 1#1 else 0#1) i)) ∧
    (∀ j, j < spreadState.sf.toNat → spreadState.pn.read j = some ((fun k => if k = 4 then 0#1 else 1#1) j)) ∧
    (∀ k, k < spreadState.slen.toNat → spreadState.smp.read k = some 10#32) ∧
    (SpreadChecksPass { spreadState with smp := [] } ∧ ({ spreadState with smp := [] } : State).smp.read 11 = none) := by
  decide +kernel

theorem witness_SixteenBitCarrierNeverWraps :
    spreadState.strength.toNat < 2 ^ 31 - 2 ^ 15 ∧
    (∀ k, k < spreadState.nsym.toNat * spreadState.sf.toNat → spreadState.smp.read k = some 10#32) ∧
    nextSat (exec .spreadAdd spreadState) (fun _ => true) = true := by decide +kernel

theorem witness_SpreadAddGivesStegoSamples :
    SpreadChecksPass spreadState ∧
    (∀ i, i < spreadState.nsym.toNat → spreadState.sym.read i = some ((fun k => if k = 0 then 1#1 else 0#1) i)) ∧
    (∀ j, j < spreadState.sf.toNat → spreadState.pn.read j = some ((fun k => if k = 4 then 0#1 else 1#1) j)) ∧
    (∀ k, k < spreadState.slen.toNat → spreadState.smp.read k = some 10#32) ∧
    nextSat (exec .spreadAdd spreadState) (fun t => !t.status.ovf) = true := by decide +kernel

/-- SLEN = 131073 fails, SLEN = 5 decides no group, SLEN = 20 decides three, an empty cell. -/
theorem witness_CorrelateDecidesFullGroups :
    correlateState.params.smpMax < ({ correlateState with slen := 131073#32 } : State).slen.toNat ∧
    (CorrelateChecksPass { correlateState with slen := 5#32 } ∧ groupsDecided { correlateState with slen := 5#32 } = 0) ∧
    (CorrelateChecksPass correlateState ∧ groupsDecided correlateState = 3 ∧
      (∀ k, k < groupsDecided correlateState * correlateState.sf.toNat →
        correlateState.smp.read k = some (correlateState.smp.getD k (0, 0#32)).2) ∧
      (∀ j, j < correlateState.sf.toNat → correlateState.pn.read j = some ((fun k => if k = 4 then 0#1 else 1#1) j))) ∧
    ({ correlateState with smp := [] } : State).smp.read 17 = none := by decide +kernel

theorem witness_CorrelationIsExact :
    CorrelateChecksPass correlateState ∧ 0 < groupsDecided correlateState ∧
      (∀ k, k < groupsDecided correlateState * correlateState.sf.toNat →
        correlateState.smp.read k = some (correlateState.smp.getD k (0, 0#32)).2) ∧
      (∀ j, j < correlateState.sf.toNat → correlateState.pn.read j = some ((fun k => if k = 4 then 0#1 else 1#1) j)) ∧
      nextSat (exec .correlate correlateState) (fun _ => true) = true := by decide +kernel

theorem witness_SlicerThresholdIsStrictZero : (0 : Int) < 1 ∧ (-1 : Int) < 0 := by decide

theorem witness_MatchedFilterSeparatesSymbolAndCarrier :
    SpreadChecksPass spreadState ∧
    (∀ i, i < spreadState.nsym.toNat → spreadState.sym.read i = some ((fun k => if k = 0 then 1#1 else 0#1) i)) ∧
    (∀ j, j < spreadState.sf.toNat → spreadState.pn.read j = some ((fun k => if k = 4 then 0#1 else 1#1) j)) ∧
    (∀ k, k < spreadState.slen.toNat → spreadState.smp.read k = some 10#32) ∧
    nextSat (exec .spreadAdd spreadState) (fun t => !t.status.ovf) = true ∧
    nextSat (exec .spreadAdd { spreadState with slen := 12#32 }) (fun t => !t.status.ovf) = true ∧
    ({ spreadState with slen := 12#32 } : State).slen.toNat = spreadState.nsym.toNat * spreadState.sf.toNat := by
  decide +kernel

theorem witness_SpreadThenCorrelateRecoversSymbols :
    SpreadChecksPass spreadState ∧ 1 ≤ spreadState.strength.toNat ∧ 0 < spreadState.nsym.toNat ∧
      nextSat (exec .spread spreadState) (fun _ => true) = true := by decide +kernel

theorem witness_StartedCommandCompletes : ¬ ReadsEmptyCell .genPn State.reset := fun h => h

theorem witness_CommandFaultsExactlyOnEmptyCell : ReadsEmptyCell .encode { State.reset with mlen := 1#32 } :=
  ⟨by decide, 0, by decide, rfl⟩

/-- A completion with each of the codes 0, 1, 2, 3, 4 and 5. -/
theorem witness_CompletionWritesStatus :
    nextSat (completeWord 0x0#32 State.reset) (fun t => t.status.errcode = .noError) = true ∧
    nextSat (completeWord 0x6#32 State.reset) (fun t => t.status.errcode = .illegal) = true ∧
    nextSat (completeWord 0x1#32 State.reset) (fun t => t.status.errcode = .sfRange) = true ∧
    nextSat (completeWord 0x2#32 { State.reset with mlen := 4096#32 }) (fun t => t.status.errcode = .lenRange) = true ∧
    nextSat (completeWord 0x3#32 { spreadState with slen := 11#32 }) (fun t => t.status.errcode = .capacity) = true ∧
    nextSat (completeWord 0x5#32 State.reset) (fun t => t.status.errcode = .noTerm) = true := by decide +kernel

theorem witness_CheckErrorWritesOnlyStatus :
    nextSat (completeWord 0x103#32 { spreadState with slen := 11#32 })
      (fun t => t.status.errcode ∈ [ErrCode.illegal, ErrCode.sfRange, ErrCode.lenRange, ErrCode.capacity]) = true := by
  decide +kernel

/-- V4.7's rows. -/
theorem witness_FirstFailingCheckIsReported :
    firstCheckError 0x3#32 { spreadState with sf := 0#32, nsym := 40000#32, slen := 200000#32 } = .sfRange ∧
    firstCheckError 0x3#32 { spreadState with nsym := 32769#32 } = .lenRange ∧
    firstCheckError 0x3#32 { spreadState with slen := 131073#32 } = .lenRange ∧
    firstCheckError 0x3#32 { spreadState with nsym := 3#32 } = .capacity ∧
    firstCheckError 0x3#32 spreadState = .noError ∧ firstCheckError 0x80000003#32 spreadState = .illegal := by decide +kernel

theorem witness_CommandsWriteOnlyTheirResults : ∃ t, exec .nop spreadState = .next t := ⟨_, rfl⟩

/-- The last cell with and without a value, and the first index past the memory. -/
theorem witness_DataPortReadRule :
    State.reset.status.busy = false ∧
    ((State.ptr .pn { State.reset with pnPtr := 4095#32, pn := [(4095, 1#1)] }).toNat < State.size .pn State.reset ∧
      State.readCell .pn 4095 { State.reset with pn := [(4095, 1#1)] } = some 1#32) ∧
    State.readCell .pn 4095 State.reset = none ∧
    State.size .pn State.reset ≤ (State.ptr .pn { State.reset with pnPtr := 4096#32 }).toNat := by decide +kernel

theorem witness_DataPortWriteRule :
    State.reset.status.busy = false ∧
    (State.ptr .smp { State.reset with smpPtr := 131071#32 }).toNat < State.size .smp State.reset ∧
    State.size .smp State.reset ≤ (State.ptr .smp { State.reset with smpPtr := 131072#32 }).toNat := by decide +kernel

theorem witness_PointerArithmetic :
    State.reset.status.busy = false ∧
    nextSat (busRead (Reg.data .sym).index { State.reset with symPtr := 32768#32 }) (fun t => t.symPtr = 32769#32) = true ∧
    State.size .sym State.reset ≤ (State.ptr .sym { State.reset with symPtr := 32768#32 }).toNat := by decide +kernel

theorem witness_BlockedAccessesAreDropped :
    (busyState 0x1#32).status.busy = true ∧ (0#32).getLsbD 1 = false ∧ (2#32).getLsbD 1 = true ∧
      (∀ x, (0x17#6 : RegIndex) ≠ (Reg.data x).index) ∧ 0x17 ≤ (0x17#6).toNat ∧ 0x17 ≤ (0x3F#6).toNat := by
  refine ⟨by decide, by decide, by decide, fun x => ?_, by decide, by decide⟩
  cases x <;> decide

theorem witness_ConfigurationWriteStoresOnlyItsRegister : State.reset.status.busy = false ∧ (1#32).getLsbD 1 = false := by
  decide

theorem witness_ReservedAndReadOnlyAccesses : 0x17 ≤ (0x17#6).toNat ∧ 0x17 ≤ (0x3F#6).toNat ∧
    ¬ 0x17 ≤ (0x16#6).toNat := by decide

theorem witness_CommandIssueLatchesWord : (busyState 0#32).status.busy = true ∧ State.reset.status.busy = false := by decide

theorem witness_IrqIsEnableAndDone :
    nextSat (completeWord 0x0#32 { State.reset with ie := true }) (fun t => t.irq) = true ∧ (2#32).getLsbD 1 = true ∧
      (0#32).getLsbD 0 = false := by decide +kernel

theorem witness_ReadsChangeOnlyPortState :
    nextSat (busRead 0x00#6 State.reset) (fun _ => true) = true ∧
    nextSat (busRead (Reg.data .smp).index spreadState) (fun _ => true) = true := by decide +kernel

/-- A STATUS write while GEN_PN is pending. -/
theorem witness_ResultsChangeOnlyAtCompletion :
    (busyState 0x1#32).status.busy = true ∧ (busyState 0x1#32).rstN = true ∧
    (∀ w : Word, Input.write 0x02#6 0x40#32 = .write 0x01#6 w → w.getLsbD 1 = false) ∧
    Input.write 0x02#6 0x40#32 ≠ .engine ∧ Input.write 0x02#6 0x40#32 ≠ .rst false ∧
    nextSat (step { busyState 0x1#32 with inputs := [.write 0x02#6 0x40#32] }) (fun _ => true) = true :=
  ⟨by decide, by decide, fun _ h => by simp at h, by decide, by decide, by decide +kernel⟩

theorem witness_PollsLeavePendingCommandAlone :
    ({ busyState 0x1#32 with inputs := opWait 2 } : State).pending = some 0x1#32 ∧
    (busyState 0x1#32).status.busy = true ∧ (busyState 0x1#32).faultMark = none ∧ (busyState 0x1#32).rstN = true := by decide

/-- A target of every row of R233's table, the last cell each, and the cell above it. -/
theorem witness_SoftResetAndAbort :
    (2#32).getLsbD 1 = true ∧
    AbortTarget ((genState 0 6).issue 0x1#32) .pn 5 ∧
    ¬ AbortTarget ((genState 0 6).issue 0x1#32) .pn 6 ∧
    AbortTarget (encodeState.issue 0x2#32) .sym 23 ∧
    ¬ AbortTarget (encodeState.issue 0x2#32) .sym 24 ∧
    AbortTarget (spreadState.issue 0x3#32) .smp 13 ∧
    AbortTarget (spreadState.issue 0x103#32) .smp 11 ∧
    ¬ AbortTarget (spreadState.issue 0x103#32) .smp 12 ∧
    AbortTarget (correlateState.issue 0x4#32) .sym 2 ∧
    ¬ AbortTarget (correlateState.issue 0x4#32) .sym 3 ∧
    AbortTarget ((decodeState 20).issue 0x5#32) .msg 1 ∧
    ¬ AbortTarget ((decodeState 20).issue 0x5#32) .msg 2 ∧
    ¬ AbortTarget State.reset .pn 0 := by
  refine ⟨?_, ?_, ?_, ?_, ?_, ?_, ?_, ?_, ?_, ?_, ?_, ?_, ?_⟩ <;> decide +kernel

theorem witness_ExternalResetHoldsBlock :
    ({ busyState 0x1#32 with inputs := [.rst false] } : State).faultMark = none ∧
    ({ State.reset with rstN := false, inputs := [.read 0x00#6] } : State).rstN = false ∧
    (∀ idx : RegIndex, Input.rst true ≠ .read idx) := ⟨rfl, rfl, fun _ h => by cases h⟩

theorem witness_FaultMarkIsNeverCleared :
    faultIs (step { State.reset with inputs := [opR (.data .pn)] }) (.uninit (.dataPort .pn)) = true ∧
    ({ State.reset with faultMark := some (.uninit (.command .encode)) } : State).faultMark =
      some (.uninit (.command .encode)) := by decide +kernel

theorem witness_StepKeepsMemoriesCanonical : MemoriesCanonical spreadState ∧
    nextSat (step (spreadState.withFetchWord 32 0x103)) (fun _ => true) = true := by decide +kernel

theorem witness_StepKeepsCellsInRange : CellsInRange spreadState ∧
    nextSat (step (spreadState.withFetchWord 32 0x3)) (fun _ => true) = true := by decide +kernel

theorem witness_StepKeepsBusyMatchingPending : BusyMatchesPending (busyState 0x0#32) ∧ BusyMatchesPending State.reset ∧
    nextSat (step (busyState 0x0#32)) (fun _ => true) = true := by decide +kernel

theorem witness_StepKeepsParameters : nextSat (step State.reset) (fun _ => true) = true := by decide +kernel

/-! The host's sequences. -/

/-- R219: with SF = 0 CORRELATE reports SF_RANGE, and the verification fails although DECODE finds the message. -/
theorem test_verify_fails_on_correlate_error :
    (match hostVerify (fun _ => true) [0x48#8, 0x49#8] (fun _ => 0) { decodeState 24 with sf := 0#32 } with
     | .next r => decide (r.1 = false) && r.2.status.term && decide (r.2.mlen = 2#32)
     | _ => false) = true := by decide +kernel

theorem witness_HostSequenceRunsAsSteps :
    State.reset.faultMark = none ∧ nextSat (runInputs [opW .sf 6#32] State.reset) (fun _ => true) = true ∧
      faultIs (runInputs [opR (.data .pn)] State.reset) (.uninit (.dataPort .pn)) = true := by decide +kernel

theorem witness_EmbedVerificationVerdict :
    nextSat (runInputs (opRun .correlate 0) correlateState)
      (fun c => nextSat (runInputs (opRun .decode 0) c) (fun _ => true)) = true := by decide +kernel

/-- The empty message in eight silent samples, SF = 1 and STRENGTH = 1: embed returns a signal. -/
theorem witness_ExtractReturnsEmbeddedMessage :
    State.reset.rstN = true ∧ State.reset.status.busy = false ∧
      (match hostEmbed 1#32 0#32 1#32 (fun _ => true) [] [List.replicate 8 0#32] (fun _ _ => 0) State.reset with
       | .next (.ok [_], _) => true
       | _ => false) = true := by decide +kernel

end Sys2Proof.Tests
end

section
/-! The parameters N_PN_MAX, N_MSG_MAX and N_SMP_MAX (00_scope.md R4) through every operation: the host's accesses,
the commands, the external reset, then one entry of the queue. -/

namespace Sys2Proof.Machine

variable {s t : State}

/-! The host's accesses. -/

theorem portRead_keeps_params {x : MemName} (h : portRead x s = .next t) : t.params = s.params := by
  obtain ⟨-, rfl⟩ | ⟨-, -, v, -, rfl⟩ | ⟨-, -, rfl⟩ := portRead_next h <;> simp

theorem busRead_keeps_params {idx : RegIndex} (h : busRead idx s = .next t) : t.params = s.params := by
  by_cases hd : ∃ x, regAt idx = .data x
  · obtain ⟨x, hx⟩ := hd
    exact portRead_keeps_params (busRead_data hx ▸ h)
  · rw [busRead_of_not_data (not_exists.mp hd)] at h
    cases h
    exact State.setRdata_params _ s

@[simp] theorem portWrite_params (x : MemName) (w : Word) (s : State) : (portWrite x w s).params = s.params := by
  unfold portWrite
  split <;> simp

@[simp] theorem writeReg_params (r : Reg) (w : Word) (s : State) : (writeReg r w s).params = s.params := by
  cases r with
  | ctrl =>
    dsimp only [writeReg]
    split
    · exact softReset_params s
    · rfl
  | ptr x => exact State.setPtr_params x w s
  | data x => exact portWrite_params x w s
  | _ => rfl

@[simp] theorem busWrite_params (idx : RegIndex) (w : Word) (s : State) : (busWrite idx w s).params = s.params := by
  obtain ⟨-, -, h⟩ | ⟨-, h⟩ := busWrite_cases idx w s <;> simp [h]

/-! The engine. -/

/-- No command writes the parameters, on a failed check or on success. -/
theorem exec_keeps_params {i : Instr} (h : exec i s = .next t) : t.params = s.params := by
  cases i with
  | nop => cases h; exact State.completeOk_params s
  | genPn => obtain ⟨c, -, rfl⟩ | ⟨-, rfl⟩ := execGenPn_next h <;> simp
  | encode => obtain ⟨c, -, rfl⟩ | ⟨bytes, -, -, rfl⟩ := execEncode_next h <;> simp
  | spread => obtain ⟨c, -, rfl⟩ | ⟨symbols, chips, -, -, rfl⟩ := execSpread_next h <;> simp
  | spreadAdd => obtain ⟨c, -, rfl⟩ | ⟨symbols, chips, carrier, -, -, -, rfl⟩ := execSpreadAdd_next h <;> simp
  | correlate => obtain ⟨c, -, rfl⟩ | ⟨samples, chips, -, -, rfl⟩ := execCorrelate_next h <;> simp
  | decode =>
    obtain ⟨c, -, rfl⟩ | ⟨bits, -, -, ⟨b, -, rfl⟩ | ⟨-, rfl⟩⟩ := execDecode_next h <;> simp

theorem engineTurn_keeps_params (h : engineTurn s = .next t) : t.params = s.params := by
  obtain ⟨-, rfl⟩ | ⟨w, e, -, -, rfl⟩ | ⟨w, i, -, -, hi⟩ := engineTurn_next h
  · rfl
  · exact State.completeError_params .illegal s
  · exact exec_keeps_params hi

/-! The external reset, and one entry of the queue. -/

/-- While rst_n = 0 the block takes its reset state again, for the same parameters (70_reset_and_hazards.md R230). -/
@[simp] theorem heldInReset_params (e : Input) (s : State) : (heldInReset e s).params = s.params := by
  cases e <;> simp [heldInReset]

theorem takeInput_keeps_params {e : Input} (h : takeInput e s = .next t) : t.params = s.params := by
  obtain ⟨-, rfl⟩ | ⟨-, hrun⟩ := takeInput_next h
  · exact heldInReset_params e s
  · obtain ⟨idx, w, -, rfl⟩ | ⟨idx, -, hr⟩ | ⟨-, he⟩ | ⟨-, rfl⟩ | ⟨-, rfl⟩ := hrun
    · exact busWrite_params idx w s
    · exact busRead_keeps_params hr
    · exact engineTurn_keeps_params he
    · rfl
    · simp

/-- Settles O56: a step takes one entry off the queue, and no entry changes the parameters. -/
theorem stepKeepsParameters : Obligations.StepKeepsParameters := by
  intro s t h
  obtain ⟨-, ht⟩ := step_next h
  exact (takeInput_keeps_params ht).trans (State.setInputs_params _ s)

end Sys2Proof.Machine
end

section
/-! What a command's completion can be, and STATUS.BUSY with PENDING (10_state.md R45) through every operation: the
host's accesses, the commands, the resets, then one entry of the queue. -/

namespace Sys2Proof.Machine

variable {s t : State}

/-! The shape of a completion. -/

/-- The states in which a command can complete (44_control.md R182), with the values it computes left open: which
results it stores (10_state.md R48), and how it ends. -/
inductive CompletionOf (s : State) : Instr → State → Prop where
  | checkError (i : Instr) (c : ErrCode) : CompletionOf s i (s.completeError c)
  | nop : CompletionOf s .nop s.completeOk
  | genPn (chips : List PolBit) : CompletionOf s .genPn (s.storePn chips).completeOk
  | encode (bits : List PolBit) : CompletionOf s .encode (s.storeSymbols bits).completeOk
  | spread (samples : List Word) : CompletionOf s .spread (s.storeSamples samples).completeOk
  | spreadAdd (samples : List Word) (wrapped : Bool) :
      CompletionOf s .spreadAdd ((s.storeSamples samples).raiseOvf wrapped).completeOk
  | correlate (bits : List PolBit) (z : Int) (clip : Bool) :
      CompletionOf s .correlate ((s.storeSymbols bits).storeCorrelation z clip).completeOk
  | decode (bytes : List Byte) (mlen : Nat) : CompletionOf s .decode (s.storeMessage bytes mlen true).completeOk
  | decodeNoTerm (bytes : List Byte) (mlen : Nat) :
      CompletionOf s .decode ((s.storeMessage bytes mlen false).completeError .noTerm)

theorem completionOf_of_exec {i : Instr} (h : exec i s = .next t) : CompletionOf s i t := by
  cases i with
  | nop => cases h; exact .nop
  | genPn => obtain ⟨c, -, rfl⟩ | ⟨-, rfl⟩ := execGenPn_next h <;> constructor
  | encode => obtain ⟨c, -, rfl⟩ | ⟨bytes, -, -, rfl⟩ := execEncode_next h <;> constructor
  | spread => obtain ⟨c, -, rfl⟩ | ⟨symbols, chips, -, -, rfl⟩ := execSpread_next h <;> constructor
  | spreadAdd =>
    obtain ⟨c, -, rfl⟩ | ⟨symbols, chips, carrier, -, -, -, rfl⟩ := execSpreadAdd_next h <;> constructor
  | correlate => obtain ⟨c, -, rfl⟩ | ⟨samples, chips, -, -, rfl⟩ := execCorrelate_next h <;> constructor
  | decode =>
    obtain ⟨c, -, rfl⟩ | ⟨bits, -, -, ⟨b, -, rfl⟩ | ⟨-, rfl⟩⟩ := execDecode_next h <;> constructor

/-- Every completion leaves the engine idle (44_control.md R182). -/
theorem CompletionOf.idle {i : Instr} (h : CompletionOf s i t) : t.status.busy = false ∧ t.pending = none := by
  cases h <;> exact ⟨rfl, rfl⟩

/-- Settles O34: a completion writes the fields that its own updates name, PENDING and STATUS. -/
theorem commandsWriteOnlyTheirResults : Obligations.CommandsWriteOnlyTheirResults := by
  intro i s t h
  cases completionOf_of_exec h <;> simp [Status.completedOk, Status.completedError]

/-! BUSY and PENDING: an operation keeps both as they are, or leaves the engine idle, or issues a command. -/

theorem BusyMatchesPending.of_eq (h : BusyMatchesPending s) (hb : t.status.busy = s.status.busy)
    (hp : t.pending = s.pending) : BusyMatchesPending t := by
  unfold BusyMatchesPending
  rwa [hb, hp]

theorem busyMatchesPending_of_idle (hb : s.status.busy = false) (hp : s.pending = none) : BusyMatchesPending s := by
  simp [BusyMatchesPending, hb, hp]

theorem busyMatchesPending_issue (w : Word) (s : State) : BusyMatchesPending (s.issue w) :=
  iff_of_true rfl (Option.some_ne_none w)

/-! The host's accesses. -/

theorem portRead_keeps_busyMatchesPending {x : MemName} (hs : BusyMatchesPending s) (h : portRead x s = .next t) :
    BusyMatchesPending t := by
  obtain ⟨-, rfl⟩ | ⟨-, -, v, -, rfl⟩ | ⟨-, -, rfl⟩ := portRead_next h <;> exact hs.of_eq (by simp) (by simp)

theorem busRead_keeps_busyMatchesPending {idx : RegIndex} (hs : BusyMatchesPending s) (h : busRead idx s = .next t) :
    BusyMatchesPending t := by
  by_cases hd : ∃ x, regAt idx = .data x
  · obtain ⟨x, hx⟩ := hd
    exact portRead_keeps_busyMatchesPending hs (busRead_data hx ▸ h)
  · rw [busRead_of_not_data (not_exists.mp hd)] at h
    cases h
    exact hs.of_eq rfl rfl

theorem portWrite_keeps_busyMatchesPending (x : MemName) (w : Word) (hs : BusyMatchesPending s) :
    BusyMatchesPending (portWrite x w s) := by
  unfold portWrite
  split <;> exact hs.of_eq (by simp) (by simp)

/-- A soft reset by CTRL leaves the engine idle, a write to CMD issues a command, and a write to any other register
moves neither BUSY nor PENDING. -/
theorem writeReg_keeps_busyMatchesPending (r : Reg) (w : Word) (hs : BusyMatchesPending s) :
    BusyMatchesPending (writeReg r w s) := by
  cases r with
  | ctrl =>
    dsimp only [writeReg]
    split
    · exact busyMatchesPending_of_idle rfl rfl
    · exact hs
  | cmd => exact busyMatchesPending_issue w s
  | ptr x => cases x <;> exact hs
  | data x => exact portWrite_keeps_busyMatchesPending x w hs
  | _ => exact hs

theorem busWrite_keeps_busyMatchesPending (idx : RegIndex) (w : Word) (hs : BusyMatchesPending s) :
    BusyMatchesPending (busWrite idx w s) := by
  obtain ⟨-, -, h⟩ | ⟨-, h⟩ := busWrite_cases idx w s <;> rw [h]
  · exact hs.of_eq rfl rfl
  · exact writeReg_keeps_busyMatchesPending (regAt idx) w hs

/-! The engine, the external reset, and one entry of the queue. -/

theorem engineTurn_keeps_busyMatchesPending (hs : BusyMatchesPending s) (h : engineTurn s = .next t) :
    BusyMatchesPending t := by
  obtain ⟨-, rfl⟩ | ⟨w, e, -, -, rfl⟩ | ⟨w, i, -, -, hi⟩ := engineTurn_next h
  · exact hs
  · exact busyMatchesPending_of_idle rfl rfl
  · obtain ⟨hb, hp⟩ := (completionOf_of_exec hi).idle
    exact busyMatchesPending_of_idle hb hp

theorem heldInReset_busyMatchesPending (e : Input) (s : State) : BusyMatchesPending (heldInReset e s) := by
  cases e <;> exact busyMatchesPending_of_idle rfl rfl

theorem takeInput_keeps_busyMatchesPending {e : Input} (hs : BusyMatchesPending s) (h : takeInput e s = .next t) :
    BusyMatchesPending t := by
  obtain ⟨-, rfl⟩ | ⟨-, hrun⟩ := takeInput_next h
  · exact heldInReset_busyMatchesPending e s
  · obtain ⟨idx, w, -, rfl⟩ | ⟨idx, -, hr⟩ | ⟨-, he⟩ | ⟨-, rfl⟩ | ⟨-, rfl⟩ := hrun
    · exact busWrite_keeps_busyMatchesPending idx w hs
    · exact busRead_keeps_busyMatchesPending hs hr
    · exact engineTurn_keeps_busyMatchesPending hs he
    · exact hs
    · exact busyMatchesPending_of_idle rfl rfl

/-- Settles O55: an issue sets BUSY and PENDING together, a completion or a reset clears them together, and no other
entry of the queue moves either. -/
theorem stepKeepsBusyMatchingPending : Obligations.StepKeepsBusyMatchingPending := by
  intro s t hs h
  obtain ⟨-, ht⟩ := step_next h
  have hq : BusyMatchesPending (s.setInputs s.inputs.tail) := hs.of_eq rfl rfl
  exact takeInput_keeps_busyMatchesPending hq ht

/-- Settles O57: at reset no memory lists a cell, and the engine is idle. -/
theorem resetMeetsInvariants : Obligations.ResetMeetsInvariants := fun _ =>
  ⟨⟨.nil, .nil, .nil, .nil⟩, ⟨nofun, nofun, nofun, nofun⟩, busyMatchesPending_of_idle rfl rfl⟩

end Sys2Proof.Machine
end

section
/-! The registers that are no data port, read and written at their own word indexes (10_state.md R22 to R37). -/

namespace Sys2Proof.Machine

/-! Reads. -/

theorem busRead_index {r : Reg} (h : ∀ x, r ≠ .data x) (s : State) :
    busRead r.index s = .next (s.setRdata (s.readReg r)) := by
  rw [busRead_of_not_data (by rwa [regAt_index]), regAt_index]

theorem readReg_ctrl (s : State) : s.readReg .ctrl = if s.ie then 1#32 else 0#32 := by
  unfold State.readReg
  cases s.ie <;> rfl

theorem readReg_strength (s : State) : s.readReg .strength = s.strength.setWidth 32 := by
  rw [BitVec.setWidth_eq_append (by decide)]
  rfl

theorem readReg_corrLo (s : State) : s.readReg .corrLo = s.corr.setWidth 32 := rfl

theorem readReg_corrHi (s : State) : s.readReg .corrHi = (s.corr >>> 32).setWidth 32 := rfl

/-- Settles O39: a read answers the value of the register at its index; CTRL, STRENGTH and the halves of CORR are read
as words, the others are words already. -/
theorem registerReadValues : Obligations.RegisterReadValues := by
  intro s
  have read (r : Reg) (h : ∀ x, r ≠ .data x) := busRead_index h s
  exact ⟨read .id nofun, readReg_ctrl s ▸ read .ctrl nofun, read .status nofun, read .cmd nofun, read .seed nofun,
    read .sf nofun, read .nsym nofun, read .mlen nofun, read .slen nofun,
    readReg_strength s ▸ read .strength nofun, readReg_corrLo s ▸ read .corrLo nofun,
    readReg_corrHi s ▸ read .corrHi nofun, read (.ptr .pn) nofun, read (.ptr .sym) nofun, read (.ptr .msg) nofun,
    read (.ptr .smp) nofun, read .pnMax nofun, read .msgMax nofun, read .smpMax nofun⟩

/-! Writes. -/

theorem busWrite_index {r : Reg} {s : State} (w : Word) (h : s.status.busy = false ∨ r.writeBlocked = false) :
    busWrite r.index w s = writeReg r w s := by
  unfold busWrite
  rw [regAt_index, if_neg (by rcases h with h | h <;> simp [h])]

theorem writeReg_ctrl {w : Word} (h : w.getLsbD 1 = false) (s : State) :
    writeReg .ctrl w s = { s with ie := w.getLsbD 0 } := by
  rw [writeReg, h]
  rfl

theorem writeReg_strength (w : Word) (s : State) :
    writeReg .strength w s = { s with strength := w.extractLsb' 0 31 } := by
  rw [← BitVec.setWidth_eq_extractLsb' (by decide)]
  rfl

/-- Settles O40: while BUSY = 0 no write is blocked, and its effect is that of its register alone. -/
theorem configurationWriteStoresOnlyItsRegister : Obligations.ConfigurationWriteStoresOnlyItsRegister := by
  intro s w hb
  have write (r : Reg) : busWrite r.index w s = writeReg r w s := busWrite_index w (.inl hb)
  exact ⟨write .seed, write .sf, write .nsym, write .mlen, write .slen,
    (write .strength).trans (writeReg_strength w s), write (.ptr .pn), write (.ptr .sym), write (.ptr .msg),
    write (.ptr .smp), fun h => (write .ctrl).trans (writeReg_ctrl h s)⟩

/-! STATUS (10_state.md R25, R26). -/

theorem Status.clearedBy_eq (w : Word) (f : Status) :
    f.clearedBy w = { f with done := if w.getLsbD 1 = true then false else f.done,
                             err := if w.getLsbD 2 = true then false else f.err,
                             herr := if w.getLsbD 3 = true then false else f.herr,
                             ovf := if w.getLsbD 6 = true then false else f.ovf } := by
  have clear (a b : Bool) : (a && !b) = if b = true then false else a := by cases b <;> simp
  simp only [Status.clearedBy, clear]

/-- Settles O44: a write to STATUS is never blocked. -/
theorem statusWriteClearsOnes : Obligations.StatusWriteClearsOnes := by
  intro s w
  rw [← Status.clearedBy_eq]
  exact busWrite_index (r := .status) w (.inr rfl)

/-- STATUS bit by bit: the flags and the reserved bit 7, and above them ERRCODE, whose bits past its four are 0. -/
theorem Status.toWord_getLsbD (f : Status) (i : Nat) : f.toWord.getLsbD i =
    [f.busy, f.done, f.err, f.herr, f.term, f.clip, f.ovf, false].getD i (f.errcode.code.getLsbD (i - 8)) := by
  unfold Status.toWord
  rw [BitVec.getLsbD_append]
  simp only [BitVec.getLsbD_append]
  by_cases hi : i < 8
  · interval_cases i <;> simp
  · obtain ⟨k, rfl⟩ := Nat.exists_eq_add_of_le' (Nat.le_of_not_lt hi)
    have hk : f.errcode.code.getLsbD k = true → k < 4 := BitVec.lt_of_getLsbD
    simpa using hk

theorem Status.toWord_errcode (f : Status) : f.toWord.extractLsb' 8 4 = f.errcode.code := by
  ext i hi
  rw [BitVec.getElem_extractLsb', Status.toWord_getLsbD, List.getD_eq_default _ _ (by simp)]
  simp [BitVec.getLsbD_eq_getElem hi]

theorem Status.toWord_reserved (f : Status) : f.toWord.extractLsb' 12 20 = 0#20 := by
  ext i hi
  rw [BitVec.getElem_extractLsb', Status.toWord_getLsbD, List.getD_eq_default _ _ (by simp; omega),
    BitVec.getLsbD_of_ge _ _ (by omega), BitVec.getElem_zero]

theorem ErrCode.code_le_five (c : ErrCode) : c.code.toNat ≤ 5 := by cases c <;> decide

/-- Settles O41: each bit of STATUS from its list of bits. -/
theorem statusWordLayout : Obligations.StatusWordLayout := by
  refine ⟨fun f => ?_, rfl, rfl, rfl, rfl, rfl, rfl, ErrCode.code_le_five⟩
  have bit := f.toWord_getLsbD
  exact ⟨bit 0, bit 1, bit 2, bit 3, bit 4, bit 5, bit 6, bit 7, f.toWord_errcode, f.toWord_reserved⟩

end Sys2Proof.Machine
end

section
/-! The fault mark (10_state.md R47). -/

namespace Sys2Proof.Machine

variable {s : State}

theorem advance_of_fault {f : Fault} (h : step s = .fault f) : advance s = s.markFault f := by simp [advance, h]

/-- Once set, the mark is never changed (R47). -/
theorem markFault_eq_self {g : Fault} (f : Fault) (h : s.faultMark = some g) : s.markFault f = s := by
  unfold State.markFault
  rw [h]
  simp only [← h]

/-- Settles O52: a fault marks the state that `advance` keeps, the mark stops every later step, and the resets leave it
alone. -/
theorem faultMarkIsNeverCleared : Obligations.FaultMarkIsNeverCleared := by
  refine ⟨fun s f hm h => ?_, fun s f hm => ⟨step_of_mark hm, ?_⟩, fun s =>
    ⟨softReset_faultMark s, State.externalReset_faultMark s⟩⟩
  · rw [advance_of_fault h, State.markFault_of_none f s hm]
  · rw [advance_of_fault (step_of_mark hm), markFault_eq_self f hm]

end Sys2Proof.Machine
end

section
/-! What one step may do to the block memories (20_memory.md R70, R84), to the host's accesses, the commands and the
resets alike. The canonical form and the range of the cells follow from it, and so does that the fault mark stays. -/

namespace Sys2Proof.Machine

/-! One memory. -/

/-- What one operation makes of a memory of `n` cells: nothing, a cell or a run of cells written below `n`, values taken
away, or no value left. -/
inductive MemoryChange {w : Nat} (n : Nat) (m : Memory w) : Memory w → Prop where
  | same : MemoryChange n m m
  | write {i : Nat} (v : BitVec w) (hi : i < n) : MemoryChange n m (m.write i v)
  | fill {vs : List (BitVec w)} (hvs : vs.length ≤ n) : MemoryChange n m (m.fill vs)
  | invalidate (k : Nat) : MemoryChange n m (m.invalidate k)
  | clear : MemoryChange n m []

section memory

variable {w n : Nat} {m m' : Memory w}

theorem MemoryChange.wf (h : MemoryChange n m m') (hm : m.wf) : m'.wf := by
  cases h with
  | same => exact hm
  | write v hi => exact Memory.wf_write _ v hm
  | fill hvs => exact Memory.wf_fill _ hm
  | invalidate k => exact Memory.wf_invalidate k hm
  | clear => exact .nil

theorem MemoryChange.within (h : MemoryChange n m m') (hm : m.within n) : m'.within n := by
  cases h with
  | same => exact hm
  | write v hi => exact Memory.within_write v hm hi
  | fill hvs => exact Memory.within_fill hm hvs
  | invalidate k => exact Memory.within_invalidate k hm
  | clear => exact nofun

end memory

/-! The four memories, with the fault mark, which no operation sets (10_state.md R47). -/

/-- `t` differs from `s` in the memories only by a `MemoryChange` of each, and not in the fault mark. -/
structure MemoryEffect (s t : State) : Prop where
  faultMark : t.faultMark = s.faultMark
  pn : MemoryChange s.params.pnMax s.pn t.pn
  sym : MemoryChange s.params.symMax s.sym t.sym
  msg : MemoryChange s.params.msgMax s.msg t.msg
  smp : MemoryChange s.params.smpMax s.smp t.smp

variable {s t u : State}

theorem MemoryEffect.refl (s : State) : MemoryEffect s s := ⟨rfl, .same, .same, .same, .same⟩

theorem MemoryEffect.setPtr (h : MemoryEffect s u) (x : MemName) (v : Word) : MemoryEffect s (u.setPtr x v) := by
  cases x <;> exact ⟨h.faultMark, h.pn, h.sym, h.msg, h.smp⟩

theorem MemoryEffect.stepPtr (h : MemoryEffect s u) (x : MemName) : MemoryEffect s (u.stepPtr x) :=
  h.setPtr x (u.ptr x + 1#32)

theorem MemoryEffect.resetRegisters (h : MemoryEffect s u) : MemoryEffect s u.resetRegisters :=
  ⟨h.faultMark, h.pn, h.sym, h.msg, h.smp⟩

theorem MemoryEffect.setRdata (h : MemoryEffect s u) (v : Word) : MemoryEffect s (u.setRdata v) :=
  ⟨h.faultMark, h.pn, h.sym, h.msg, h.smp⟩

theorem memoryEffect_setHerr (s : State) : MemoryEffect s s.setHerr := ⟨rfl, .same, .same, .same, .same⟩

theorem memoryEffect_completeError (c : ErrCode) (s : State) : MemoryEffect s (s.completeError c) :=
  ⟨rfl, .same, .same, .same, .same⟩

theorem memoryEffect_writeCell {x : MemName} {i : Nat} (v : Word) (h : i < s.size x) :
    MemoryEffect s (s.writeCell x i v) := by
  cases x with
  | pn => exact ⟨rfl, .write _ h, .same, .same, .same⟩
  | sym => exact ⟨rfl, .same, .write _ h, .same, .same⟩
  | msg => exact ⟨rfl, .same, .same, .write _ h, .same⟩
  | smp => exact ⟨rfl, .same, .same, .same, .write _ h⟩

theorem memoryEffect_invalidate (x : MemName) (n : Nat) (s : State) : MemoryEffect s (s.invalidate x n) := by
  cases x with
  | pn => exact ⟨rfl, .invalidate n, .same, .same, .same⟩
  | sym => exact ⟨rfl, .same, .invalidate n, .same, .same⟩
  | msg => exact ⟨rfl, .same, .same, .invalidate n, .same⟩
  | smp => exact ⟨rfl, .same, .same, .same, .invalidate n⟩

/-! The host's accesses. -/

theorem portRead_memoryEffect {x : MemName} (h : portRead x s = .next t) : MemoryEffect s t := by
  obtain ⟨-, rfl⟩ | ⟨-, -, v, -, rfl⟩ | ⟨-, -, rfl⟩ := portRead_next h
  · exact (memoryEffect_setHerr s).setRdata 0#32
  · exact ((MemoryEffect.refl s).setRdata v).stepPtr x
  · exact ((memoryEffect_setHerr s).setRdata 0#32).stepPtr x

theorem busRead_memoryEffect {idx : RegIndex} (h : busRead idx s = .next t) : MemoryEffect s t := by
  by_cases hd : ∃ x, regAt idx = .data x
  · obtain ⟨x, hx⟩ := hd
    exact portRead_memoryEffect (busRead_data hx ▸ h)
  · rw [busRead_of_not_data (not_exists.mp hd)] at h
    cases h
    exact (MemoryEffect.refl s).setRdata _

theorem portWrite_memoryEffect (x : MemName) (w : Word) (s : State) : MemoryEffect s (portWrite x w s) := by
  unfold portWrite
  split
  · rename_i hx
    exact (memoryEffect_writeCell w hx).stepPtr x
  · exact (memoryEffect_setHerr s).stepPtr x

theorem softReset_memoryEffect (s : State) : MemoryEffect s s.softReset := by
  obtain ⟨x, n, h⟩ := softReset_eq s
  exact h ▸ (memoryEffect_invalidate x n s).resetRegisters

theorem writeReg_memoryEffect (r : Reg) (w : Word) (s : State) : MemoryEffect s (writeReg r w s) := by
  cases r with
  | ctrl =>
    dsimp only [writeReg]
    split
    · exact softReset_memoryEffect s
    · exact ⟨rfl, .same, .same, .same, .same⟩
  | ptr x => exact (MemoryEffect.refl s).setPtr x w
  | data x => exact portWrite_memoryEffect x w s
  | _ => exact ⟨rfl, .same, .same, .same, .same⟩

theorem busWrite_memoryEffect (idx : RegIndex) (w : Word) (s : State) : MemoryEffect s (busWrite idx w s) := by
  obtain ⟨-, -, h⟩ | ⟨-, h⟩ := busWrite_cases idx w s <;> rw [h]
  · exact memoryEffect_setHerr s
  · exact writeReg_memoryEffect (regAt idx) w s

/-! The commands: the run that a command writes fits its memory, because the command's checks pass (R84). -/

theorem execGenPn_memoryEffect (h : execGenPn s = .next t) : MemoryEffect s t := by
  obtain ⟨c, -, rfl⟩ | ⟨hc, rfl⟩ := execGenPn_next h
  · exact memoryEffect_completeError c s
  · have hfit : (lfsrChips s.sf.toNat (scramble s.seed)).length ≤ s.params.pnMax := by
      rw [lfsrChips_length]
      exact (checkGenPn_eq_none_iff.mp hc).2
    exact ⟨rfl, .fill hfit, .same, .same, .same⟩

theorem execEncode_memoryEffect (h : execEncode s = .next t) : MemoryEffect s t := by
  obtain ⟨c, -, rfl⟩ | ⟨bytes, hc, hr, rfl⟩ := execEncode_next h
  · exact memoryEffect_completeError c s
  · have hmlen := checkEncode_eq_none_iff.mp hc
    have hfit : (messageSymbols bytes).length ≤ s.params.symMax := by
      rw [messageSymbols_length, Memory.readRun_length hr, Params.symMax]
      omega
    exact ⟨rfl, .same, .fill hfit, .same, .same⟩

theorem execSpread_memoryEffect (h : execSpread s = .next t) : MemoryEffect s t := by
  obtain ⟨c, -, rfl⟩ | ⟨symbols, chips, hc, ho, rfl⟩ := execSpread_next h
  · exact memoryEffect_completeError c s
  · obtain ⟨-, -, hslen, hcap⟩ := checkSpread_eq_none_iff.mp hc
    refine ⟨rfl, .same, .same, .same, .fill ?_⟩
    rw [List.length_append, List.length_map, List.length_replicate, (spreadOperands_length ho).2,
      State.payloadLength, Nat.add_sub_cancel' hcap]
    exact hslen

theorem execSpreadAdd_memoryEffect (h : execSpreadAdd s = .next t) : MemoryEffect s t := by
  obtain ⟨c, -, rfl⟩ | ⟨symbols, chips, carrier, hc, -, hr, rfl⟩ := execSpreadAdd_next h
  · exact memoryEffect_completeError c s
  · obtain ⟨-, -, hslen, hcap⟩ := checkSpread_eq_none_iff.mp hc
    refine ⟨rfl, .same, .same, .same, .fill ?_⟩
    rw [List.length_map, carrierSums_length, Memory.readRun_length hr]
    exact (Nat.min_le_left _ _).trans (hcap.trans hslen)

theorem execCorrelate_memoryEffect (h : execCorrelate s = .next t) : MemoryEffect s t := by
  obtain ⟨c, -, rfl⟩ | ⟨samples, chips, -, -, rfl⟩ := execCorrelate_next h
  · exact memoryEffect_completeError c s
  · refine ⟨rfl, .same, .fill ?_, .same, .same⟩
    rw [List.length_map, groupCorrelations_length]
    exact Nat.min_le_right _ _

theorem execDecode_memoryEffect (h : execDecode s = .next t) : MemoryEffect s t := by
  obtain ⟨c, -, rfl⟩ | ⟨bits, hc, -, hend⟩ := execDecode_next h
  · exact memoryEffect_completeError c s
  · have hnsym := checkDecode_eq_none_iff.mp hc
    have hfit : (assemble s.assembledBytes bits).length ≤ s.params.msgMax := by
      rw [Params.symMax] at hnsym
      rw [assemble_length, State.assembledBytes]
      omega
    obtain ⟨b, -, rfl⟩ | ⟨-, rfl⟩ := hend <;> exact ⟨rfl, .same, .same, .fill hfit, .same⟩

theorem exec_memoryEffect {i : Instr} (h : exec i s = .next t) : MemoryEffect s t := by
  cases i with
  | nop => cases h; exact ⟨rfl, .same, .same, .same, .same⟩
  | genPn => exact execGenPn_memoryEffect h
  | encode => exact execEncode_memoryEffect h
  | spread => exact execSpread_memoryEffect h
  | spreadAdd => exact execSpreadAdd_memoryEffect h
  | correlate => exact execCorrelate_memoryEffect h
  | decode => exact execDecode_memoryEffect h

theorem engineTurn_memoryEffect (h : engineTurn s = .next t) : MemoryEffect s t := by
  obtain ⟨-, rfl⟩ | ⟨w, e, -, -, rfl⟩ | ⟨w, i, -, -, hi⟩ := engineTurn_next h
  · exact .refl _
  · exact memoryEffect_completeError .illegal s
  · exact exec_memoryEffect hi

/-! The external reset, one entry of the queue, and the step. -/

theorem heldInReset_memoryEffect (e : Input) (s : State) : MemoryEffect s (heldInReset e s) := by
  cases e <;> exact ⟨rfl, .clear, .clear, .clear, .clear⟩

theorem takeInput_memoryEffect {e : Input} (h : takeInput e s = .next t) : MemoryEffect s t := by
  obtain ⟨-, rfl⟩ | ⟨-, hrun⟩ := takeInput_next h
  · exact heldInReset_memoryEffect e s
  · obtain ⟨idx, w, -, rfl⟩ | ⟨idx, -, hr⟩ | ⟨-, he⟩ | ⟨-, rfl⟩ | ⟨-, rfl⟩ := hrun
    · exact busWrite_memoryEffect idx w s
    · exact busRead_memoryEffect hr
    · exact engineTurn_memoryEffect he
    · exact .refl _
    · exact heldInReset_memoryEffect (.rst false) s

theorem step_memoryEffect (h : step s = .next t) : MemoryEffect s t := by
  obtain ⟨-, ht⟩ := step_next h
  obtain ⟨hf, hpn, hsym, hmsg, hsmp⟩ := takeInput_memoryEffect ht
  exact ⟨hf, hpn, hsym, hmsg, hsmp⟩

/-- Settles O53: every change that a step can make to a memory keeps its indexes rising. -/
theorem stepKeepsMemoriesCanonical : Obligations.StepKeepsMemoriesCanonical := by
  intro s t hs h
  obtain ⟨hpn, hsym, hmsg, hsmp⟩ := hs
  have he := step_memoryEffect h
  exact ⟨he.pn.wf hpn, he.sym.wf hsym, he.msg.wf hmsg, he.smp.wf hsmp⟩

/-- Settles O54: what a step writes lies inside its memory, whose size no step changes. -/
theorem stepKeepsCellsInRange : Obligations.StepKeepsCellsInRange := by
  intro s t hs h
  obtain ⟨hpn, hsym, hmsg, hsmp⟩ := hs
  have he := step_memoryEffect h
  unfold CellsInRange
  rw [stepKeepsParameters s t h]
  exact ⟨he.pn.within hpn, he.sym.within hsym, he.msg.within hmsg, he.smp.within hsmp⟩

end Sys2Proof.Machine
end

section
/-! The data ports and their pointers at the bus (20_memory.md R75 to R77, R79). -/

namespace Sys2Proof.Machine

variable {s t : State} {x : MemName}

/-! A port and its pointer at their word indexes. -/

/-- A register that is not reserved stands at its own index alone (10_state.md R22). -/
theorem regAt_eq_index {idx : RegIndex} {r : Reg} (h : regAt idx = r) (hr : r ≠ .reserved) : idx = r.index := by
  subst h
  revert idx
  decide

theorem busRead_dataIndex (x : MemName) (s : State) : busRead (Reg.data x).index s = portRead x s :=
  busRead_data (regAt_index _)

theorem busWrite_dataIndex (x : MemName) (w : Word) (hb : s.status.busy = false) :
    busWrite (Reg.data x).index w s = portWrite x w s := busWrite_index w (.inl hb)

/-! An access of a port that is not blocked, by its case. -/

theorem portRead_of_value {v : Word} (hb : s.status.busy = false) (hx : (s.ptr x).toNat < s.size x)
    (hv : s.readCell x (s.ptr x).toNat = some v) : portRead x s = .next ((s.setRdata v).stepPtr x) := by
  simp [portRead, hb, hx, hv]

theorem portRead_of_empty (hb : s.status.busy = false) (hx : (s.ptr x).toNat < s.size x)
    (hv : s.readCell x (s.ptr x).toNat = none) : portRead x s = .fault (.uninit (.dataPort x)) := by
  simp [portRead, hb, hx, hv]

theorem portRead_of_past (hb : s.status.busy = false) (hx : s.size x ≤ (s.ptr x).toNat) :
    portRead x s = .next ((s.setHerr.setRdata 0#32).stepPtr x) := by simp [portRead, hb, hx]

theorem portWrite_of_inside (w : Word) (hx : (s.ptr x).toNat < s.size x) :
    portWrite x w s = (s.writeCell x (s.ptr x).toNat w).stepPtr x := if_pos hx

theorem portWrite_of_past (w : Word) (hx : s.size x ≤ (s.ptr x).toNat) : portWrite x w s = s.setHerr.stepPtr x :=
  if_neg hx.not_gt

/-! Frames of the port operations. -/

theorem setRdata_stepPtr (v : Word) (x : MemName) (s : State) :
    (s.setRdata v).stepPtr x = State.setPtr x (s.ptr x + 1#32) { s with rdata := v } := by cases x <;> rfl

theorem setHerr_stepPtr (x : MemName) (s : State) :
    s.setHerr.stepPtr x = State.setPtr x (s.ptr x + 1#32) { s with status := { s.status with herr := true } } := by
  cases x <;> rfl

theorem setHerr_setRdata_stepPtr (v : Word) (x : MemName) (s : State) :
    (s.setHerr.setRdata v).stepPtr x =
      State.setPtr x (s.ptr x + 1#32) { s with rdata := v, status := { s.status with herr := true } } := by
  cases x <;> rfl

theorem writeCell_stepPtr (x : MemName) (i : Nat) (w : Word) (s : State) :
    (s.writeCell x i w).stepPtr x = State.setPtr x (s.ptr x + 1#32)
      { s with pn := (s.writeCell x i w).pn, sym := (s.writeCell x i w).sym, msg := (s.writeCell x i w).msg,
               smp := (s.writeCell x i w).smp } := by cases x <;> rfl

/-- Settles O35: the three cases of a read that is not blocked. -/
theorem dataPortReadRule : Obligations.DataPortReadRule := by
  refine ⟨⟨rfl, rfl, rfl, rfl⟩, fun s => ⟨rfl, rfl, rfl, rfl, rfl, rfl, rfl, rfl⟩,
    fun s i => ⟨rfl, rfl, rfl, rfl⟩, fun s x hb => ?_⟩
  rw [busRead_dataIndex]
  refine ⟨fun v hx hv => ?_, portRead_of_empty hb, fun hx => ?_⟩
  · rw [portRead_of_value hb hx hv, setRdata_stepPtr]
  · rw [portRead_of_past hb hx, setHerr_setRdata_stepPtr]

/-! What a write stores. -/

/-- A word cut to `k` bits and extended again is the word with its higher bits masked off. -/
theorem setWidth_setWidth_eq_and (v : Word) {k : Nat} (hk : k ≤ 32) :
    (v.setWidth k).setWidth 32 = v &&& BitVec.ofNat 32 (2 ^ k - 1) := by
  have hpow : 2 ^ k ≤ 2 ^ 32 := Nat.pow_le_pow_right (by decide) hk
  have hpos : 0 < 2 ^ k := Nat.two_pow_pos k
  apply BitVec.eq_of_toNat_eq
  rw [BitVec.toNat_and, BitVec.toNat_ofNat, Nat.mod_eq_of_lt (b := 2 ^ 32) (by omega), Nat.and_two_pow_sub_one_eq_mod,
    BitVec.toNat_setWidth, BitVec.toNat_setWidth]
  exact Nat.mod_eq_of_lt ((Nat.mod_lt _ hpos).trans_le hpow)

/-- Settles O36: in range the port's own cell is written, past the memory none is. -/
theorem dataPortWriteRule : Obligations.DataPortWriteRule := by
  intro s x w hb
  rw [busWrite_dataIndex x w hb]
  refine ⟨fun t ht hx => ?_, fun hx => by rw [portWrite_of_past w hx, setHerr_stepPtr]⟩
  rw [portWrite_of_inside w hx] at ht
  subst ht
  refine ⟨?_, fun y k hy => ?_, ?_⟩
  · rw [State.stepPtr_readCell, readCell_writeCell_same]
    cases x with
    | pn => exact congrArg some (setWidth_setWidth_eq_and w (by decide))
    | sym => exact congrArg some (setWidth_setWidth_eq_and w (by decide))
    | msg => exact congrArg some (setWidth_setWidth_eq_and w (by decide))
    | smp => rfl
  · rw [State.stepPtr_readCell, readCell_writeCell_other w s hy]
  · simp only [State.stepPtr_pn, State.stepPtr_sym, State.stepPtr_msg, State.stepPtr_smp]
    exact writeCell_stepPtr x _ w s

/-! The pointers. -/

/-- An access of a port while BUSY = 0 steps the port's pointer, on a state whose pointers are still the old ones. -/
theorem portAccess_stepsPtr {w : Word} (hb : s.status.busy = false)
    (h : t = busWrite (Reg.data x).index w s ∨ busRead (Reg.data x).index s = .next t) :
    ∃ u : State, t = u.stepPtr x ∧ ∀ y, u.ptr y = s.ptr y := by
  rw [busWrite_dataIndex x w hb, busRead_dataIndex] at h
  rcases h with rfl | h
  · unfold portWrite
    split
    · exact ⟨_, rfl, fun y => State.writeCell_ptr x y _ w s⟩
    · exact ⟨_, rfl, fun y => State.setHerr_ptr y s⟩
  · obtain ⟨hb', -⟩ | ⟨-, -, v, -, rfl⟩ | ⟨-, -, rfl⟩ := portRead_next h
    · exact absurd hb' (by simp [hb])
    · exact ⟨_, rfl, fun y => State.setRdata_ptr v y s⟩
    · exact ⟨_, rfl, fun y => by rw [State.setRdata_ptr, State.setHerr_ptr]⟩

/-- Settles O37: a port access steps its pointer and no other; a pointer's own register stores and returns it. -/
theorem pointerArithmetic : Obligations.PointerArithmetic := by
  refine ⟨⟨rfl, rfl, rfl, rfl⟩, fun s x w hb => ⟨fun t ht => ?_, ?_, busRead_index (r := .ptr x) nofun s⟩⟩
  · obtain ⟨u, rfl, hu⟩ := portAccess_stepsPtr hb ht
    have hsucc : (u.stepPtr x).ptr x = BitVec.ofNat 32 ((s.ptr x).toNat + 1) := by
      rw [State.stepPtr_ptr_same, hu, BitVec.ofNat_add, BitVec.ofNat_toNat, BitVec.setWidth_eq]
    refine ⟨hsucc, fun y hy => by rw [State.stepPtr_ptr_other x y u hy, hu], fun hx hlt => ?_⟩
    rw [hsucc, BitVec.toNat_ofNat, Nat.mod_eq_of_lt hlt]
    exact Nat.le_succ_of_le hx
  · rw [busWrite_index w (.inl hb)]
    exact State.setPtr_ptr_same x w s

/-- Settles O46: at a data port each outcome of a read sets rdata, and at most HERR and the pointer beside it. -/
theorem readsChangeOnlyPortState : Obligations.ReadsChangeOnlyPortState := by
  intro s t idx h
  refine ⟨fun hidx => ?_, ?_⟩
  · have hreg (x : MemName) : regAt idx ≠ .data x := fun hx => hidx x (regAt_eq_index hx nofun)
    rw [busRead_of_not_data hreg] at h
    cases h
    rfl
  · rintro x rfl
    rw [busRead_dataIndex] at h
    obtain ⟨-, rfl⟩ | ⟨-, -, v, -, rfl⟩ | ⟨-, -, rfl⟩ := portRead_next h <;> cases x <;> rfl

end Sys2Proof.Machine
end

section
/-! What is blocked while BUSY = 1, and what no write reaches (20_memory.md R74, R78, R87). -/

namespace Sys2Proof.Machine

variable {s t : State}

theorem busWrite_blocked {r : Reg} (w : Word) (hb : s.status.busy = true) (hr : r.writeBlocked = true) :
    busWrite r.index w s = s.setHerr := by simp [busWrite, regAt_index, hb, hr]

theorem portRead_blocked (x : MemName) (hb : s.status.busy = true) :
    portRead x s = .next (s.setHerr.setRdata 0x00000000#32) := if_pos hb

/-- A write to a read-only register or to a reserved index does nothing, BUSY or not (R74, R78). -/
theorem busWrite_readOnly {idx : RegIndex} (w : Word) (s : State)
    (h : idx ∈ [0x00#6, 0x0A#6, 0x0B#6, 0x14#6, 0x15#6, 0x16#6] ∨ 0x17 ≤ idx.toNat) : busWrite idx w s = s := by
  have hr : regAt idx ∈ [Reg.id, .corrLo, .corrHi, .pnMax, .msgMax, .smpMax, .reserved] := by
    rcases h with h | h
    · revert idx
      decide
    · rw [(regAt_reserved_iff idx).mpr h]
      decide
  unfold busWrite
  generalize regAt idx = r at hr
  fin_cases hr <;> simp [Reg.writeBlocked, writeReg]

/-- Settles O42: a reserved index reads as 0, and the listed writes do nothing. -/
theorem reservedAndReadOnlyAccesses : Obligations.ReservedAndReadOnlyAccesses := by
  refine fun s w => ⟨fun idx hidx => ⟨?_, busWrite_readOnly w s (.inr hidx)⟩, fun idx hidx =>
    busWrite_readOnly w s (.inl hidx)⟩
  have hreg := (regAt_reserved_iff idx).mpr hidx
  rw [busRead_of_not_data (by simp [hreg]), hreg]
  rfl

/-- Settles O38: R78's list is that of the registers whose writes are blocked; CTRL and STATUS are not in it. -/
theorem blockedAccessesAreDropped : Obligations.BlockedAccessesAreDropped := by
  refine fun s hb => ⟨fun r w hr => ?_, fun x => ?_, fun idx hidx => ?_, fun w hw => ?_, fun w hw => ?_, fun w =>
    busWrite_index (r := .status) w (.inr rfl), fun idx w hidx => busWrite_readOnly w s hidx⟩
  · have hblocked : r.writeBlocked = true := by
      revert r
      decide
    exact busWrite_blocked w hb hblocked
  · exact (busRead_dataIndex x s).trans (portRead_blocked x hb)
  · exact busRead_of_not_data fun x hx => hidx x (regAt_eq_index hx nofun)
  · exact (busWrite_index (r := .ctrl) w (.inr rfl)).trans (writeReg_ctrl hw s)
  · exact (busWrite_index (r := .ctrl) w (.inr rfl)).trans (if_pos hw)

end Sys2Proof.Machine
end

section
/-! The host's accesses as steps of the block (20_memory.md R71, R81, R87). -/

namespace Sys2Proof.Machine

variable {s t : State}

theorem takeInput_of_rstN (e : Input) (hr : s.rstN = true) : takeInput e s = runInput e s := if_pos hr

/-- Settles O7: the head of the queue happens in the state with the rest of the queue. -/
theorem stepMakesNextHostAccess : Obligations.StepMakesNextHostAccess := by
  intro s idx w rest hm hr
  have htake (e : Input) (hq : s.inputs = e :: rest) : step s = runInput e (s.setInputs rest) :=
    (step_of_cons hm hq).trans (takeInput_of_rstN e hr)
  exact ⟨htake (.write idx w), htake (.read idx)⟩

/-! Host accesses while a command is pending. -/

/-- What a host access that is no soft reset, or a release of rst_n, can do while BUSY = 1 (R78). -/
inductive BusyAccess (s : State) : Input → State → Prop where
  | noEffect (e : Input) : BusyAccess s e s
  | blockedWrite (idx : RegIndex) (w : Word) : BusyAccess s (.write idx w) s.setHerr
  | blockedRead (idx : RegIndex) : BusyAccess s (.read idx) (s.setHerr.setRdata 0x00000000#32)
  | registerRead (idx : RegIndex) (v : Word) : BusyAccess s (.read idx) (s.setRdata v)
  | ctrlWrite (w : Word) : BusyAccess s (.write 0x01#6 w) { s with ie := w.getLsbD 0 }
  | statusWrite (w : Word) : BusyAccess s (.write 0x02#6 w) (s.clearStatus w)

theorem busyAccess_write {idx : RegIndex} {w : Word} (hb : s.status.busy = true)
    (hw : idx = 0x01#6 → w.getLsbD 1 = false) : BusyAccess s (.write idx w) (busWrite idx w s) := by
  obtain ⟨-, -, h⟩ | ⟨hopen, h⟩ := busWrite_cases idx w s <;> rw [h]
  · exact .blockedWrite idx w
  · have hopen : (regAt idx).writeBlocked = false := by simpa [hb] using hopen
    cases hreg : regAt idx with
    | ctrl =>
      obtain rfl := regAt_eq_index hreg nofun
      rw [writeReg_ctrl (hw rfl)]
      exact .ctrlWrite w
    | status =>
      obtain rfl := regAt_eq_index hreg nofun
      exact .statusWrite w
    | id | corrLo | corrHi | pnMax | msgMax | smpMax | reserved => exact .noEffect _
    | _ => simp [hreg, Reg.writeBlocked] at hopen

theorem busyAccess_read {idx : RegIndex} (hb : s.status.busy = true) (h : busRead idx s = .next t) :
    BusyAccess s (.read idx) t := by
  by_cases hd : ∃ x, regAt idx = .data x
  · obtain ⟨x, hx⟩ := hd
    rw [busRead_data hx, portRead_blocked x hb] at h
    cases h
    exact .blockedRead idx
  · rw [busRead_of_not_data (not_exists.mp hd)] at h
    cases h
    exact .registerRead idx _

theorem busyAccess_of_takeInput {e : Input} (hb : s.status.busy = true) (hr : s.rstN = true) (he : e ≠ .engine)
    (hrst : e ≠ .rst false) (hw : ∀ w : Word, e = .write 0x01#6 w → w.getLsbD 1 = false)
    (h : takeInput e s = .next t) : BusyAccess s e t := by
  rw [takeInput_of_rstN e hr] at h
  cases e with
  | write idx w => cases h; exact busyAccess_write hb (by rintro rfl; exact hw w rfl)
  | read idx => exact busyAccess_read hb h
  | engine => exact absurd rfl he
  | rst level =>
    cases level with
    | true => cases h; exact .noEffect _
    | false => exact absurd rfl hrst

/-- Settles O47: no such access writes a result register or a memory, and OVF goes by a STATUS write alone. -/
theorem resultsChangeOnlyAtCompletion : Obligations.ResultsChangeOnlyAtCompletion := by
  intro s t e rest hb hr hq he hrst hw h
  obtain ⟨-, ht⟩ := step_next h
  rw [hq] at ht
  have hacc : BusyAccess (s.setInputs rest) e t := busyAccess_of_takeInput hb hr he hrst hw ht
  cases hacc with
  | statusWrite w =>
    refine ⟨rfl, rfl, rfl, rfl, rfl, fun hovf => ?_, rfl, rfl, rfl, rfl, rfl⟩
    change (s.status.ovf && !w.getLsbD 6) = s.status.ovf
    rw [hovf w rfl, Bool.not_false, Bool.and_true]
  | _ => exact ⟨rfl, rfl, rfl, rfl, rfl, fun _ => rfl, rfl, rfl, rfl, rfl, rfl⟩

/-! A sequence of entries at the head of the queue. -/

theorem advance_of_mark {f : Fault} (h : s.faultMark = some f) : advance s = s := by
  rw [advance_of_fault (step_of_mark h), markFault_eq_self f h]

theorem advanceBy_of_mark {f : Fault} (n : Nat) (h : s.faultMark = some f) : advanceBy n s = s := by
  induction n with
  | zero => rfl
  | succ n ih => rw [advanceBy, advance_of_mark h, ih]

theorem step_setInputs_cons (e : Input) (es : List Input) (hm : s.faultMark = none) :
    step (s.setInputs (e :: es)) = hostThen (takeInput e s) fun t => .next (t.setInputs es) := by
  rw [step_of_cons (s := s.setInputs (e :: es)) hm rfl]
  exact takeInput_setInputs e es s

theorem advance_setInputs_cons {e : Input} (es : List Input) (hm : s.faultMark = none) (h : takeInput e s = .next t) :
    advance (s.setInputs (e :: es)) = t.setInputs es := by
  rw [advance, step_setInputs_cons e es hm, h]
  rfl

theorem advance_setInputs_cons_mark {e : Input} {f : Fault} (es : List Input) (hm : s.faultMark = none)
    (h : takeInput e s = .fault f) : (advance (s.setInputs (e :: es))).faultMark = some f := by
  have hstep : step (s.setInputs (e :: es)) = .fault f := by rw [step_setInputs_cons e es hm, h]; rfl
  rw [advance_of_fault hstep]
  exact State.markFault_of_none f _ hm

/-- Settles O58, by induction on the sequence: each entry is one step, and a fault stops the steps as it stops the
sequence. -/
theorem hostSequenceRunsAsSteps : Obligations.HostSequenceRunsAsSteps := by
  intro es rest s hm
  change (∀ t, runInputs es s = .next t → advanceBy es.length (s.setInputs (es ++ rest)) = t.setInputs rest) ∧
    ∀ f, runInputs es s = .fault f → (advanceBy es.length (s.setInputs (es ++ rest))).faultMark = some f
  induction es generalizing s with
  | nil => exact ⟨fun t h => by cases h; rfl, nofun⟩
  | cons e es ih =>
    rw [runInputs_cons, List.cons_append, List.length_cons, advanceBy]
    cases htake : takeInput e s with
    | next u =>
      rw [advance_setInputs_cons (es ++ rest) hm htake]
      exact ih u ((takeInput_memoryEffect htake).faultMark.trans hm)
    | fault g =>
      have hmark := advance_setInputs_cons_mark (es ++ rest) hm htake
      rw [advanceBy_of_mark es.length hmark]
      exact ⟨fun t h => (by cases h), fun f h => by cases h; exact hmark⟩
    | refused r => exact ⟨fun t h => (by cases h), fun f h => by cases h⟩

end Sys2Proof.Machine
end

section
/-! The command word (30_encoding.md R90 to R95): its three fields, the decoder by them, and the encoder as its inverse. -/

namespace Sys2Proof

variable {w v : Word}

/-! The fields of a word, and what R94's masks say of them. -/

/-- RES, A and OP side by side make up the word (R90). -/
theorem eq_append_fields (w : Word) : w = cmdRes w ++ (w.extractLsb' 8 1 ++ cmdOp w) := by
  simp only [cmdRes, cmdOp, BitVec.extractLsb'_append_extractLsb'_eq_extractLsb']
  exact BitVec.extractLsb'_eq_self.symm

theorem word_ext_iff : w = v ↔ cmdRes w = cmdRes v ∧ cmdA w = cmdA v ∧ cmdOp w = cmdOp v := by
  refine ⟨by rintro rfl; exact ⟨rfl, rfl, rfl⟩, fun ⟨hres, hacc, hop⟩ => ?_⟩
  have hbit : w.extractLsb' 8 1 = v.extractLsb' 8 1 := by
    ext k hk
    obtain rfl : k = 0 := by omega
    simpa [cmdA] using hacc
  rw [eq_append_fields w, eq_append_fields v, hres, hbit, hop]

/-- A mask acts on each field by its own field. -/
theorem and_eq_iff (w m v : Word) :
    w &&& m = v ↔ cmdRes w &&& cmdRes m = cmdRes v ∧ (cmdA w && cmdA m) = cmdA v ∧ cmdOp w &&& cmdOp m = cmdOp v := by
  rw [word_ext_iff, cmdRes, cmdOp, cmdA, BitVec.extractLsb'_and, BitVec.getLsbD_and, BitVec.extractLsb'_and]
  rfl

theorem reservedBitsZero_iff : reservedBitsZero w = true ↔ cmdRes w = 0#23 := by
  rw [reservedBitsZero, beq_iff_eq, and_eq_iff]
  change cmdRes w &&& BitVec.allOnes 23 = 0#23 ∧ (cmdA w && false) = false ∧ cmdOp w &&& 0#8 = 0#8 ↔ _
  rw [BitVec.and_allOnes]
  simp

theorem accumulateOnlySpread_iff : accumulateOnlySpread w = true ↔ cmdA w = false ∨ cmdOp w = 0x03#8 := by
  rw [accumulateOnlySpread, Bool.or_eq_true, beq_iff_eq, beq_iff_eq, and_eq_iff, and_eq_iff]
  change (cmdRes w &&& 0#23 = 0#23 ∧ (cmdA w && true) = false ∧ cmdOp w &&& 0#8 = 0#8) ∨
    (cmdRes w &&& 0#23 = 0#23 ∧ (cmdA w && false) = false ∧ cmdOp w &&& BitVec.allOnes 8 = 0x03#8) ↔ _
  rw [BitVec.and_allOnes]
  simp

theorem opcodeKnown_iff : opcodeKnown w = true ↔ (cmdOp w).toNat ≤ 5 := by
  have hop : (w &&& 0xFF#32).toNat = (cmdOp w).toNat := by
    rw [BitVec.toNat_and, cmdOp, BitVec.extractLsb'_toNat]
    exact Nat.and_two_pow_sub_one_eq_mod w.toNat 8
  rw [opcodeKnown, hop, decide_eq_true_iff]

/-- R94's three conditions, by the fields. -/
theorem wellFormedWord_iff :
    wellFormedWord w = true ↔ cmdRes w = 0#23 ∧ (cmdA w = false ∨ cmdOp w = 0x03#8) ∧ (cmdOp w).toNat ≤ 5 := by
  rw [wellFormedWord, Bool.and_eq_true, Bool.and_eq_true, reservedBitsZero_iff, accumulateOnlySpread_iff, opcodeKnown_iff,
    and_assoc]

/-! The decoder. -/

theorem decode_encode (i : Instr) : decode (encode i) = .ok i := by cases i <;> decide

theorem wellFormedWord_encode (i : Instr) : wellFormedWord (encode i) = true := by cases i <;> decide

theorem decodeOp_eq_ok {op : BitVec 8} {i : Instr} (h : decodeOp op = .ok i) :
    cmdRes (encode i) = 0#23 ∧ cmdA (encode i) = false ∧ cmdOp (encode i) = op := by
  unfold decodeOp at h
  split_ifs at h with h0 h1 h2 h4 h5 <;> cases h <;> subst op <;> decide

theorem exists_decodeOp {op : BitVec 8} (h : op.toNat ≤ 5) (h3 : op ≠ 0x03#8) : ∃ i, decodeOp op = .ok i := by
  unfold decodeOp
  split_ifs
  case neg => bv_omega
  all_goals exact ⟨_, rfl⟩

/-- The decoder is the encoder's inverse: no other word decodes to a command (R91). -/
theorem decode_eq_ok_iff {i : Instr} : decode w = .ok i ↔ w = encode i := by
  refine ⟨fun h => ?_, by rintro rfl; exact decode_encode i⟩
  rw [word_ext_iff]
  unfold decode at h
  split_ifs at h with hres hop hacc hacc
  · cases h; exact ⟨not_not.mp hres, hacc, hop⟩
  · cases h; exact ⟨not_not.mp hres, Bool.eq_false_of_not_eq_true hacc, hop⟩
  · obtain ⟨hres', hacc', hop'⟩ := decodeOp_eq_ok h
    exact ⟨(not_not.mp hres).trans hres'.symm, (Bool.eq_false_of_not_eq_true hacc).trans hacc'.symm, hop'.symm⟩

/-- Where R94's conditions hold, no branch of the decoder is an error; and each word of the map meets them. -/
theorem exists_decode_iff : (∃ i, decode w = .ok i) ↔ wellFormedWord w = true := by
  refine ⟨fun ⟨i, h⟩ => decode_eq_ok_iff.mp h ▸ wellFormedWord_encode i, fun h => ?_⟩
  obtain ⟨hres, hacc, hop⟩ := wellFormedWord_iff.mp h
  rw [decode, if_neg (not_not.mpr hres)]
  split_ifs with h3 hA hA
  · exact ⟨_, rfl⟩
  · exact ⟨_, rfl⟩
  · simp [hA, h3] at hacc
  · exact exists_decodeOp hop h3

/-! Byte lanes (20_memory.md R72). -/

theorem wordOfLanes_extractLsb' (w : Word) :
    wordOfLanes (w.extractLsb' 0 8) (w.extractLsb' 8 8) (w.extractLsb' 16 8) (w.extractLsb' 24 8) = w := by
  simp only [wordOfLanes, BitVec.extractLsb'_append_extractLsb'_eq_extractLsb']
  exact BitVec.extractLsb'_eq_self

theorem decodeBytes_encodeBytes (i : Instr) (rest : List Byte) :
    decodeBytes (encodeBytes i ++ rest) = .ok (i, rest) := by
  simp only [encodeBytes, List.cons_append, List.nil_append, decodeBytes, wordOfLanes_extractLsb', decode_encode]

/-! The statements about the map. -/

/-- Settles O1: the words of the map are the encoder's, and each illegal word breaks one of R94's conditions. -/
theorem commandWordsDecodeAsMapped : Obligations.CommandWordsDecodeAsMapped :=
  ⟨decode_encode .nop, decode_encode .genPn, decode_encode .encode, decode_encode .spread, decode_encode .spreadAdd,
    decode_encode .correlate, decode_encode .decode, by decide, by decide, by decide, by decide⟩

/-- Settles O2: the word of the map is the command's encoding, and the decoder is the encoder's inverse. -/
theorem legalWordsAreExactlyTheMap : Obligations.LegalWordsAreExactlyTheMap := fun _ =>
  ⟨decode_eq_ok_iff, decode_eq_ok_iff, decode_eq_ok_iff, decode_eq_ok_iff, decode_eq_ok_iff, decode_eq_ok_iff,
    decode_eq_ok_iff⟩

/-- Settles O3: the decoder's branches are R94's conditions, said by the fields of the word. -/
theorem legalWordsMeetFormatConditions : Obligations.LegalWordsMeetFormatConditions := fun _ => exists_decode_iff

/-- Settles O4: the four lanes of a word, side by side again, are the word. -/
theorem encodedCommandDecodesBack : Obligations.EncodedCommandDecodesBack := fun i _ =>
  ⟨decode_encode i, decodeBytes_encodeBytes i⟩

end Sys2Proof
end

section
/-! The engine's turn on an illegal word (30_encoding.md R92, 44_control.md R182), and polls while a command is pending
(30_encoding.md R97). -/

namespace Sys2Proof.Machine

variable {s : State} {w : Word}

/-! The engine's turn. -/

/-- Where the engine's turn is next, at the head of the queue or with the queue empty, a step is that turn in the state with
the rest of the queue. -/
theorem step_of_engineTurn (hm : s.faultMark = none) (hr : s.rstN = true) (hq : s.inputs.headD .engine = .engine) :
    step s = engineTurn (s.setInputs s.inputs.tail) := by
  refine Eq.trans ?_ (takeInput_of_rstN .engine hr)
  cases hi : s.inputs with
  | nil => rw [step_of_nil hm hi, List.tail_nil, ← hi]; rfl
  | cons e rest =>
    obtain rfl : e = .engine := by simpa [hi] using hq
    exact step_of_cons hm hi

theorem engineTurn_of_pending (hp : s.pending = some w) : engineTurn s = completeWord w s := by rw [engineTurn, hp]

/-- A word that breaks one of R94's conditions completes with ILLEGAL (R92). -/
theorem completeWord_of_illegal (hw : wellFormedWord w = false) (s : State) :
    completeWord w s = .next (s.completeError .illegal) := by
  rw [completeWord]
  cases hd : decode w with
  | ok i => exact absurd (exists_decode_iff.mp ⟨i, hd⟩) (by simp [hw])
  | error e => rfl

/-- Settles O6: the step is the engine's turn, and the decoder refuses the word. -/
theorem illegalWordCompletesWithIllegal : Obligations.IllegalWordCompletesWithIllegal := fun s w hm hr hq hp hw => by
  rw [step_of_engineTurn hm hr hq, engineTurn_of_pending (s := s.setInputs s.inputs.tail) hp, completeWord_of_illegal hw]
  rfl

/-! Polls. -/

theorem takeInput_poll (hr : s.rstN = true) : takeInput (opR .status) s = .next (s.setRdata s.status.toWord) :=
  (takeInput_of_rstN _ hr).trans (busRead_index (r := .status) nofun s)

/-- Polls of STATUS change nothing but rdata, whatever the queue holds behind them. -/
theorem advanceBy_polls (n : Nat) (es : List Input) (hm : s.faultMark = none) (hr : s.rstN = true) :
    advanceBy n (s.setInputs (List.replicate n (opR .status) ++ es)) =
      (s.setRdata (if n = 0 then s.rdata else s.status.toWord)).setInputs es := by
  induction n generalizing s with
  | zero => rfl
  | succ n ih =>
    rw [advanceBy, List.replicate_succ, List.cons_append, advance_setInputs_cons _ hm (takeInput_poll hr),
      ih (s := s.setRdata s.status.toWord) hm hr]
    cases n <;> rfl

/-- Settles O48: the polls are at the head of WAIT's queue, and bit 0 of STATUS is BUSY. -/
theorem pollsLeavePendingCommandAlone : Obligations.PollsLeavePendingCommandAlone := by
  intro n s w _ hb hm hr hq
  have hs : s = s.setInputs (opWait n) := by rw [← hq]; rfl
  refine ⟨?_, (s.status.toWord_getLsbD 0).trans hb⟩
  exact (congrArg (advanceBy n) hs).trans (advanceBy_polls n _ hm hr)

end Sys2Proof.Machine
end

section
/-! The bit codec (40_bit_codec.md R100 to R102): the bits of a symbol byte and the terminator's index, what ENCODE and
DECODE answer in each case, and the round trip. -/

namespace Sys2Proof.Machine

variable {s : State}

/-! A run written to a memory, read back. -/

theorem Memory.read_fill_of_getElem? {w : Nat} {vs : List (BitVec w)} {i : Nat} {v : BitVec w} (m : Memory w)
    (h : vs[i]? = some v) : (m.fill vs).read i = some v := by
  rw [Memory.read_fill, if_pos (List.getElem?_eq_some_iff.mp h).1, h]

theorem Memory.readRun_fill {w : Nat} (m : Memory w) (vs : List (BitVec w)) :
    (m.fill vs).readRun vs.length = some vs :=
  Memory.readRun_eq_some_iff.mpr ⟨rfl, fun i hi => by rw [Memory.read_fill, if_pos hi]⟩

/-! The bits of a byte. -/

theorem byteBit_eq_ofBool (b : Byte) (i : Nat) : byteBit b i = BitVec.ofBool (b.getLsbD i) := by
  ext j hj
  obtain rfl : j = 0 := by omega
  simp [byteBit]

/-- Bits shifted in from the right: the last one is bit 0. -/
theorem byteBit_foldl_shift {i : Nat} (bits : List PolBit) (hi : i < 8) :
    byteBit (bits.foldl (fun v b => (v <<< 1) ||| b.setWidth 8) 0#8) i = bits.reverse.getD i 0#1 := by
  induction bits using List.reverseRecOn generalizing i with
  | nil => simp [byteBit_eq_ofBool]
  | append_singleton bits b ih =>
    rw [List.foldl_concat, List.reverse_concat, byteBit_eq_ofBool, BitVec.getLsbD_or]
    cases i with
    | zero =>
      ext j hj
      obtain rfl : j = 0 := by omega
      simp
    | succ i =>
      rw [List.getD_cons_succ, ← ih (by omega), byteBit_eq_ofBool]
      simp [hi, BitVec.getLsbD_eq_getElem (Nat.lt_of_succ_lt hi)]

/-- The first of a byte's symbols is its most significant bit (R101). -/
theorem byteBit_symbolsByte {bits : List PolBit} {k : Nat} {c : PolBit} (hlen : 8 ≤ bits.length) (hk : k < 8)
    (hc : bits[k]? = some c) : byteBit (symbolsByte bits) (7 - k) = c := by
  have htake : (bits.take 8).length = 8 := List.length_take_of_le hlen
  rw [symbolsByte, byteBit_foldl_shift _ (by omega), List.getD_eq_getElem?_getD,
    List.getElem?_reverse (by omega), htake, show 8 - 1 - (7 - k) = k by omega, List.getElem?_take_of_lt hk, hc]
  rfl

/-- Bit 7−k of assembled byte b is symbol 8·b + k (R101). -/
theorem assemble_getElem?_bits {n b : Nat} {bits : List PolBit} (hlen : bits.length = 8 * n) (hb : b < n) :
    ∃ v, (assemble n bits)[b]? = some v ∧ ∀ k, k < 8 → bits[8 * b + k]? = some (byteBit v (7 - k)) := by
  refine ⟨_, assemble_getElem? bits hb, fun k hk => ?_⟩
  have hin : 8 * b + k < bits.length := by omega
  rw [byteBit_symbolsByte (c := bits[8 * b + k]) (by rw [List.length_drop]; omega) hk
    (by rw [List.getElem?_drop, List.getElem?_eq_getElem hin])]
  exact List.getElem?_eq_getElem hin

theorem assemble_messageSymbols (bytes : List Byte) :
    assemble (bytes.length + 1) (messageSymbols bytes) = bytes ++ [0x00#8] := by
  have h := assemble_flatMap (bytes ++ [0x00#8]) []
  rwa [List.append_nil, List.length_append, List.length_singleton] at h

/-! The terminator's index. -/

theorem terminatorIndex_eq_some_iff {bytes : List Byte} {z : Nat} :
    terminatorIndex bytes = some z ↔ bytes[z]? = some 0x00#8 ∧ ∀ b, b < z → bytes[b]? ≠ some 0x00#8 := by
  rw [terminatorIndex, List.findIdx?_eq_some_iff_getElem]
  constructor
  · rintro ⟨hz, hzero, hleast⟩
    refine ⟨by simpa [hz] using hzero, fun b hb => ?_⟩
    simpa [hb.trans hz] using hleast b hb
  · rintro ⟨hzero, hleast⟩
    obtain ⟨hz, hzero⟩ := List.getElem?_eq_some_iff.mp hzero
    refine ⟨hz, by simpa using hzero, fun b hb => ?_⟩
    simpa [hb.trans hz] using hleast b hb

theorem terminatorIndex_eq_none_iff {bytes : List Byte} :
    terminatorIndex bytes = none ↔ ∀ b : Nat, bytes[b]? ≠ some 0x00#8 := by
  rw [terminatorIndex, List.findIdx?_eq_none_iff, ← not_exists, ← List.mem_iff_getElem?]
  exact ⟨fun h hz => by simpa using h _ hz, fun h v hv => beq_false_of_ne fun hzero => h (hzero ▸ hv)⟩

/-! The checks, the answers of ENCODE and DECODE where a cell holds no value, and of DECODE where its cells are
readable. -/

theorem checkEncode_of_long (h : s.params.msgMax ≤ s.mlen.toNat) : checkEncode s = some .lenRange := if_pos h

theorem checkDecode_of_long (h : s.params.symMax < s.nsym.toNat) : checkDecode s = some .lenRange := if_pos h

theorem execEncode_of_empty (hc : checkEncode s = none) (hr : s.msg.readRun s.mlen.toNat = none) :
    execEncode s = .fault (.uninit (.command .encode)) := by simp [execEncode, hc, hr]

theorem execDecode_of_empty (hc : checkDecode s = none) (hr : s.sym.readRun (8 * s.assembledBytes) = none) :
    execDecode s = .fault (.uninit (.command .decode)) := by simp [execDecode, hc, hr]

section readable

variable {bits : List PolBit}

theorem execDecode_of_terminator {z : Nat} (hc : checkDecode s = none)
    (hr : s.sym.readRun (8 * s.assembledBytes) = some bits)
    (hz : terminatorIndex (assemble s.assembledBytes bits) = some z) :
    execDecode s = .next (s.storeMessage (assemble s.assembledBytes bits) z true).completeOk := by
  simp [execDecode, hc, hr, hz]

theorem execDecode_of_noTerminator (hc : checkDecode s = none)
    (hr : s.sym.readRun (8 * s.assembledBytes) = some bits)
    (hz : terminatorIndex (assemble s.assembledBytes bits) = none) :
    execDecode s = .next
      ((s.storeMessage (assemble s.assembledBytes bits) s.assembledBytes false).completeError .noTerm) := by
  simp [execDecode, hc, hr, hz]

end readable

/-! ENCODE. -/

/-- R4's bound on MSG: the symbols of a message that fits a legal instance are fewer than 2^32. -/
theorem msgMax_le_of_legal {p : Params} (h : p.legal = true) : p.msgMax ≤ 2 ^ 28 := by
  simp only [Params.legal, Bool.and_eq_true, decide_eq_true_eq] at h
  omega

theorem map_range_getD {α : Type} (n b : Nat) (x : Nat → α) (d : α) :
    ((List.range n).map x).getD b d = if b < n then x b else d := by
  split <;> simp [*]

/-- Settles O16: the check, then the run of MSG; the symbols of the message and its terminator by their index. -/
theorem encodeWritesMessageSymbols : Obligations.EncodeWritesMessageSymbols := by
  refine ⟨decode_encode .encode, fun s => ⟨fun hlong => ?_, fun hfit => ⟨fun hempty => ?_, fun x hx => ?_⟩⟩⟩
  · exact execEncode_of_error (checkEncode_of_long (by omega))
  · exact execEncode_of_empty (checkEncode_eq_none_iff.mpr (by omega)) (Memory.readRun_eq_none_iff.mpr hempty)
  · have hlen : (messageSymbols ((List.range s.mlen.toNat).map x)).length = 8 * (s.mlen.toNat + 1) := by simp
    refine ⟨_, execEncode_of_cells (checkEncode_eq_none_iff.mpr (by omega)) hx, fun b k hb hk => ?_, fun i hi => ?_,
      fun hlegal => ?_, ?_⟩
    · rw [← map_range_getD, ← byteBit_eq_ofBool]
      exact Memory.read_fill_of_getElem? _ (messageSymbols_getElem? (by simpa using hb) hk)
    · exact Memory.read_fill_above _ (hlen.trans_le hi)
    · have := msgMax_le_of_legal hlegal
      rw [State.completeOk_nsym, State.storeSymbols_nsym, hlen, BitVec.toNat_ofNat, Nat.mod_eq_of_lt (by omega)]
    · rw [← hlen]
      rfl

/-! DECODE. -/

/-- Each byte that DECODE stores, from the symbols it read (R101). -/
theorem read_fill_assemble {n b : Nat} (y : Nat → PolBit) (m : Memory 8) (hb : b < n) :
    ∃ v, (m.fill (assemble n ((List.range (8 * n)).map y))).read b = some v ∧
      ∀ k, k < 8 → BitVec.ofBool (v.getLsbD (7 - k)) = y (8 * b + k) := by
  obtain ⟨v, hv, hbits⟩ := assemble_getElem?_bits (bits := (List.range (8 * n)).map y) (by simp) hb
  refine ⟨v, Memory.read_fill_of_getElem? m hv, fun k hk => ?_⟩
  have hbit := hbits k hk
  rw [List.getElem?_map, List.getElem?_range (by omega), Option.map_some] at hbit
  rw [← byteBit_eq_ofBool, Option.some.inj hbit]

section stored

variable {bytes : List Byte}

/-- The terminator's index, by the bytes as stored. -/
theorem terminatorIndex_eq_some_iff_read {z : Nat} (m : Memory 8) (hz : z < bytes.length) :
    terminatorIndex bytes = some z ↔
      (m.fill bytes).read z = some 0x00#8 ∧ ∀ b, b < z → (m.fill bytes).read b ≠ some 0x00#8 := by
  rw [terminatorIndex_eq_some_iff, Memory.read_fill, if_pos hz]
  exact and_congr_right' (forall₂_congr fun b hb => by rw [Memory.read_fill, if_pos (hb.trans hz)])

theorem terminatorIndex_eq_none_iff_read (m : Memory 8) :
    terminatorIndex bytes = none ↔ ∀ b, b < bytes.length → (m.fill bytes).read b ≠ some 0x00#8 := by
  rw [terminatorIndex_eq_none_iff]
  refine forall_congr' fun b => ⟨fun h hb => by rwa [Memory.read_fill, if_pos hb], fun h hzero => ?_⟩
  exact h (List.getElem?_eq_some_iff.mp hzero).1 (Memory.read_fill_of_getElem? m hzero)

end stored

/-- Settles O17: the check, then the run of SYM; the stored bytes, read back, say whether there is a terminator. -/
theorem decodeAssemblesBytes : Obligations.DecodeAssemblesBytes := by
  refine ⟨decode_encode .decode, fun s => ⟨fun hlong => ?_, fun hfit => ?_⟩⟩
  · exact execDecode_of_error (checkDecode_of_long hlong)
  have hc : checkDecode s = none := checkDecode_eq_none_iff.mpr hfit
  refine ⟨fun hempty => execDecode_of_empty hc (Memory.readRun_eq_none_iff.mpr hempty), fun y hy => ?_⟩
  have hr : s.sym.readRun (8 * s.assembledBytes) = some _ := Memory.readRun_of_cells hy
  have hlen : (assemble s.assembledBytes ((List.range (8 * s.assembledBytes)).map y)).length = s.assembledBytes :=
    assemble_length _ _
  cases hterm : terminatorIndex (assemble s.assembledBytes ((List.range (8 * s.assembledBytes)).map y)) with
  | some z₀ =>
    refine ⟨_, execDecode_of_terminator hc hr hterm, fun b hb => read_fill_assemble y s.msg hb, fun b hb =>
      Memory.read_fill_above _ (hlen.trans_le hb), fun z hz hzero hleast => ?_, fun hno => ?_⟩
    · have hterm' := (terminatorIndex_eq_some_iff_read s.msg (hz.trans_eq hlen.symm)).mpr ⟨hzero, hleast⟩
      obtain rfl : z₀ = z := Option.some.inj (hterm.symm.trans hterm')
      rfl
    · have hterm' := (terminatorIndex_eq_none_iff_read s.msg).mpr fun b hb => hno b (hb.trans_eq hlen)
      exact absurd (hterm.symm.trans hterm') (by simp)
  | none =>
    refine ⟨_, execDecode_of_noTerminator hc hr hterm, fun b hb => read_fill_assemble y s.msg hb, fun b hb =>
      Memory.read_fill_above _ (hlen.trans_le hb), fun z hz hzero hleast => ?_, fun _ => rfl⟩
    exact absurd hzero ((terminatorIndex_eq_none_iff_read s.msg).mp hterm z (hz.trans_eq hlen.symm))

/-! The round trip (R102). -/

theorem exists_terminatorIndex_concat (bytes : List Byte) : ∃ z, terminatorIndex (bytes ++ [0x00#8]) = some z := by
  rw [← Option.ne_none_iff_exists']
  intro h
  exact terminatorIndex_eq_none_iff.mp h bytes.length List.getElem?_concat_length

/-- DECODE right after ENCODE has stored a message's symbols: the message and its terminator come back as bytes. -/
theorem execDecode_storeSymbols {bytes : List Byte} {z : Nat} (hfit : bytes.length + 1 ≤ s.params.msgMax)
    (hcount : 8 * (bytes.length + 1) < 2 ^ 32) (hz : terminatorIndex (bytes ++ [0x00#8]) = some z) :
    execDecode (s.storeSymbols (messageSymbols bytes)).completeOk =
      .next ((s.storeSymbols (messageSymbols bytes)).completeOk.storeMessage (bytes ++ [0x00#8]) z true).completeOk := by
  obtain ⟨t, ht⟩ : ∃ t, t = (s.storeSymbols (messageSymbols bytes)).completeOk := ⟨_, rfl⟩
  have hnsym : t.nsym.toNat = 8 * (bytes.length + 1) := by
    rw [ht, State.completeOk_nsym, State.storeSymbols_nsym, messageSymbols_length, BitVec.toNat_ofNat,
      Nat.mod_eq_of_lt hcount]
  have hbytes : t.assembledBytes = bytes.length + 1 := by
    rw [State.assembledBytes, hnsym, Nat.mul_div_cancel_left _ (by decide)]
  have hc : checkDecode t = none := by
    rw [checkDecode_eq_none_iff, hnsym, ht]
    exact Nat.mul_le_mul_left 8 hfit
  have hr : t.sym.readRun (8 * t.assembledBytes) = some (messageSymbols bytes) := by
    rw [hbytes, ← messageSymbols_length, ht]
    exact Memory.readRun_fill _ _
  have hassemble : assemble t.assembledBytes (messageSymbols bytes) = bytes ++ [0x00#8] := by
    rw [hbytes, assemble_messageSymbols]
  rw [← ht, execDecode_of_terminator hc hr (hassemble ▸ hz), hassemble]

/-- Settles O18: DECODE stores the message with a zero byte behind it, so the least zero byte is that one or an earlier
one of the message. -/
theorem encodeThenDecodeReturnsMessage : Obligations.EncodeThenDecodeReturnsMessage := by
  intro s x hlegal hfit hx
  obtain ⟨bytes, hbytes⟩ : ∃ bytes, bytes = (List.range s.mlen.toNat).map x := ⟨_, rfl⟩
  have hlen : bytes.length = s.mlen.toNat := by simp [hbytes]
  have hbyte (b : Nat) (hb : b < s.mlen.toNat) : (bytes ++ [0x00#8])[b]? = some (x b) := by
    rw [List.getElem?_append_left (hb.trans_eq hlen.symm), hbytes]
    simp [hb]
  have hlast : (bytes ++ [0x00#8])[s.mlen.toNat]? = some 0x00#8 := hlen ▸ List.getElem?_concat_length
  have hmsg (b : Nat) (hb : b < s.mlen.toNat) : (s.msg.fill (bytes ++ [0x00#8])).read b = s.msg.read b := by
    rw [hx b hb, Memory.read_fill_of_getElem? _ (hbyte b hb)]
  obtain ⟨z₀, hz₀⟩ := exists_terminatorIndex_concat bytes
  have hmax := msgMax_le_of_legal hlegal
  refine ⟨_, _, hbytes ▸ execEncode_of_cells (checkEncode_eq_none_iff.mpr (by omega)) hx,
    execDecode_storeSymbols (by omega) (by omega) hz₀, fun hnone => ?_, fun z hz hzero hleast => ?_⟩
  · have hterm : terminatorIndex (bytes ++ [0x00#8]) = some s.mlen.toNat :=
      terminatorIndex_eq_some_iff.mpr ⟨hlast, fun b hb => by simpa [hbyte b hb] using hnone b hb⟩
    obtain rfl : z₀ = s.mlen.toNat := Option.some.inj (hz₀.symm.trans hterm)
    exact ⟨by simp, hmsg, Memory.read_fill_of_getElem? _ hlast, rfl, rfl⟩
  · have hterm : terminatorIndex (bytes ++ [0x00#8]) = some z :=
      terminatorIndex_eq_some_iff.mpr ⟨hzero ▸ hbyte z hz, fun b hb => by
        simpa [hbyte b (hb.trans hz)] using hleast b hb⟩
    obtain rfl : z₀ = z := Option.some.inj (hz₀.symm.trans hterm)
    refine ⟨?_, fun b hb => hmsg b (hb.trans hz)⟩
    rw [State.completeOk_mlen, State.storeMessage_mlen, BitVec.toNat_ofNat, Nat.mod_eq_of_lt (hz.trans s.mlen.isLt)]

end Sys2Proof.Machine
end

section
/-! The PN generator (41_pn_generator.md R120 to R127): the seed scrambler is a bijection after its addition, the LFSR step
read bit by bit, and the chips GEN_PN leaves in the PN memory. -/

namespace Sys2Proof.Machine

/-! The seed scrambler (R120). -/

/-- R120's steps after the addition, each a bijection on 64-bit values. -/
def scrambleMix : BitVec 64 → BitVec 64 :=
  xorShift 31 ∘ (· * 0x94D049BB133111EB#64) ∘ xorShift 27 ∘ (· * 0xBF58476D1CE4E5B9#64) ∘ xorShift 30

theorem scramble_eq_scrambleMix (seed : Word) :
    scramble seed = scrambleMix (seed.setWidth 64 + 0x9E3779B97F4A7C15#64) := rfl

/-- A value equal to itself shifted right is 0, and `xorShift` is linear. -/
theorem xorShift_injective {n : Nat} (hn : 0 < n) : Function.Injective (xorShift n) := by
  intro a b h
  have hd : a ^^^ b = (a ^^^ b) >>> n := by
    rw [BitVec.ushiftRight_xor_distrib, ← BitVec.xor_eq_zero_iff, ← BitVec.xor_eq_zero_iff.mpr h, xorShift, xorShift]
    ac_rfl
  have hdiv := congrArg BitVec.toNat hd
  rw [BitVec.toNat_ushiftRight, Nat.shiftRight_eq_div_pow, eq_comm, Nat.div_eq_self] at hdiv
  rw [← BitVec.xor_eq_zero_iff]
  exact BitVec.eq_of_toNat_eq (hdiv.resolve_right (Nat.one_lt_two_pow hn.ne').ne')

theorem scrambleMix_injective : Function.Injective scrambleMix := by
  have hmul (c c' : BitVec 64) (h : c * c' = 1) : Function.Injective (· * c) :=
    (IsUnit.of_mul_eq_one c' h).mul_left_injective
  exact (xorShift_injective (by decide)).comp <|
    (hmul 0x94D049BB133111EB#64 0x319642B2D24D8EC3#64 (by decide)).comp <|
    (xorShift_injective (by decide)).comp <|
    (hmul 0xBF58476D1CE4E5B9#64 0x96DE1B173F119089#64 (by decide)).comp <| xorShift_injective (by decide)

theorem scrambleMix_zero : scrambleMix 0#64 = 0#64 := by decide

/-- The sum before R120's bijections, as an integer: it cannot wrap. -/
theorem seedSum_toNat (seed : Word) :
    (seed.setWidth 64 + 0x9E3779B97F4A7C15#64).toNat = seed.toNat + 0x9E3779B97F4A7C15 := by
  rw [BitVec.toNat_add, BitVec.toNat_setWidth_of_le (by decide)]
  exact Nat.mod_eq_of_lt (by simp; omega)

theorem scramble_ne_zero (seed : Word) : scramble seed ≠ 0#64 := by
  intro h
  have hsum := scrambleMix_injective (h.trans scrambleMix_zero.symm)
  have := seedSum_toNat seed
  rw [hsum, BitVec.toNat_zero] at this
  omega

theorem scramble_injective : Function.Injective scramble := by
  intro a b h
  have hsum := scrambleMix_injective h
  have := seedSum_toNat a
  rw [hsum, seedSum_toNat b] at this
  exact BitVec.eq_of_toNat_eq (Nat.add_right_cancel this).symm

theorem mul_eq_ofNat (z : BitVec 64) (c : Nat) : z * BitVec.ofNat 64 c = BitVec.ofNat 64 (z.toNat * c) := by
  rw [BitVec.ofNat_mul, BitVec.ofNat_toNat, BitVec.setWidth_eq]

/-- Settles O10: what follows the addition is injective and keeps 0, and the sum of a seed is never 0. -/
theorem scrambleRuleAndInjection : Obligations.ScrambleRuleAndInjection := by
  refine ⟨fun seed => ⟨_, _, _, _, _, rfl, rfl, rfl, rfl, rfl, ?_⟩, scramble_ne_zero, fun _ _ h => scramble_injective h,
    by decide, by decide⟩
  rw [← mul_eq_ofNat, ← mul_eq_ofNat, ← seedSum_toNat, BitVec.ofNat_toNat, BitVec.setWidth_eq]
  rfl

/-! The LFSR step (R121). -/

theorem lfsrChip_eq_ofBool (x : BitVec 64) : lfsrChip x = BitVec.ofBool (x.getLsbD 0) := by
  ext j hj
  obtain rfl : j = 0 := by omega
  simp [lfsrChip]

theorem lfsrChip_eq_iff {a b : BitVec 64} : lfsrChip a = lfsrChip b ↔ a.getLsbD 0 = b.getLsbD 0 := by
  rw [lfsrChip_eq_ofBool, lfsrChip_eq_ofBool, BitVec.ofBool_eq_iff_eq]

theorem lfsrMask_getLsbD {i : Nat} (hi : i < 64) : lfsrMask.getLsbD i = decide (i ∈ [63, 62, 60, 59]) := by
  revert i
  decide

theorem lfsrNext_eq (x : BitVec 64) : lfsrNext x = (x >>> 1) ^^^ (if x.getLsbD 0 then lfsrMask else 0#64) := by
  rw [lfsrNext, lfsrChip_eq_ofBool]
  cases x.getLsbD 0 <;> simp

theorem lfsrNext_getLsbD (x : BitVec 64) {i : Nat} (hi : i < 64) :
    (lfsrNext x).getLsbD i = (x.getLsbD (i + 1) ^^ (x.getLsbD 0 && decide (i ∈ [63, 62, 60, 59]))) := by
  rw [lfsrNext_eq, BitVec.getLsbD_xor, BitVec.getLsbD_ushiftRight, Nat.add_comm 1 i, ← lfsrMask_getLsbD hi]
  cases x.getLsbD 0 <;> simp

/-- Settles O11: the shift reads the bit above, and the mask has exactly the four taps. -/
theorem lfsrStepShiftsAndFeedsBack : Obligations.LfsrStepShiftsAndFeedsBack := by
  refine fun x => ⟨lfsrChip_eq_ofBool x, fun i hi => (lfsrNext_getLsbD x hi).trans ?_⟩
  split
  · next h => rw [h, BitVec.getLsbD_of_ge x _ (by decide)]
  · rfl

/-! The chip stream: what it says about the initial state. -/

/-- While the chips of two states agree, so does the feedback, and their difference is only shifted: bit i of the initial
states agrees because chip i does. -/
theorem getLsbD_eq_of_lfsrChips_eq {n i : Nat} {a b : BitVec 64} (h : lfsrChips n a = lfsrChips n b) (hi : i < n) :
    a.getLsbD i = b.getLsbD i := by
  induction n generalizing a b i with
  | zero => omega
  | succ n ih =>
    obtain ⟨hchip, hrest⟩ := List.cons.inj h
    have hbit := lfsrChip_eq_iff.mp hchip
    cases i with
    | zero => exact hbit
    | succ i =>
      rcases Nat.lt_or_ge i 64 with h64 | h64
      · have hnext := ih hrest (Nat.lt_of_succ_lt_succ hi)
        rwa [lfsrStep, lfsrStep, lfsrNext_getLsbD a h64, lfsrNext_getLsbD b h64, hbit, Bool.xor_left_inj] at hnext
      · rw [BitVec.getLsbD_of_ge a _ (by omega), BitVec.getLsbD_of_ge b _ (by omega)]

theorem lfsrChips_injective {n : Nat} (hn : 64 ≤ n) : Function.Injective (lfsrChips n) := fun _ _ h =>
  BitVec.eq_of_getLsbD_eq fun _ hi => getLsbD_eq_of_lfsrChips_eq h (hi.trans_le hn)

/-- Settles O12: 64 equal chips are 64 equal bits. -/
theorem sixtyFourChipsDetermineState : Obligations.SixtyFourChipsDetermineState := fun _ _ h =>
  lfsrChips_injective le_rfl h

/-- The feedback enters at bit 59 and moves down one bit a step, so below it a state is the initial one shifted (R127). -/
theorem iterate_lfsrNext_getLsbD (x : BitVec 64) {i j : Nat} (h : i + j < 60) :
    (lfsrNext^[j] x).getLsbD i = x.getLsbD (i + j) := by
  induction j generalizing i with
  | zero => rfl
  | succ j ih =>
    have htaps : i ∉ [63, 62, 60, 59] := by simp; omega
    rw [Function.iterate_succ_apply', lfsrNext_getLsbD _ (by omega), decide_eq_false htaps, Bool.and_false, Bool.xor_false,
      ih (by omega), Nat.add_right_comm, Nat.add_assoc]

/-! What GEN_PN does to the PN memory (R122). -/

variable {s t : State}

theorem exec_genPn_of_legal (h1 : 1 ≤ s.sf.toNat) (hmax : s.sf.toNat ≤ s.params.pnMax) :
    exec .genPn s = .next (s.storePn (lfsrChips s.sf.toNat (scramble s.seed))).completeOk :=
  execGenPn_of_check (checkGenPn_eq_none_iff.mpr ⟨h1, hmax⟩)

theorem read_fill_lfsrChips {n j : Nat} (m : Memory 1) (x : BitVec 64) (hj : j < n) :
    (m.fill (lfsrChips n x)).read j = some (lfsrChip (lfsrNext^[j] x)) :=
  Memory.read_fill_of_getElem? m (lfsrChips_getElem? x hj)

/-- After GEN_PN with a legal SF the PN memory holds the chips of Scramble(SEED). -/
theorem exec_genPn_pn (h1 : 1 ≤ s.sf.toNat) (hmax : s.sf.toNat ≤ s.params.pnMax) (h : exec .genPn s = .next t) :
    t.pn = s.pn.fill (lfsrChips s.sf.toNat (scramble s.seed)) := by
  rw [exec_genPn_of_legal h1 hmax] at h
  cases h
  rfl

/-- Settles O9: the check decides between SF_RANGE and the run of SF chips written from cell 0. -/
theorem genPnWritesLfsrStream : Obligations.GenPnWritesLfsrStream := by
  refine ⟨decode_encode .genPn, fun s => ⟨fun hillegal => ?_, fun h1 hmax => ?_⟩⟩
  · exact execGenPn_of_error (if_pos (sfIllegal_eq_true_iff.mpr hillegal))
  · exact ⟨_, exec_genPn_of_legal h1 hmax, fun j hj => read_fill_lfsrChips s.pn _ hj,
      fun j hj => Memory.read_fill_above s.pn ((lfsrChips_length _ _).trans_le hj), rfl⟩

/-- Settles O13: the chips are a function of SEED and SF. -/
theorem genPnIsDeterministic : Obligations.GenPnIsDeterministic := by
  intro s s' t t' hseed hsf h1 hmax hmax' h h' j hj
  rw [exec_genPn_pn h1 hmax h, exec_genPn_pn (hsf ▸ h1) hmax' h', ← hseed, ← hsf]
  exact ⟨_, read_fill_lfsrChips _ _ hj, read_fill_lfsrChips _ _ hj⟩

/-- Settles O14: equal cells below SF are equal runs of chips, which determine Scramble(SEED) and so SEED. -/
theorem distinctSeedsWriteDistinctChips : Obligations.DistinctSeedsWriteDistinctChips := by
  intro s s' t t' hseed hsf h64 hmax hmax' h h'
  by_contra! hsame
  refine hseed (scramble_injective (lfsrChips_injective h64 (List.ext_getElem? fun j => ?_)))
  rcases Nat.lt_or_ge j s.sf.toNat with hj | hj
  · have hread := hsame j hj
    rw [exec_genPn_pn (by omega) hmax h, exec_genPn_pn (by rw [← hsf]; omega) hmax' h', ← hsf,
      read_fill_lfsrChips _ _ hj, read_fill_lfsrChips _ _ hj] at hread
    rw [lfsrChips_getElem? _ hj, lfsrChips_getElem? _ hj, hread]
  · rw [List.getElem?_eq_none (by simpa using hj), List.getElem?_eq_none (by simpa using hj)]

/-- Settles O15: chip j is bit 0 of the state after j steps, which is still bit j of the initial state. -/
theorem shortSequencesReadScrambledSeed : Obligations.ShortSequencesReadScrambledSeed := by
  refine fun s h1 hmax => ⟨_, exec_genPn_of_legal h1 hmax, fun j hj => ?_⟩
  obtain ⟨hsf, h60⟩ := lt_min_iff.mp hj
  refine (read_fill_lfsrChips s.pn _ hsf).trans ?_
  rw [lfsrChip_eq_ofBool, iterate_lfsrNext_getLsbD _ (by omega), Nat.zero_add]

end Sys2Proof.Machine
end

section
/-! The chip spreader (42_spreader.md R140 to R143): samples as integers, the three checks, the cells the loops read, and
the samples that SPREAD and SPREAD.ADD leave in the SMP memory. -/

namespace Sys2Proof.Machine

variable {s t : State}

/-! Samples as integers (00_scope.md R6). -/

theorem sint32_eq_toInt (w : Word) : sint32 w = w.toInt := by
  rw [sint32, BitVec.toInt_eq_toNat_cond]
  split <;> split <;> omega

theorem wrap32_sint32 (w : Word) : wrap32 (sint32 w) = w := by rw [sint32_eq_toInt, wrap32, BitVec.ofInt_toInt]

theorem sumWraps_iff {v : Int} : sumWraps v = true ↔ v < -2 ^ 31 ∨ 2 ^ 31 - 1 < v := by simp [sumWraps]

theorem toInt_wrap32 {v : Int} (h : ¬ sumWraps v = true) : (wrap32 v).toInt = v := by
  rw [sumWraps_iff, not_or] at h
  exact BitVec.toInt_ofInt_eq_self (by decide) (by omega) (by omega)

/-! One chip (R140). -/

theorem chipValue_eq_pol (st : BitVec 31) (a p : PolBit) : chipValue st a p = pol a * pol p * (st.toNat : Int) := by
  have hbit (b : PolBit) : b = 0#1 ∨ b = 1#1 := by revert b; decide
  rcases hbit a with rfl | rfl <;> rcases hbit p with rfl | rfl <;> simp [chipValue, pol]

theorem chipValue_natAbs (st : BitVec 31) (a p : PolBit) : (chipValue st a p).natAbs = st.toNat := by
  unfold chipValue
  split <;> omega

theorem natAbs_of_mem_payload {st : BitVec 31} {a p : List PolBit} {c : Int} (h : c ∈ payload st a p) :
    c.natAbs = st.toNat := by
  obtain ⟨y, -, hc⟩ := List.mem_flatMap.mp h
  obtain ⟨q, -, rfl⟩ := List.mem_map.mp hc
  exact chipValue_natAbs st y q

/-- The index of chip j of symbol i is below L (R140). -/
theorem chipIndex_lt {i j n sf : Nat} (hi : i < n) (hj : j < sf) : i * sf + j < n * sf :=
  calc i * sf + j < (i + 1) * sf := by rw [Nat.succ_mul]; omega
    _ ≤ n * sf := Nat.mul_le_mul_right sf hi

/-- Every index below L is that of one chip of one symbol. -/
theorem div_mod_of_chipIndex {k n sf : Nat} (h : k < n * sf) : k / sf < n ∧ k % sf < sf :=
  have hsf : 0 < sf := Nat.pos_of_lt_mul_left h
  ⟨(Nat.div_lt_iff_lt_mul hsf).mpr h, Nat.mod_lt k hsf⟩

/-! The three checks (R141). -/

theorem checkSpread_eq_none_iff_checksPass : checkSpread s = none ↔ SpreadChecksPass s :=
  checkSpread_eq_none_iff.trans and_assoc

theorem checkSpread_of_sfRange (h : s.sf.toNat = 0 ∨ s.params.pnMax < s.sf.toNat) : checkSpread s = some .sfRange :=
  if_pos (sfIllegal_eq_true_iff.mpr h)

theorem checkSpread_of_lenRange (h1 : 1 ≤ s.sf.toNat) (hmax : s.sf.toNat ≤ s.params.pnMax)
    (h : s.params.symMax < s.nsym.toNat ∨ s.params.smpMax < s.slen.toNat) : checkSpread s = some .lenRange := by
  simp [checkSpread, sfIllegal_eq_false_iff.mpr ⟨h1, hmax⟩, h]

theorem checkSpread_of_capacity (h1 : 1 ≤ s.sf.toNat) (hmax : s.sf.toNat ≤ s.params.pnMax)
    (hnsym : s.nsym.toNat ≤ s.params.symMax) (hslen : s.slen.toNat ≤ s.params.smpMax)
    (h : s.slen.toNat < s.nsym.toNat * s.sf.toNat) : checkSpread s = some .capacity := by
  simp [checkSpread, sfIllegal_eq_false_iff.mpr ⟨h1, hmax⟩, Nat.not_lt.mpr hnsym, Nat.not_lt.mpr hslen, h]

theorem checkSpread_ne_noError (s : State) : checkSpread s ≠ some .noError := by
  unfold checkSpread
  split_ifs <;> simp

/-! The cells that the loops read. -/

theorem spreadOperands_eq_none_iff : s.spreadOperands = none ↔
    (∃ i, i < s.nsym.toNat ∧ s.sym.read i = none) ∨
      (0 < s.nsym.toNat ∧ ∃ j, j < s.sf.toNat ∧ s.pn.read j = none) := by
  rw [← Memory.readRun_eq_none_iff, ← Memory.readRun_eq_none_iff, State.spreadOperands]
  split
  · next h0 => simp [h0, Memory.readRun_eq_none_iff]
  · next h0 =>
    cases s.sym.readRun s.nsym.toNat <;> cases s.pn.readRun s.sf.toNat <;> simp [Nat.pos_of_ne_zero h0]

/-- The run that SPREAD writes (R141): the payload, then zeros up to SLEN. -/
def State.spreadSamples (symbols chips : List PolBit) (s : State) : List Word :=
  (payload s.strength symbols chips).map wrap32 ++ List.replicate (s.slen.toNat - s.payloadLength) 0x00000000#32

/-- The exact sums of SPREAD.ADD (R142), before they are stored modulo 2^32. -/
def State.spreadSums (symbols chips : List PolBit) (carrier : List Word) (s : State) : List Int :=
  carrierSums carrier (payload s.strength symbols chips)

theorem execSpread_of_empty (hc : checkSpread s = none) (ho : s.spreadOperands = none) :
    execSpread s = .fault (.uninit (.command .spread)) := by simp [execSpread, hc, ho]

theorem execSpreadAdd_of_empty (hc : checkSpread s = none)
    (h : s.spreadOperands = none ∨ s.smp.readRun s.payloadLength = none) :
    execSpreadAdd s = .fault (.uninit (.command .spreadAdd)) := by
  rcases h with h | h <;> simp [execSpreadAdd, hc, h]

/-- Whatever the cells hold, a sum is a sample below L and a number of absolute value STRENGTH. -/
theorem exists_of_mem_spreadSums {symbols chips : List PolBit} {carrier : List Word} {v : Int}
    (hr : s.smp.readRun s.payloadLength = some carrier) (hv : v ∈ s.spreadSums symbols chips carrier) :
    ∃ k x c, k < s.payloadLength ∧ s.smp.read k = some x ∧ Int.natAbs c = s.strength.toNat ∧ v = sint32 x + c := by
  obtain ⟨k, hk⟩ := List.mem_iff_getElem?.mp hv
  obtain ⟨x, c, hx, hc, rfl⟩ := List.getElem?_zipWith_eq_some.mp hk
  obtain ⟨hlen, hcarrier⟩ := Memory.readRun_eq_some_iff.mp hr
  have hlt : k < s.payloadLength := (List.getElem?_eq_some_iff.mp hx).1.trans_eq hlen
  exact ⟨k, x, c, hlt, (hcarrier k hlt).trans hx, natAbs_of_mem_payload (List.mem_of_getElem? hc), rfl⟩

section operands

variable {symbols chips : List PolBit} (ho : s.spreadOperands = some (symbols, chips))
include ho

theorem readRun_of_spreadOperands (h0 : 0 < s.nsym.toNat) :
    s.sym.readRun s.nsym.toNat = some symbols ∧ s.pn.readRun s.sf.toNat = some chips := by
  rw [State.spreadOperands, if_neg h0.ne'] at ho
  split at ho <;> cases ho
  exact ⟨by assumption, by assumption⟩

theorem execSpread_of_operands (hc : checkSpread s = none) :
    execSpread s = .next (s.storeSamples (s.spreadSamples symbols chips)).completeOk := by
  simp [execSpread, hc, ho, State.spreadSamples]

theorem execSpreadAdd_of_operands {carrier : List Word} (hc : checkSpread s = none)
    (hr : s.smp.readRun s.payloadLength = some carrier) :
    execSpreadAdd s = .next ((s.storeSamples ((s.spreadSums symbols chips carrier).map wrap32)).raiseOvf
      ((s.spreadSums symbols chips carrier).any sumWraps)).completeOk := by
  simp [execSpreadAdd, hc, ho, hr, State.spreadSums]

/-- The payload by its index (R140), from the cells it was computed from. -/
theorem payload_getElem?_of_read {i j : Nat} {y p : PolBit} (hi : i < s.nsym.toNat) (hj : j < s.sf.toNat)
    (hy : s.sym.read i = some y) (hp : s.pn.read j = some p) :
    (payload s.strength symbols chips)[i * s.sf.toNat + j]? = some (chipValue s.strength y p) := by
  obtain ⟨hsym, hpn⟩ := readRun_of_spreadOperands ho (Nat.zero_lt_of_lt hi)
  obtain ⟨-, hsymbols⟩ := Memory.readRun_eq_some_iff.mp hsym
  obtain ⟨hlen, hchips⟩ := Memory.readRun_eq_some_iff.mp hpn
  have := payload_getElem? (st := s.strength) ((hsymbols i hi).symm.trans hy) ((hchips j hj).symm.trans hp)
  rwa [hlen] at this

/-! SPREAD's run by its index. -/

theorem spreadSamples_length (hc : checkSpread s = none) :
    (s.spreadSamples symbols chips).length = s.slen.toNat := by
  obtain ⟨-, -, -, hcap⟩ := checkSpread_eq_none_iff.mp hc
  rw [State.spreadSamples, List.length_append, List.length_map, List.length_replicate, (spreadOperands_length ho).2]
  exact Nat.add_sub_cancel' hcap

theorem spreadSamples_getElem?_chip {i j : Nat} {y p : PolBit} (hi : i < s.nsym.toNat) (hj : j < s.sf.toNat)
    (hy : s.sym.read i = some y) (hp : s.pn.read j = some p) :
    (s.spreadSamples symbols chips)[i * s.sf.toNat + j]? = some (wrap32 (chipValue s.strength y p)) := by
  have hchip := payload_getElem?_of_read ho hi hj hy hp
  rw [State.spreadSamples, List.getElem?_append_left (by simpa using (List.getElem?_eq_some_iff.mp hchip).1),
    List.getElem?_map, hchip, Option.map_some]

theorem spreadSamples_getElem?_zero {k : Nat} (hk : s.payloadLength ≤ k) (hz : k < s.slen.toNat) :
    (s.spreadSamples symbols chips)[k]? = some 0x00000000#32 := by
  have hlen : ((payload s.strength symbols chips).map wrap32).length = s.payloadLength := by
    rw [List.length_map, (spreadOperands_length ho).2]
  rw [State.spreadSamples, List.getElem?_append_right (by omega), hlen, List.getElem?_replicate_of_lt (by omega)]

/-! SPREAD.ADD's sums by their index. -/

section sums

variable {carrier : List Word} (hr : s.smp.readRun s.payloadLength = some carrier)
include hr

theorem spreadSums_length : (s.spreadSums symbols chips carrier).length = s.payloadLength := by
  rw [State.spreadSums, carrierSums_length, Memory.readRun_length hr, (spreadOperands_length ho).2, Nat.min_self]

theorem spreadSums_getElem?_chip {i j : Nat} {y p : PolBit} {x : Word} (hi : i < s.nsym.toNat) (hj : j < s.sf.toNat)
    (hy : s.sym.read i = some y) (hp : s.pn.read j = some p) (hx : s.smp.read (i * s.sf.toNat + j) = some x) :
    (s.spreadSums symbols chips carrier)[i * s.sf.toNat + j]? = some (sint32 x + chipValue s.strength y p) := by
  obtain ⟨-, hcarrier⟩ := Memory.readRun_eq_some_iff.mp hr
  exact carrierSums_getElem? ((hcarrier _ (chipIndex_lt hi hj)).symm.trans hx) (payload_getElem?_of_read ho hi hj hy hp)

/-- OVF's condition (R142): the exact sum at some chip does not fit a sample. -/
theorem any_sumWraps_spreadSums_iff {y p : Nat → PolBit} {x : Nat → Word}
    (hy : ∀ i, i < s.nsym.toNat → s.sym.read i = some (y i))
    (hp : 0 < s.nsym.toNat → ∀ j, j < s.sf.toNat → s.pn.read j = some (p j))
    (hx : ∀ k, k < s.payloadLength → s.smp.read k = some (x k)) :
    (s.spreadSums symbols chips carrier).any sumWraps = true ↔ ∃ i j, i < s.nsym.toNat ∧ j < s.sf.toNat ∧
      sumWraps (sint32 (x (i * s.sf.toNat + j)) + chipValue s.strength (y i) (p j)) = true := by
  have hsum {i j : Nat} (hi : i < s.nsym.toNat) (hj : j < s.sf.toNat) :=
    spreadSums_getElem?_chip ho hr hi hj (hy i hi) (hp (Nat.zero_lt_of_lt hi) j hj) (hx _ (chipIndex_lt hi hj))
  rw [List.any_eq_true]
  constructor
  · rintro ⟨v, hv, hwraps⟩
    obtain ⟨k, hk⟩ := List.mem_iff_getElem?.mp hv
    have hlt := (List.getElem?_eq_some_iff.mp hk).1.trans_eq (spreadSums_length ho hr)
    obtain ⟨hi, hj⟩ := div_mod_of_chipIndex hlt
    have hkv := hsum hi hj
    rw [Nat.div_add_mod', hk, Option.some.injEq] at hkv
    exact ⟨_, _, hi, hj, by rwa [Nat.div_add_mod', ← hkv]⟩
  · rintro ⟨i, j, hi, hj, hwraps⟩
    exact ⟨_, List.mem_of_getElem? (hsum hi hj), hwraps⟩

end sums

end operands

/-! The statements. -/

/-- Settles O20: the three checks, then the cells that the loops read, then the run that SPREAD writes by its index. -/
theorem spreadWritesPaddedPayload : Obligations.SpreadWritesPaddedPayload := by
  refine ⟨decode_encode .spread, fun s => ⟨fun hsf => ?_, fun h1 hmax hlong => ?_, fun h1 hmax hnsym hslen hcap => ?_,
    fun hpass => ?_⟩⟩
  · exact execSpread_of_error (checkSpread_of_sfRange hsf)
  · exact execSpread_of_error (checkSpread_of_lenRange h1 hmax hlong)
  · exact execSpread_of_error (checkSpread_of_capacity h1 hmax hnsym hslen hcap)
  have hc : checkSpread s = none := checkSpread_eq_none_iff_checksPass.mpr hpass
  refine ⟨fun hempty => execSpread_of_empty hc (spreadOperands_eq_none_iff.mpr hempty), fun y p hy hp => ?_⟩
  obtain ⟨symbols, chips, ho, -, -⟩ := spreadOperands_of_cells hy hp
  refine ⟨_, execSpread_of_operands ho hc, fun i j hi hj => ?_, fun k hk hz => ?_, fun k hk => ?_, rfl⟩
  · exact Memory.read_fill_of_getElem? _
      (spreadSamples_getElem?_chip ho hi hj (hy i hi) (hp (Nat.zero_lt_of_lt hi) j hj))
  · exact Memory.read_fill_of_getElem? _ (spreadSamples_getElem?_zero ho hk hz)
  · exact Memory.read_fill_above _ ((spreadSamples_length ho hc).trans_le hk)

/-- Settles O19: SPREAD without error has stored its run, whose element i·SF + j is a chip of magnitude STRENGTH < 2^31. -/
theorem chipValueAndPlacement : Obligations.ChipValueAndPlacement := by
  intro s t i j y p h herr hi hj hy hp
  obtain ⟨c, hc, rfl⟩ | ⟨symbols, chips, -, ho, rfl⟩ := execSpread_next h
  · exact absurd (herr ▸ hc) (checkSpread_ne_noError s)
  have hmag := chipValue_natAbs s.strength y p
  have hlt := s.strength.isLt
  have hint : (wrap32 (chipValue s.strength y p)).toInt = chipValue s.strength y p :=
    toInt_wrap32 (by rw [sumWraps_iff]; omega)
  refine ⟨_, Memory.read_fill_of_getElem? _ (spreadSamples_getElem?_chip ho hi hj hy hp),
    hint.trans (chipValue_eq_pol _ _ _), hint, ?_, ?_⟩ <;> omega

/-- Settles O21: SPREAD's checks, then the cells that the loops read with the carrier, then the sums by their index. -/
theorem spreadAddAddsPayloadModulo : Obligations.SpreadAddAddsPayloadModulo := by
  refine ⟨decode_encode .spreadAdd, fun s => ⟨fun hsf => ?_, fun h1 hmax hlong => ?_,
    fun h1 hmax hnsym hslen hcap => ?_, fun hpass => ?_⟩⟩
  · exact execSpreadAdd_of_error (checkSpread_of_sfRange hsf)
  · exact execSpreadAdd_of_error (checkSpread_of_lenRange h1 hmax hlong)
  · exact execSpreadAdd_of_error (checkSpread_of_capacity h1 hmax hnsym hslen hcap)
  have hc : checkSpread s = none := checkSpread_eq_none_iff_checksPass.mpr hpass
  refine ⟨fun hempty => ?_, fun y p x hy hp hx => ?_⟩
  · refine execSpreadAdd_of_empty hc ?_
    rwa [spreadOperands_eq_none_iff, Memory.readRun_eq_none_iff, or_assoc]
  obtain ⟨symbols, chips, ho, -, -⟩ := spreadOperands_of_cells hy hp
  have hr : s.smp.readRun s.payloadLength = some _ := Memory.readRun_of_cells hx
  refine ⟨_, execSpreadAdd_of_operands ho hc hr, fun i j hi hj => ?_, fun k hk => ?_, ?_, rfl⟩
  · have hsum := spreadSums_getElem?_chip ho hr hi hj (hy i hi) (hp (Nat.zero_lt_of_lt hi) j hj)
      (hx _ (chipIndex_lt hi hj))
    exact Memory.read_fill_of_getElem? _ (by rw [List.getElem?_map, hsum]; rfl)
  · exact Memory.read_fill_above _ (by rwa [List.length_map, spreadSums_length ho hr])
  · simp only [State.completeOk_status, Status.completedOk, State.raiseOvf_status, State.storeSamples_status,
      Bool.or_eq_true, any_sumWraps_spreadSums_iff ho hr hy hp hx, sumWraps_iff]
    rfl

/-- Settles O22: no sum of a 16-bit sample and a chip below 2^31 − 2^15 leaves the 32-bit range. -/
theorem sixteenBitCarrierNeverWraps : Obligations.SixteenBitCarrierNeverWraps := by
  intro s t hstrength hcarrier h
  obtain ⟨c, -, rfl⟩ | ⟨symbols, chips, carrier, -, ho, hr, rfl⟩ := execSpreadAdd_next h
  · rfl
  have hnone : (s.spreadSums symbols chips carrier).any sumWraps = false := by
    refine List.any_eq_false.mpr fun v hv => ?_
    obtain ⟨k, x, c, hk, hx, hmag, rfl⟩ := exists_of_mem_spreadSums hr hv
    have hfit := hcarrier k x hk hx
    rw [sumWraps_iff, sint32_eq_toInt]
    omega
  exact (congrArg (s.status.ovf || ·) hnone).trans (Bool.or_false _)

/-- Settles O23: below L a sample is its sum, which fits where OVF stays 0; from L on it is the carrier's own. -/
theorem spreadAddGivesStegoSamples : Obligations.SpreadAddGivesStegoSamples := by
  intro s t y p x hpass hy hp hx h k hk
  obtain ⟨c, hc, -⟩ | ⟨symbols, chips, carrier, -, ho, hr, rfl⟩ := execSpreadAdd_next h
  · exact absurd (hc.symm.trans (checkSpread_eq_none_iff_checksPass.mpr hpass)) (by simp)
  by_cases hL : k < s.nsym.toNat * s.sf.toNat
  · obtain ⟨hi, hj⟩ := div_mod_of_chipIndex hL
    have hsum := spreadSums_getElem?_chip ho hr hi hj (hy _ hi) (hp _ hj) ((Nat.div_add_mod' k _).symm ▸ hx k hk)
    rw [Nat.div_add_mod', chipValue_eq_pol] at hsum
    rw [if_pos hL]
    refine ⟨_, Memory.read_fill_of_getElem? _ (by rw [List.getElem?_map]; exact congrArg _ hsum), rfl, fun hovf => ?_⟩
    have hany := (Bool.or_eq_false_iff.mp hovf).2
    rw [toInt_wrap32 (List.any_eq_false.mp hany _ (List.mem_of_getElem? hsum)), sint32_eq_toInt]
  · rw [if_neg hL, Int.add_zero, Int.add_zero]
    have hlen := (spreadSums_length ho hr).trans_le (Nat.le_of_not_lt hL)
    exact ⟨x k, (Memory.read_fill_above _ ((List.length_map _).trans_le hlen)).trans (hx k hk), (wrap32_sint32 _).symm,
      fun _ => rfl⟩

end Sys2Proof.Machine
end

section
/-! The correlator and the slicer (43_correlator_slicer.md R160 to R163): the sum over one group and its range, what
CORRELATE answers in each case, and what it decides on a carrier with a payload added. -/

namespace Sys2Proof.Machine

variable {s t : State}

/-! The slicer (R161). -/

theorem sliceBit_of_pos {z : Int} (h : 0 < z) : sliceBit z = 1#1 := if_pos h

theorem sliceBit_of_nonpos {z : Int} (h : z ≤ 0) : sliceBit z = 0#1 := if_neg (Int.not_lt.mpr h)

/-- A polarity scaled by a positive number is decided as its own bit. -/
theorem sliceBit_pol_mul (b : PolBit) {a : Int} (h : 0 < a) : sliceBit (pol b * a) = b := by
  have hbit : b = 0#1 ∨ b = 1#1 := by revert b; decide
  rcases hbit with rfl | rfl
  · exact sliceBit_of_nonpos (by simp [pol]; omega)
  · exact sliceBit_of_pos (by simpa [pol] using h)

/-- Settles O26: the threshold is strict, so 0 falls with the negative numbers. -/
theorem slicerThresholdIsStrictZero : Obligations.SlicerThresholdIsStrictZero :=
  ⟨fun _ h => sliceBit_of_pos h, fun _ h => sliceBit_of_nonpos h.le, sliceBit_of_nonpos le_rfl⟩

/-! The sum over one group (R160). -/

theorem pol_mul_self (b : PolBit) : pol b * pol b = 1 := by revert b; decide

theorem abs_pol (b : PolBit) : |pol b| = 1 := by revert b; decide

theorem abs_sint32_le (w : Word) : |sint32 w| ≤ 2 ^ 31 := by
  rw [sint32_eq_toInt, abs_le]
  have hlow := BitVec.le_toInt w
  have hhigh := BitVec.toInt_lt (x := w)
  omega

/-- Z_g (R160): the samples x and the chips p over group g, multiplied and summed. -/
def groupSum (sf : Nat) (x : Nat → Word) (p : Nat → PolBit) (g : Nat) : Int :=
  ∑ j ∈ Finset.range sf, sint32 (x (g * sf + j)) * pol (p j)

theorem abs_groupSum_le (sf : Nat) (x : Nat → Word) (p : Nat → PolBit) (g : Nat) :
    |groupSum sf x p g| ≤ (sf : Int) * 2 ^ 31 :=
  calc |groupSum sf x p g| ≤ ∑ j ∈ Finset.range sf, |sint32 (x (g * sf + j)) * pol (p j)| :=
        Finset.abs_sum_le_sum_abs _ _
    _ ≤ ∑ _j ∈ Finset.range sf, 2 ^ 31 :=
        Finset.sum_le_sum fun j _ => by rw [abs_mul, abs_pol, mul_one]; exact abs_sint32_le _
    _ = (sf : Int) * 2 ^ 31 := by rw [Finset.sum_const, Finset.card_range, nsmul_eq_mul]

/-- No sum of SF products leaves the accumulator (R160), because SF is a 32-bit register. -/
theorem abs_groupSum_lt (sf : Word) (x : Nat → Word) (p : Nat → PolBit) (g : Nat) :
    |groupSum sf.toNat x p g| < 2 ^ 63 := by
  have hle := abs_groupSum_le sf.toNat x p g
  have hsf := sf.isLt
  omega

theorem toInt_wrap64 {v : Int} (h : |v| < 2 ^ 63) : (wrap64 v).toInt = v := by
  obtain ⟨hlow, hhigh⟩ := abs_lt.mp h
  exact BitVec.toInt_ofInt_eq_self (by decide) (by omega) (by omega)

/-- The correlations of n groups of cells are their sums by the group's index. -/
theorem groupCorrelations_range (sf n : Nat) (x : Nat → Word) (p : Nat → PolBit) :
    groupCorrelations sf ((List.range sf).map p) n ((List.range (n * sf)).map x) =
      (List.range n).map (groupSum sf x p) := by
  induction n generalizing x with
  | zero => rfl
  | succ n ih =>
    have hsplit : (List.range ((n + 1) * sf)).map x =
        (List.range sf).map x ++ (List.range (n * sf)).map (fun k => x (sf + k)) := by
      rw [Nat.succ_mul, Nat.add_comm, List.range_add, List.map_append, List.map_map]
      rfl
    have hnext : groupSum sf (fun k => x (sf + k)) p = groupSum sf x p ∘ Nat.succ := by
      funext g
      simp only [groupSum, Function.comp_apply, Nat.succ_mul, Nat.add_comm sf, Nat.add_right_comm]
    rw [groupCorrelations, hsplit, List.take_left' (by simp), List.drop_left' (by simp), ih, correlation_range, hnext,
      List.range_succ_eq_map, List.map_cons, List.map_map]
    simp [groupSum]

/-! What CORRELATE answers (R162). -/

theorem checkCorrelate_of_sfRange (h : s.sf.toNat = 0 ∨ s.params.pnMax < s.sf.toNat) :
    checkCorrelate s = some .sfRange := if_pos (sfIllegal_eq_true_iff.mpr h)

theorem checkCorrelate_of_lenRange (h1 : 1 ≤ s.sf.toNat) (hmax : s.sf.toNat ≤ s.params.pnMax)
    (h : s.params.smpMax < s.slen.toNat) : checkCorrelate s = some .lenRange := by
  simp [checkCorrelate, sfIllegal_eq_false_iff.mpr ⟨h1, hmax⟩, h]

theorem checkCorrelate_eq_none_iff_checksPass : checkCorrelate s = none ↔ CorrelateChecksPass s :=
  checkCorrelate_eq_none_iff.trans and_assoc

theorem correlateOperands_eq_none_iff : s.correlateOperands = none ↔
    (∃ k, k < groupsDecided s * s.sf.toNat ∧ s.smp.read k = none) ∨
      (0 < groupsDecided s ∧ ∃ j, j < s.sf.toNat ∧ s.pn.read j = none) := by
  rw [← Memory.readRun_eq_none_iff, ← Memory.readRun_eq_none_iff,
    show groupsDecided s = s.decidedGroups from rfl, State.correlateOperands]
  split
  · next h0 => simp [h0, Memory.readRun_eq_none_iff]
  · next h0 =>
    cases s.smp.readRun (s.decidedGroups * s.sf.toNat) <;> cases s.pn.readRun s.sf.toNat <;>
      simp [Nat.pos_of_ne_zero h0]

theorem execCorrelate_of_empty (hc : checkCorrelate s = none) (ho : s.correlateOperands = none) :
    execCorrelate s = .fault (.uninit (.command .correlate)) := by simp [execCorrelate, hc, ho]

/-- The state that CORRELATE leaves where the groups' sums are z 0 .. z (n−1) (R162). -/
def State.correlated (n : Nat) (z : Nat → Int) (s : State) : State :=
  ((s.storeSymbols (((List.range n).map z).map sliceBit)).storeCorrelation (((List.range n).map z).getLastD 0)
    (clipFlag s.fullGroups s.params.symMax)).completeOk

theorem correlated_sym_read_below {n g : Nat} (z : Nat → Int) (s : State) (h : g < n) :
    (s.correlated n z).sym.read g = some (sliceBit (z g)) := by
  refine Memory.read_fill_of_getElem? s.sym ?_
  simp [h]

theorem correlated_sym_read_above {n g : Nat} (z : Nat → Int) (s : State) (h : n ≤ g) :
    (s.correlated n z).sym.read g = s.sym.read g := Memory.read_fill_above s.sym (by simpa using h)

theorem correlated_nsym (n : Nat) (z : Nat → Int) (s : State) : (s.correlated n z).nsym = BitVec.ofNat 32 n := by
  simp [State.correlated]

theorem correlated_corr (n : Nat) (z : Nat → Int) (s : State) :
    (s.correlated n z).corr = wrap64 (if n = 0 then 0 else z (n - 1)) := by
  refine congrArg wrap64 ?_
  rw [List.getLastD_eq_getLast?, List.getLast?_map, List.getLast?_range]
  split <;> rfl

/-- With no group to decide the chips are not read, and there is no sum that would use them. -/
theorem exec_correlate_of_cells {x : Nat → Word} {p : Nat → PolBit} (hpass : CorrelateChecksPass s)
    (hx : ∀ k, k < groupsDecided s * s.sf.toNat → s.smp.read k = some (x k))
    (hp : 0 < groupsDecided s → ∀ j, j < s.sf.toNat → s.pn.read j = some (p j)) :
    exec .correlate s = .next (s.correlated (groupsDecided s) (groupSum s.sf.toNat x p)) := by
  obtain ⟨samples, chips, ho, rfl, hchips⟩ := correlateOperands_of_cells hx hp
  have hsums : groupCorrelations s.sf.toNat chips s.decidedGroups ((List.range (s.decidedGroups * s.sf.toNat)).map x) =
      (List.range s.decidedGroups).map (groupSum s.sf.toNat x p) := by
    rcases Nat.eq_zero_or_pos s.decidedGroups with h0 | h0
    · rw [h0]; rfl
    · rw [hchips h0, groupCorrelations_range]
  change execCorrelate s = .next (s.correlated s.decidedGroups (groupSum s.sf.toNat x p))
  simp [execCorrelate, checkCorrelate_eq_none_iff_checksPass.mpr hpass, ho, hsums, State.correlated]

/-- Settles O24: the two checks, then the cells that the loops read, then the decisions by the group's index. -/
theorem correlateDecidesFullGroups : Obligations.CorrelateDecidesFullGroups := by
  refine ⟨decode_encode .correlate, fun s => ⟨fun hsf => ?_, fun h1 hmax hlong => ?_, fun hpass =>
    ⟨fun hempty => ?_, fun x p hx hp => ?_⟩⟩⟩
  · exact execCorrelate_of_error (checkCorrelate_of_sfRange hsf)
  · exact execCorrelate_of_error (checkCorrelate_of_lenRange h1 hmax hlong)
  · exact execCorrelate_of_empty (checkCorrelate_eq_none_iff_checksPass.mpr hpass)
      (correlateOperands_eq_none_iff.mpr hempty)
  · refine ⟨_, exec_correlate_of_cells hpass hx hp, fun g hg => correlated_sym_read_below _ s hg,
      fun g hg => correlated_sym_read_above _ s hg, correlated_corr _ _ s, ?_⟩
    rw [← correlated_nsym (groupsDecided s) (groupSum s.sf.toNat x p) s]
    rfl

/-- Settles O25: a sum of SF products of at most 2^31 fits CORR, which is the last group's. -/
theorem correlationIsExact : Obligations.CorrelationIsExact := by
  intro s t x p hpass h0 hx hp h
  refine ⟨fun g => ⟨abs_groupSum_le _ x p g, abs_groupSum_lt s.sf x p g⟩, ?_⟩
  rw [exec_correlate_of_cells hpass hx fun _ => hp] at h
  cases h
  rw [correlated_corr, if_neg h0.ne', toInt_wrap64 (abs_groupSum_lt s.sf x p _)]
  rfl

/-! CORRELATE on a carrier with a payload added (R163). -/

theorem chipIndex_div_mod {i j sf : Nat} (hj : j < sf) : (i * sf + j) / sf = i ∧ (i * sf + j) % sf = j :=
  (Nat.div_mod_unique (Nat.zero_lt_of_lt hj)).mpr ⟨by rw [Nat.mul_comm, Nat.add_comm], hj⟩

theorem Memory.read_of_readRun {w n : Nat} {m : Memory w} {vs : List (BitVec w)} (h : m.readRun n = some vs) (i : Nat)
    (hi : i < n) : m.read i = some (vs.getD i 0) := by
  obtain ⟨rfl, hread⟩ := Memory.readRun_eq_some_iff.mp h
  rw [hread i hi, List.getD_eq_getElem _ _ hi, List.getElem?_eq_getElem hi]

/-- R163's Z for one group: pol(a)·STRENGTH·SF, and the correlation of the carrier's samples c over the group. -/
def matchedSum (sf : Nat) (strength : BitVec 31) (a : PolBit) (c : Nat → Int) (p : Nat → PolBit) : Int :=
  pol a * (strength.toNat : Int) * (sf : Int) + ∑ j ∈ Finset.range sf, c j * pol (p j)

theorem groupSum_eq_matchedSum {sf g : Nat} {strength : BitVec 31} {a : PolBit} {x : Nat → Word} {c : Nat → Int}
    {p : Nat → PolBit}
    (h : ∀ j, j < sf → (x (g * sf + j)).toInt = c j + pol a * pol (p j) * (strength.toNat : Int)) :
    groupSum sf x p g = matchedSum sf strength a c p :=
  calc groupSum sf x p g = ∑ j ∈ Finset.range sf, (pol a * (strength.toNat : Int) + c j * pol (p j)) :=
        Finset.sum_congr rfl fun j hj => by
          rw [sint32_eq_toInt, h j (Finset.mem_range.mp hj)]
          linear_combination pol a * (strength.toNat : Int) * pol_mul_self (p j)
    _ = matchedSum sf strength a c p := by
        rw [Finset.sum_add_distrib, Finset.sum_const, Finset.card_range, nsmul_eq_mul, mul_comm]
        rfl

/-- The spreader's checks leave CORRELATE at least NSYM groups to decide. -/
theorem nsym_le_groupsDecided (h : SpreadChecksPass s) : s.nsym.toNat ≤ groupsDecided s := by
  obtain ⟨h1, -, hnsym, -, hcap⟩ := h
  exact le_min ((Nat.le_div_iff_mul_le h1).mpr hcap) hnsym

theorem groupsDecided_of_full (h : SpreadChecksPass s) (hfull : s.nsym.toNat * s.sf.toNat = s.slen.toNat) :
    groupsDecided s = s.nsym.toNat := by
  obtain ⟨h1, -, hnsym, -, -⟩ := h
  rw [groupsDecided, ← hfull, Nat.mul_div_cancel _ h1]
  exact min_eq_left hnsym

theorem groupsDecided_mul_sf_le (s : State) : groupsDecided s * s.sf.toNat ≤ s.slen.toNat :=
  (Nat.mul_le_mul_right _ (min_le_left _ _)).trans (Nat.div_mul_le_self _ _)

/-- R163: where the samples below L are the carrier c plus the payload, CORRELATE decides symbol i by `matchedSum`, and
CORR is the last symbol's where the payload fills SMP. -/
theorem exec_correlate_of_payload {y p : Nat → PolBit} {x : Nat → Word} {c : Nat → Int} (hpass : SpreadChecksPass t)
    (hp : ∀ j, j < t.sf.toNat → t.pn.read j = some (p j)) (hx : ∀ k, k < t.slen.toNat → t.smp.read k = some (x k))
    (hsum : ∀ i j, i < t.nsym.toNat → j < t.sf.toNat → (x (i * t.sf.toNat + j)).toInt =
      c (i * t.sf.toNat + j) + pol (y i) * pol (p j) * (t.strength.toNat : Int)) :
    ∃ u, exec .correlate t = .next u ∧
      (∀ i, i < t.nsym.toNat → u.sym.read i =
        some (sliceBit (matchedSum t.sf.toNat t.strength (y i) (fun j => c (i * t.sf.toNat + j)) p))) ∧
      (t.nsym.toNat * t.sf.toNat = t.slen.toNat → 0 < t.nsym.toNat → u.corr =
        wrap64 (matchedSum t.sf.toNat t.strength (y (t.nsym.toNat - 1))
          (fun j => c ((t.nsym.toNat - 1) * t.sf.toNat + j)) p)) := by
  have ⟨h1, hmax, _, hslen, _⟩ := hpass
  refine ⟨_, exec_correlate_of_cells ⟨h1, hmax, hslen⟩
    (fun k hk => hx k (hk.trans_le (groupsDecided_mul_sf_le t))) fun _ => hp, fun i hi => ?_, fun hfull h0 => ?_⟩
  · rw [correlated_sym_read_below _ t (hi.trans_le (nsym_le_groupsDecided hpass)),
      groupSum_eq_matchedSum fun j => hsum i j hi]
  · rw [correlated_corr, groupsDecided_of_full hpass hfull, if_neg h0.ne',
      groupSum_eq_matchedSum fun j => hsum _ j (Nat.sub_one_lt h0.ne')]

/-- Settles O27: without wrap-around SPREAD.ADD leaves the carrier's samples plus the payload (R143). -/
theorem matchedFilterSeparatesSymbolAndCarrier : Obligations.MatchedFilterSeparatesSymbolAndCarrier := by
  intro s t y p x hpass hy hp hx h hovf
  choose! v hread hv using spreadAddGivesStegoSamples s t y p x hpass hy hp hx h
  have hsum (i j : Nat) (hi : i < s.nsym.toNat) (hj : j < s.sf.toNat) : (v (i * s.sf.toNat + j)).toInt =
      (x (i * s.sf.toNat + j)).toInt + pol (y i) * pol (p j) * (s.strength.toNat : Int) := by
    have hL := chipIndex_lt hi hj
    have ⟨_, _, _, _, hcap⟩ := hpass
    obtain ⟨hdiv, hmod⟩ := chipIndex_div_mod (i := i) hj
    rw [(hv _ (hL.trans_le hcap)).2 hovf, if_pos hL, hdiv, hmod]
  obtain ⟨c, hc, -⟩ | ⟨symbols, chips, carrier, -, -, -, rfl⟩ := execSpreadAdd_next h
  · exact absurd (hc.symm.trans (checkSpread_eq_none_iff_checksPass.mpr hpass)) (by simp)
  exact exec_correlate_of_payload (c := fun k => (x k).toInt) hpass hp hread hsum

/-- Settles O28: SPREAD's samples are the payload on a carrier of zeros, so symbol i is decided by the sign of its own
polarity. -/
theorem spreadThenCorrelateRecoversSymbols : Obligations.SpreadThenCorrelateRecoversSymbols := by
  intro s t hpass hstrength h0 h
  have hc := checkSpread_eq_none_iff_checksPass.mpr hpass
  obtain ⟨c, herr, -⟩ | ⟨symbols, chips, -, ho, rfl⟩ := execSpread_next h
  · exact absurd (herr.symm.trans hc) (by simp)
  obtain ⟨hsym, hpn⟩ := readRun_of_spreadOperands ho h0
  have hy := Memory.read_of_readRun hsym
  have hp := Memory.read_of_readRun hpn
  have hx := Memory.read_of_readRun (Memory.readRun_fill s.smp (s.spreadSamples symbols chips))
  rw [spreadSamples_length ho hc] at hx
  have hsum (i j : Nat) (hi : i < s.nsym.toNat) (hj : j < s.sf.toNat) :
      ((s.spreadSamples symbols chips).getD (i * s.sf.toNat + j) 0).toInt =
        0 + pol (symbols.getD i 0) * pol (chips.getD j 0) * (s.strength.toNat : Int) := by
    have ⟨_, _, _, _, hcap⟩ := hpass
    obtain ⟨v, hv, hval, -⟩ := chipValueAndPlacement s _ i j _ _ h rfl hi hj (hy i hi) (hp j hj)
    have hread := hx _ ((chipIndex_lt hi hj).trans_le hcap)
    rw [Option.some.inj (hread.symm.trans hv), hval, Int.zero_add]
  obtain ⟨u, hu, hdecided, -⟩ := exec_correlate_of_payload (c := fun _ => 0)
    (t := (s.storeSamples (s.spreadSamples symbols chips)).completeOk) hpass hp hx hsum
  refine ⟨u, hu, fun i hi => (hdecided i hi).trans ?_⟩
  obtain ⟨h1, -⟩ := hpass
  have hpos : (0 : Int) < (s.strength.toNat : Int) * (s.sf.toNat : Int) := by positivity
  rw [hy i hi]
  simp [matchedSum, mul_assoc, sliceBit_pol_mul _ hpos]

end Sys2Proof.Machine
end

section
/-! The command engine (44_control.md R180 to R184): the issue of a command, the engine's turn, and what every
completion does to PENDING and STATUS. -/

namespace Sys2Proof.Machine

variable {s t : State} {i : Instr} {w : Word}

/-! The issue, and the engine's turn on a legal word. -/

/-- Settles O43: CMD is a register whose writes are blocked while BUSY = 1. -/
theorem commandIssueLatchesWord : Obligations.CommandIssueLatchesWord := fun _ w =>
  ⟨fun hb => busWrite_blocked (r := .cmd) w hb rfl, fun hb => busWrite_index (r := .cmd) w (.inl hb)⟩

theorem completeWord_of_decode (hd : decode w = .ok i) (s : State) : completeWord w s = exec i s := by
  rw [completeWord, hd]

theorem engineTurn_of_idle (hp : s.pending = none) : engineTurn s = .next s := by rw [engineTurn, hp]

/-- Settles O5: the step is the engine's turn, on the word that PENDING holds or on none. -/
theorem stepRunsPendingCommand : Obligations.StepRunsPendingCommand := by
  intro s hm hr hq
  rw [step_of_engineTurn hm hr hq]
  refine ⟨fun w i hp hd _ => ?_, fun hp => engineTurn_of_idle (s := s.setInputs s.inputs.tail) hp⟩
  exact (engineTurn_of_pending (s := s.setInputs s.inputs.tail) hp).trans (completeWord_of_decode hd _)

/-- Settles O8: NOP is the completion alone, which sets DONE, so that irq is IE. -/
theorem nopOnlyCompletes : Obligations.NopOnlyCompletes := by
  refine ⟨decode_encode .nop, fun s => ⟨rfl, fun t h => ?_⟩, by decide⟩
  cases h
  exact Bool.and_true s.ie

/-! ENCODE and CORRELATE on cells that hold values, whatever those are. -/

theorem execEncode_of_readRun {bytes : List Byte} (hc : checkEncode s = none)
    (hr : s.msg.readRun s.mlen.toNat = some bytes) :
    execEncode s = .next (s.storeSymbols (messageSymbols bytes)).completeOk := by simp [execEncode, hc, hr]

theorem execCorrelate_of_operands {samples : List Word} {chips : List PolBit} (hc : checkCorrelate s = none)
    (ho : s.correlateOperands = some (samples, chips)) :
    execCorrelate s = .next ((s.storeSymbols
      ((groupCorrelations s.sf.toNat chips s.decidedGroups samples).map sliceBit)).storeCorrelation
      ((groupCorrelations s.sf.toNat chips s.decidedGroups samples).getLastD 0)
      (clipFlag s.fullGroups s.params.symMax)).completeOk := by simp [execCorrelate, hc, ho]

/-! The check that a command makes before it reads any cell (60_exceptions.md R202). -/

/-- The code that the command's checks report, or none where they pass. -/
def commandCheck : Instr → State → Option ErrCode
  | .nop, _ => none
  | .genPn, s => checkGenPn s
  | .encode, s => checkEncode s
  | .spread, s => checkSpread s
  | .spreadAdd, s => checkSpread s
  | .correlate, s => checkCorrelate s
  | .decode, s => checkDecode s

theorem exec_of_checkError {c : ErrCode} (h : commandCheck i s = some c) : exec i s = .next (s.completeError c) := by
  cases i with
  | nop => cases h
  | genPn => exact execGenPn_of_error h
  | encode => exact execEncode_of_error h
  | spread => exact execSpread_of_error h
  | spreadAdd => exact execSpreadAdd_of_error h
  | correlate => exact execCorrelate_of_error h
  | decode => exact execDecode_of_error h

/-- NONE is no check's code. -/
theorem commandCheck_ne_noError (i : Instr) (s : State) : commandCheck i s ≠ some .noError := by
  cases i with
  | nop => nofun
  | genPn => rw [commandCheck, checkGenPn]; split_ifs <;> simp
  | encode => rw [commandCheck, checkEncode]; split_ifs <;> simp
  | spread | spreadAdd => exact checkSpread_ne_noError s
  | correlate => rw [commandCheck, checkCorrelate]; split_ifs <;> simp
  | decode => rw [commandCheck, checkDecode]; split_ifs <;> simp

/-! STATUS at a completion (R182). -/

/-- A state in which a command begun in `s` is complete: OK, or with a code other than NONE, in either case after
updates that leave the sticky flags of STATUS alone (10_state.md R25). -/
inductive CompletedFrom (s : State) : State → Prop where
  | ok {u : State} (herr : u.status.err = s.status.err) (hherr : u.status.herr = s.status.herr) :
      CompletedFrom s u.completeOk
  | error {u : State} {c : ErrCode} (hc : c ≠ .noError) (hherr : u.status.herr = s.status.herr) :
      CompletedFrom s (u.completeError c)

theorem CompletedFrom.of_checkError {c : ErrCode} (hc : commandCheck i s = some c) :
    CompletedFrom s (s.completeError c) :=
  .error (by rintro rfl; exact commandCheck_ne_noError i s hc) rfl

theorem completedFrom_of_exec (h : exec i s = .next t) : CompletedFrom s t := by
  cases i with
  | nop => cases h; exact .ok rfl rfl
  | genPn =>
    obtain ⟨c, hc, rfl⟩ | ⟨-, rfl⟩ := execGenPn_next h
    exacts [.of_checkError (i := .genPn) hc, .ok rfl rfl]
  | encode =>
    obtain ⟨c, hc, rfl⟩ | ⟨bytes, -, -, rfl⟩ := execEncode_next h
    exacts [.of_checkError (i := .encode) hc, .ok rfl rfl]
  | spread =>
    obtain ⟨c, hc, rfl⟩ | ⟨symbols, chips, -, -, rfl⟩ := execSpread_next h
    exacts [.of_checkError (i := .spread) hc, .ok rfl rfl]
  | spreadAdd =>
    obtain ⟨c, hc, rfl⟩ | ⟨symbols, chips, carrier, -, -, -, rfl⟩ := execSpreadAdd_next h
    exacts [.of_checkError (i := .spreadAdd) hc, .ok rfl rfl]
  | correlate =>
    obtain ⟨c, hc, rfl⟩ | ⟨samples, chips, -, -, rfl⟩ := execCorrelate_next h
    exacts [.of_checkError (i := .correlate) hc, .ok rfl rfl]
  | decode =>
    obtain ⟨c, hc, rfl⟩ | ⟨bits, -, -, ⟨b, -, rfl⟩ | ⟨-, rfl⟩⟩ := execDecode_next h
    exacts [.of_checkError (i := .decode) hc, .ok rfl rfl, .error (by decide) rfl]

theorem completedFrom_of_completeWord (h : completeWord w s = .next t) : CompletedFrom s t := by
  unfold completeWord at h
  split at h
  · exact completedFrom_of_exec h
  · cases h
    exact .error (by decide) rfl

/-- Settles O31: ERR is kept by a completion that is OK and set by one with a code, which is not NONE. -/
theorem completionWritesStatus : Obligations.CompletionWritesStatus := by
  intro w s t h
  cases completedFrom_of_completeWord h with
  | ok herr hherr => exact ⟨rfl, rfl, rfl, hherr, fun _ => herr, fun hne => absurd rfl hne⟩
  | error hc hherr => exact ⟨rfl, rfl, rfl, hherr, fun heq => absurd heq hc, fun _ => rfl⟩

/-! Completion where every cell that is read holds a value (R184). -/

theorem exec_completes (h : ¬ ReadsEmptyCell i s) : ∃ t, exec i s = .next t := by
  cases hc : commandCheck i s with
  | some c => exact ⟨_, exec_of_checkError hc⟩
  | none =>
    cases i with
    | nop => exact ⟨_, rfl⟩
    | genPn => exact ⟨_, execGenPn_of_check hc⟩
    | encode =>
      cases hr : s.msg.readRun s.mlen.toNat with
      | none => exact absurd ⟨checkEncode_eq_none_iff.mp hc, Memory.readRun_eq_none_iff.mp hr⟩ h
      | some bytes => exact ⟨_, execEncode_of_readRun hc hr⟩
    | spread =>
      have hpass : SpreadChecksPass s := checkSpread_eq_none_iff_checksPass.mp hc
      cases ho : s.spreadOperands with
      | none => exact absurd ⟨hpass, spreadOperands_eq_none_iff.mp ho⟩ h
      | some operands => exact ⟨_, execSpread_of_operands ho hc⟩
    | spreadAdd =>
      have hpass : SpreadChecksPass s := checkSpread_eq_none_iff_checksPass.mp hc
      cases ho : s.spreadOperands with
      | none => exact absurd ⟨hpass, (spreadOperands_eq_none_iff.mp ho).imp_right .inl⟩ h
      | some operands =>
        cases hr : s.smp.readRun s.payloadLength with
        | none => exact absurd ⟨hpass, .inr (.inr (Memory.readRun_eq_none_iff.mp hr))⟩ h
        | some carrier => exact ⟨_, execSpreadAdd_of_operands ho hc hr⟩
    | correlate =>
      cases ho : s.correlateOperands with
      | none =>
        exact absurd ⟨checkCorrelate_eq_none_iff_checksPass.mp hc, correlateOperands_eq_none_iff.mp ho⟩ h
      | some operands => exact ⟨_, execCorrelate_of_operands hc ho⟩
    | decode =>
      cases hr : s.sym.readRun (8 * s.assembledBytes) with
      | none => exact absurd ⟨checkDecode_eq_none_iff.mp hc, Memory.readRun_eq_none_iff.mp hr⟩ h
      | some bits =>
        cases hterm : terminatorIndex (assemble s.assembledBytes bits) with
        | some z => exact ⟨_, execDecode_of_terminator hc hr hterm⟩
        | none => exact ⟨_, execDecode_of_noTerminator hc hr hterm⟩

/-- Settles O30: the command completes, and its word's completion writes PENDING and STATUS as every one does. -/
theorem startedCommandCompletes : Obligations.StartedCommandCompletes := by
  intro i s h
  obtain ⟨t, ht⟩ := exec_completes h
  obtain ⟨hpending, hbusy, hdone, -⟩ :=
    completionWritesStatus (encode i) s t ((completeWord_of_decode (decode_encode i) s).trans ht)
  exact ⟨t, ht, hpending, hbusy, hdone⟩

end Sys2Proof.Machine
end

section
/-! Errors, faults and the interrupt (60_exceptions.md): when a command faults (R216), which check it reports and what
that leaves alone (R202, R203), the port irq (R208), and the host's verdict on an embed (R219). -/

namespace Sys2Proof.Machine

variable {s t : State} {i : Instr} {w : Word}

/-! The fault Uninit (R216). -/

theorem exec_of_readsEmptyCell (h : ReadsEmptyCell i s) : exec i s = .fault (.uninit (.command i)) := by
  cases i with
  | nop | genPn => exact h.elim
  | encode =>
    obtain ⟨hfit, hempty⟩ := h
    exact execEncode_of_empty (checkEncode_eq_none_iff.mpr hfit) (Memory.readRun_eq_none_iff.mpr hempty)
  | spread =>
    obtain ⟨hpass, hempty⟩ := h
    exact execSpread_of_empty (checkSpread_eq_none_iff_checksPass.mpr hpass) (spreadOperands_eq_none_iff.mpr hempty)
  | spreadAdd =>
    obtain ⟨hpass, hempty⟩ := h
    exact execSpreadAdd_of_empty (checkSpread_eq_none_iff_checksPass.mpr hpass)
      ((or_assoc.mpr hempty).imp spreadOperands_eq_none_iff.mpr Memory.readRun_eq_none_iff.mpr)
  | correlate =>
    obtain ⟨hpass, hempty⟩ := h
    exact execCorrelate_of_empty (checkCorrelate_eq_none_iff_checksPass.mpr hpass)
      (correlateOperands_eq_none_iff.mpr hempty)
  | decode =>
    obtain ⟨hfit, hempty⟩ := h
    exact execDecode_of_empty (checkDecode_eq_none_iff.mpr hfit) (Memory.readRun_eq_none_iff.mpr hempty)

/-- Settles O29: where no cell that the command reads is empty it completes, so a fault is the one on an empty cell. -/
theorem commandFaultsExactlyOnEmptyCell : Obligations.CommandFaultsExactlyOnEmptyCell := by
  refine fun i s f => ⟨fun h => ?_, by rintro ⟨rfl, hempty⟩; exact exec_of_readsEmptyCell hempty⟩
  have hempty : ReadsEmptyCell i s := by
    by_contra hno
    obtain ⟨t, ht⟩ := exec_completes hno
    cases ht.symm.trans h
  cases (exec_of_readsEmptyCell hempty).symm.trans h
  exact ⟨rfl, hempty⟩

/-! The first failing check (R202). -/

theorem firstCheckError_of_illegal (hw : wellFormedWord w = false) (s : State) : firstCheckError w s = .illegal :=
  if_pos hw

theorem getD_ite_some {α : Type} (p : Prop) [Decidable p] (c d : α) (o : Option α) :
    (if p then some c else o).getD d = if p then c else o.getD d := apply_ite (Option.getD · d) p (some c) o

/-- On a command's own word R202's order is the command's checks. -/
theorem firstCheckError_encode (i : Instr) (s : State) :
    firstCheckError (encode i) s = (commandCheck i s).getD .noError := by
  rw [firstCheckError, wellFormedWord_encode, show 8 * s.params.msgMax = s.params.symMax from rfl]
  cases i with
  | nop => simp [encode, commandCheck]
  | genPn => simp [encode, commandCheck, checkGenPn, getD_ite_some, sfIllegal_eq_true_iff]
  | encode => simp [encode, commandCheck, checkEncode, getD_ite_some]
  | spread | spreadAdd => simp [encode, commandCheck, checkSpread, getD_ite_some, sfIllegal_eq_true_iff]
  | correlate => simp [encode, commandCheck, checkCorrelate, getD_ite_some, sfIllegal_eq_true_iff]
  | decode => simp [encode, commandCheck, checkDecode, getD_ite_some]

/-- A command whose checks pass reports NONE, and DECODE may report NOTERM. -/
theorem errcode_of_checksPass (hc : commandCheck i s = none) (h : exec i s = .next t) :
    t.status.errcode = .noError ∨ (t.status.errcode = .noTerm ∧ i = .decode) := by
  have hpass (c : ErrCode) : commandCheck i s ≠ some c := by simp [hc]
  cases i with
  | nop => cases h; exact .inl rfl
  | genPn =>
    obtain ⟨c, hfail, -⟩ | ⟨-, rfl⟩ := execGenPn_next h
    exacts [absurd hfail (hpass c), .inl rfl]
  | encode =>
    obtain ⟨c, hfail, -⟩ | ⟨bytes, -, -, rfl⟩ := execEncode_next h
    exacts [absurd hfail (hpass c), .inl rfl]
  | spread =>
    obtain ⟨c, hfail, -⟩ | ⟨symbols, chips, -, -, rfl⟩ := execSpread_next h
    exacts [absurd hfail (hpass c), .inl rfl]
  | spreadAdd =>
    obtain ⟨c, hfail, -⟩ | ⟨symbols, chips, carrier, -, -, -, rfl⟩ := execSpreadAdd_next h
    exacts [absurd hfail (hpass c), .inl rfl]
  | correlate =>
    obtain ⟨c, hfail, -⟩ | ⟨samples, chips, -, -, rfl⟩ := execCorrelate_next h
    exacts [absurd hfail (hpass c), .inl rfl]
  | decode =>
    obtain ⟨c, hfail, -⟩ | ⟨bits, -, -, ⟨b, -, rfl⟩ | ⟨-, rfl⟩⟩ := execDecode_next h
    exacts [absurd hfail (hpass c), .inl rfl, .inr ⟨rfl, rfl⟩]

/-- A word is illegal, or the word of a command (R91, R94). -/
theorem illegal_or_encode (w : Word) : wellFormedWord w = false ∨ ∃ i, w = encode i := by
  cases hw : wellFormedWord w with
  | false => exact .inl rfl
  | true => exact .inr ((exists_decode_iff.mpr hw).imp fun _ => decode_eq_ok_iff.mp)

/-- Settles O33: an illegal word is reported before any check of a command, and a command makes its checks before it
reads a cell. -/
theorem firstFailingCheckIsReported : Obligations.FirstFailingCheckIsReported := by
  intro w s
  obtain hw | ⟨i, rfl⟩ := illegal_or_encode w
  · rw [firstCheckError_of_illegal hw]
    exact ⟨fun _ => completeWord_of_illegal hw s, nofun⟩
  · rw [firstCheckError_encode, completeWord_of_decode (decode_encode i)]
    cases hc : commandCheck i s with
    | some c =>
      refine ⟨fun _ => exec_of_checkError hc, fun hno => absurd hc ?_⟩
      rw [show c = .noError from hno]
      exact commandCheck_ne_noError i s
    | none =>
      refine ⟨fun hne => absurd rfl hne, fun _ t h => ?_⟩
      exact (errcode_of_checksPass hc h).imp_right (And.imp_right (congrArg encode))

/-- Settles O32: a completion with the code of a check is that of the first failing check, and where all checks pass the
code is none of these four (R202). -/
theorem checkErrorWritesOnlyStatus : Obligations.CheckErrorWritesOnlyStatus := by
  intro w s t h hcode
  obtain ⟨hfail, hpass⟩ := firstFailingCheckIsReported w s
  by_cases hfirst : firstCheckError w s = .noError
  · obtain hno | ⟨hno, -⟩ := hpass hfirst t h <;> simp [hno] at hcode
  · cases (hfail hfirst).symm.trans h
    rfl

/-! The port irq (R208). -/

theorem irq_eq_true_iff : s.irq = true ↔ s.ie = true ∧ s.status.done = true := Bool.and_eq_true_iff

theorem irq_of_ie_false (h : s.ie = false) : s.irq = false := by rw [State.irq, h, Bool.false_and]

theorem irq_of_done_false (h : s.status.done = false) : s.irq = false := by rw [State.irq, h, Bool.and_false]

theorem completeWord_keeps_ie (h : completeWord w s = .next t) : t.ie = s.ie := by
  obtain hw | ⟨i, rfl⟩ := illegal_or_encode w
  · rw [completeWord_of_illegal hw] at h
    cases h
    rfl
  · rw [completeWord_of_decode (decode_encode i)] at h
    cases completionOf_of_exec h <;> rfl

/-- Settles O45: a completion sets DONE and keeps IE; each of the writes, and the reset, clears DONE or IE. -/
theorem irqIsEnableAndDone : Obligations.IrqIsEnableAndDone := by
  refine ⟨fun s => irq_eq_true_iff, fun w s t hie h => ?_, fun s w hw => ?_, fun s w hb => ?_, fun s w hw => ?_,
    fun s => rfl⟩
  · obtain ⟨-, -, hdone, -⟩ := completionWritesStatus w s t h
    exact irq_eq_true_iff.mpr ⟨(completeWord_keeps_ie h).trans hie, hdone⟩
  · rw [statusWriteClearsOnes s w]
    exact irq_of_done_false (if_pos hw)
  · rw [(commandIssueLatchesWord s w).2 hb]
    exact irq_of_done_false rfl
  · have hwrite : busWrite 0x01#6 w s = writeReg .ctrl w s := busWrite_index (r := .ctrl) w (.inr rfl)
    rw [hwrite]
    cases h1 : w.getLsbD 1 with
    | true => exact irq_of_ie_false (by rw [writeReg, if_pos h1, softReset_ie])
    | false =>
      rw [writeReg_ctrl h1]
      exact irq_of_ie_false (hw.resolve_right (ne_true_of_eq_false h1))

/-! The verification of an embed (R219). -/

variable {validText : List Byte → Bool} {message : List Byte} {c d : State}

theorem embedPasses_eq_true_iff : embedPasses validText message c d = true ↔
    c.status.errcode = .noError ∧ d.status.errcode = .noError ∧ d.status.term = true ∧
      d.mlen.toNat = message.length ∧ d.msg.readRun message.length = some message ∧ validText message = true := by
  simp only [embedPasses, Bool.and_eq_true, decide_eq_true_iff, and_assoc]
  refine and_congr_right' (and_congr_right' (and_congr_right' (and_congr_right fun hlen => ?_)))
  rw [hlen]
  cases d.msg.readRun message.length with
  | none => simp
  | some bytes =>
    simp only [Bool.and_eq_true, decide_eq_true_iff, Option.some.injEq]
    exact and_congr_right fun h => by rw [h]

theorem readRun_ne_message_iff (m : Memory 8) (message : List Byte) :
    m.readRun message.length ≠ some message ↔ ∃ b, b < message.length ∧ m.read b ≠ message[b]? := by
  simp [Memory.readRun_eq_some_iff]

/-- Settles O59: the verdict passes where none of the failures holds. -/
theorem embedVerificationVerdict : Obligations.EmbedVerificationVerdict := by
  intro validText message latency s c d hc hd
  refine ⟨embedPasses validText message c d, by rw [hostVerify, hc, hostThen_next, hd, hostThen_next], ?_⟩
  rw [← Bool.not_eq_true, embedPasses_eq_true_iff, ← readRun_ne_message_iff]
  simp only [not_and_or, Bool.not_eq_true, ne_eq]

end Sys2Proof.Machine
end

section
/-! The resets (10_state.md R49; 70_reset_and_hazards.md R230 to R233). -/

namespace Sys2Proof.Machine

variable {s : State}

/-! The external reset and the launch state. -/

/-- Settles O50: the fields of the launch state, and memories that list no cell. -/
theorem launchStateAfterReset : Obligations.LaunchStateAfterReset :=
  ⟨rfl, rfl, by decide, rfl, rfl, rfl, rfl, fun x _ => by cases x <;> rfl, rfl, rfl, rfl, rfl, rfl,
    fun x => by cases x <;> rfl⟩

theorem setRstN_self {level : Bool} (h : s.rstN = level) : s.setRstN level = s := by
  subst h
  rfl

/-- While rst_n is low, an entry that is no read only resets the block again, with the level that the entry gives. -/
theorem heldInReset_of_not_read {e : Input} (hr : s.rstN = false) (he : ∀ idx, e ≠ .read idx) :
    heldInReset e s = s.externalReset.setRstN (decide (e = .rst true)) := by
  cases e with
  | read idx => exact absurd rfl (he idx)
  | rst level => cases level <;> rfl
  | write idx w => exact (setRstN_self (s := s.externalReset) hr).symm
  | engine => exact (setRstN_self (s := s.externalReset) hr).symm

theorem irq_heldInReset (e : Input) (s : State) : (heldInReset e s).irq = false := by cases e <;> rfl

/-- Settles O51: the step takes the head of the queue, which is the external reset where rst_n falls and in each entry
while it is low. -/
theorem externalResetHoldsBlock : Obligations.ExternalResetHoldsBlock := by
  intro s e rest hm hq
  have hstep : step s = takeInput e (s.setInputs rest) := step_of_cons hm hq
  have hheld (hr : s.rstN = false) : step s = .next (heldInReset e (s.setInputs rest)) :=
    hstep.trans (if_neg (ne_true_of_eq_false hr))
  have hfall (he : e = .rst false) : step s = .next ((s.setInputs rest).externalReset.setRstN false) := by
    rw [hstep, he]
    exact ite_self _
  refine ⟨hfall, fun hr => ⟨?_, fun he => ?_⟩, fun t hlow ht => ?_⟩
  · rintro idx rfl
    exact ⟨_, _, hheld hr⟩
  · rw [hheld hr, heldInReset_of_not_read (s := s.setInputs rest) hr he]
    rfl
  · obtain he | hr := hlow
    · rw [hfall he] at ht
      cases ht
      rfl
    · rw [hheld hr] at ht
      cases ht
      exact irq_heldInReset e _

/-! The soft reset, by the table of R233. -/

theorem readCell_invalidate (x y : MemName) (n k : Nat) (s : State) :
    (s.invalidate x n).readCell y k = if y = x ∧ k < n then none else s.readCell y k := by
  by_cases hk : k < n <;> cases x <;> cases y <;>
    simp [State.readCell, State.invalidate, Memory.read_invalidate, hk]

/-- Where a condition takes the values of a run away, the cells it takes are the table's cells if the row says so. -/
theorem readCell_ite_invalidate {target p : Prop} [Decidable target] [Decidable p] {x y : MemName} {k n : Nat}
    (h : target ↔ p ∧ x = y ∧ k < n) :
    (if p then s.invalidate y n else s).readCell x k = if target then none else s.readCell x k := by
  simp only [h]
  by_cases hp : p <;> simp [hp, readCell_invalidate]

/-- Each row of the table is that of one command. -/
theorem pending_of_abortTarget {x : MemName} {k : Nat} (h : AbortTarget s x k) : ∃ i, s.pending = some (encode i) := by
  obtain ⟨hp, -⟩ | ⟨hp, -⟩ | ⟨hp, -⟩ | ⟨hp, -⟩ | ⟨hp, -⟩ | ⟨hp, -⟩ := h
  exacts [⟨.genPn, hp⟩, ⟨.encode, hp⟩, ⟨.spread, hp⟩, ⟨.spreadAdd, hp⟩, ⟨.correlate, hp⟩, ⟨.decode, hp⟩]

theorem abortCommand_readCell {i : Instr} (hp : s.pending = some (encode i)) (x : MemName) (k : Nat) :
    (abortCommand i s).readCell x k = if AbortTarget s x k then none else s.readCell x k := by
  cases i with
  | nop => simp [abortCommand, AbortTarget, hp, encode]
  | genPn =>
    exact readCell_ite_invalidate (by simp [AbortTarget, hp, encode, checkGenPn_eq_none_iff, and_assoc])
  | encode => exact readCell_ite_invalidate (by simp [AbortTarget, hp, encode, checkEncode_eq_none_iff])
  | spread => exact readCell_ite_invalidate (by simp [AbortTarget, hp, encode, checkSpread_eq_none_iff_checksPass])
  | spreadAdd =>
    exact readCell_ite_invalidate
      (by simp [AbortTarget, hp, encode, checkSpread_eq_none_iff_checksPass, State.payloadLength])
  | correlate =>
    exact readCell_ite_invalidate (by
      rw [checkCorrelate_eq_none_iff_checksPass, show s.decidedGroups = groupsDecided s from rfl]
      simp [AbortTarget, hp, encode])
  | decode =>
    exact readCell_ite_invalidate
      (by simp [AbortTarget, hp, encode, checkDecode_eq_none_iff, State.assembledBytes, Params.symMax])

theorem abortPending_readCell (x : MemName) (k : Nat) (s : State) :
    (abortPending s).readCell x k = if AbortTarget s x k then none else s.readCell x k := by
  by_cases hlegal : ∃ i, s.pending = some (encode i)
  · obtain ⟨i, hp⟩ := hlegal
    have habort : abortPending s = abortCommand i s := by simp [abortPending, hp, decode_encode]
    rw [habort, abortCommand_readCell hp]
  · rw [if_neg fun h => hlegal (pending_of_abortTarget h)]
    have habort : abortPending s = s := by
      unfold abortPending
      split
      · rfl
      · next w hp =>
        cases hd : decode w with
        | error e => rfl
        | ok i => exact absurd ⟨i, by rw [hp, decode_eq_ok_iff.mp hd]⟩ hlegal
    rw [habort]

/-- Settles O49: a soft reset is never blocked; an abort takes values away by the table, and then the registers are
reset. -/
theorem softResetAndAbort : Obligations.SoftResetAndAbort := by
  rintro s t w hw rfl
  have hreset : busWrite 0x01#6 w s = s.softReset :=
    (busWrite_index (r := .ctrl) w (.inr rfl)).trans (if_pos hw)
  have hcell (x : MemName) (k : Nat) :
      s.softReset.readCell x k = if AbortTarget s x k then none else s.readCell x k :=
    Eq.trans (by cases x <;> rfl) (abortPending_readCell x k s)
  rw [hreset]
  refine ⟨?_, by simp [readReg_ctrl], fun x k h => (hcell x k).trans (if_pos h),
    fun x k h => (hcell x k).trans (if_neg h)⟩
  obtain ⟨x, n, h⟩ := softReset_eq s
  rw [h]
  cases x <;> rfl

end Sys2Proof.Machine
end

section
/-! The host's accesses one after another on a block that is not busy (30_encoding.md R96, R97): writes, the RUN of a
command, LOAD and DUMP. -/

namespace Sys2Proof.Machine

variable {s t : State} {x : MemName} {i : Instr}

theorem takeInput_opW (hr : s.rstN = true) (hb : s.status.busy = false) (r : Reg) (v : Word) :
    takeInput (opW r v) s = .next (writeReg r v s) :=
  (takeInput_of_rstN _ hr).trans (congrArg Host.Outcome.next (busWrite_index v (.inl hb)))

/-! RUN. -/

theorem runInputs_polls (n : Nat) (hr : s.rstN = true) :
    ∃ v, runInputs (List.replicate n (opR .status)) s = .next (s.setRdata v) := by
  induction n generalizing s with
  | zero => exact ⟨s.rdata, rfl⟩
  | succ n ih =>
    obtain ⟨v, hv⟩ := ih (s := s.setRdata s.status.toWord) hr
    exact ⟨v, by rw [List.replicate_succ, runInputs_cons, takeInput_poll hr, hostThen_next, hv]; rfl⟩

theorem exec_keeps_rstN (h : exec i s = .next t) : t.rstN = s.rstN := by
  cases completionOf_of_exec h <;> rfl

/-- A RUN is the command's completion, with PENDING and STATUS as its issue left them; the polls move rdata alone. -/
theorem runInputs_opRun (i : Instr) (n : Nat) (hr : s.rstN = true) (hb : s.status.busy = false) :
    ∃ v, runInputs (opRun i n) s =
      hostThen (exec i ((s.issue (encode i)).setRdata v)) fun u => .next (u.setRdata u.status.toWord) := by
  obtain ⟨v, hpolls⟩ := runInputs_polls (s := s.issue (encode i)) n hr
  have hturn : takeInput .engine ((s.issue (encode i)).setRdata v) = exec i ((s.issue (encode i)).setRdata v) :=
    (takeInput_of_rstN (s := (s.issue (encode i)).setRdata v) .engine hr).trans
      (completeWord_of_decode (decode_encode i) _)
  refine ⟨v, ?_⟩
  rw [opRun, opCmd, runInputs_cons, takeInput_opW hr hb, hostThen_next, writeReg, opWait, runInputs_append, hpolls,
    hostThen_next, runInputs_cons, hturn]
  cases h : exec i ((s.issue (encode i)).setRdata v) with
  | next u =>
    rw [hostThen_next, runInputs_cons, takeInput_poll ((exec_keeps_rstN h).trans hr)]
    rfl
  | fault f => rfl
  | refused r => rfl

theorem runInputs_opRun_next {n : Nat} (hr : s.rstN = true) (hb : s.status.busy = false)
    (h : runInputs (opRun i n) s = .next t) :
    ∃ v w u, exec i ((s.issue (encode i)).setRdata v) = .next u ∧ t = u.setRdata w := by
  obtain ⟨v, hv⟩ := runInputs_opRun i n hr hb
  obtain ⟨u, hu, ht⟩ := hostThen_eq_next_iff.mp (hv ▸ h)
  cases ht
  exact ⟨v, _, u, hu, rfl⟩

/-- What a RUN leaves as it was (10_state.md R48), and that the block is not busy after it. -/
theorem runInputs_opRun_frame {n : Nat} (hr : s.rstN = true) (hb : s.status.busy = false)
    (h : runInputs (opRun i n) s = .next t) :
    t.rstN = true ∧ t.status.busy = false ∧ t.params = s.params ∧ t.sf = s.sf ∧ t.slen = s.slen ∧
      (i ≠ .genPn → t.pn = s.pn) ∧ (i ≠ .spread → i ≠ .spreadAdd → t.smp = s.smp) := by
  obtain ⟨v, w, u, hu, rfl⟩ := runInputs_opRun_next hr hb h
  cases completionOf_of_exec hu <;> simp [hr, Status.completedOk, Status.completedError]

/-! LOAD. -/

/-- The block after the words have been written to a data port one after another (20_memory.md R76). -/
def State.loaded (x : MemName) (vs : List Word) (s : State) : State := vs.foldl (fun u v => portWrite x v u) s

theorem writeCell_pn_of_ne (hx : x ≠ .pn) (k : Nat) (v : Word) (s : State) : (s.writeCell x k v).pn = s.pn := by
  cases x with
  | pn => exact absurd rfl hx
  | _ => rfl

theorem portWrite_frame (x : MemName) (v : Word) (s : State) :
    (portWrite x v s).rstN = s.rstN ∧ (portWrite x v s).status.busy = s.status.busy ∧
      (portWrite x v s).params = s.params ∧ (portWrite x v s).sf = s.sf ∧ (x ≠ .pn → (portWrite x v s).pn = s.pn) := by
  unfold portWrite
  split <;> simp +contextual [writeCell_pn_of_ne]

theorem loaded_frame (x : MemName) (vs : List Word) (s : State) :
    (s.loaded x vs).rstN = s.rstN ∧ (s.loaded x vs).status.busy = s.status.busy ∧
      (s.loaded x vs).params = s.params ∧ (s.loaded x vs).sf = s.sf ∧ (x ≠ .pn → (s.loaded x vs).pn = s.pn) := by
  induction vs generalizing s with
  | nil => exact ⟨rfl, rfl, rfl, rfl, fun _ => rfl⟩
  | cons v vs ih =>
    obtain ⟨hr, hb, hp, hsf, hpn⟩ := portWrite_frame x v s
    obtain ⟨hr', hb', hp', hsf', hpn'⟩ := ih (portWrite x v s)
    exact ⟨hr'.trans hr, hb'.trans hb, hp'.trans hp, hsf'.trans hsf, fun hx => (hpn' hx).trans (hpn hx)⟩

theorem runInputs_opLoad (x : MemName) (vs : List Word) (hr : s.rstN = true) (hb : s.status.busy = false) :
    runInputs (opLoad x vs) s = .next (s.loaded x vs) := by
  induction vs generalizing s with
  | nil => rfl
  | cons v vs ih =>
    obtain ⟨hr', hb', -⟩ := portWrite_frame x v s
    rw [opLoad, List.map_cons, runInputs_cons, takeInput_opW hr hb]
    exact ih (hr'.trans hr) (hb'.trans hb)

/-- Samples loaded from cell k on fill the cells from there, and the cells before keep theirs. -/
theorem loaded_smp_read {vs : List Word} {k : Nat} (hptr : s.smpPtr = BitVec.ofNat 32 k)
    (hfit : k + vs.length ≤ s.params.smpMax) (hword : k + vs.length ≤ 2 ^ 32) :
    (∀ j, j < k → (s.loaded .smp vs).smp.read j = s.smp.read j) ∧
      ∀ j, j < vs.length → (s.loaded .smp vs).smp.read (k + j) = vs[j]? := by
  induction vs generalizing s k with
  | nil => exact ⟨fun _ _ => rfl, nofun⟩
  | cons v vs ih =>
    rw [List.length_cons] at hfit hword
    have hk : (s.ptr .smp).toNat = k := by
      rw [State.ptr, hptr, BitVec.toNat_ofNat]
      exact Nat.mod_eq_of_lt (by omega)
    have hwrite : portWrite .smp v s = (s.writeCell .smp k v).stepPtr .smp := by
      rw [portWrite_of_inside v (by rw [hk, State.size]; omega), hk]
    have hnext : (portWrite .smp v s).smpPtr = BitVec.ofNat 32 (k + 1) := by
      rw [hwrite, BitVec.ofNat_add, ← hptr]
      rfl
    have hsmp : (portWrite .smp v s).smp = s.smp.write k v := by rw [hwrite]; rfl
    obtain ⟨hbelow, hcells⟩ := ih (s := portWrite .smp v s) hnext (by rw [portWrite_params]; omega) (by omega)
    refine ⟨fun j hj => (hbelow j (by omega)).trans ?_, fun j hj => ?_⟩
    · rw [hsmp, Memory.read_write_other v _ (by omega)]
    · cases j with
      | zero => exact (hbelow k (by omega)).trans (by rw [hsmp]; exact Memory.read_write_same k v s.smp)
      | succ j =>
        rw [← Nat.add_assoc, Nat.add_right_comm]
        exact hcells j (by simpa using hj)

/-! DUMP. -/

/-- A DUMP of cells inside the memory goes on exactly where each of them holds a value, and returns those values. -/
theorem hostDump_eq_next_iff {n k : Nat} {ws : List Word} (hr : s.rstN = true) (hb : s.status.busy = false)
    (hptr : s.ptr x = BitVec.ofNat 32 k) (hfit : k + n ≤ s.size x) (hword : k + n ≤ 2 ^ 32) :
    (∃ t, hostDump x n s = .next (ws, t)) ↔ ws.length = n ∧ ∀ j, j < n → s.readCell x (k + j) = ws[j]? := by
  induction n generalizing s k ws with
  | zero => cases ws <;> simp [hostDump]
  | succ n ih =>
    have hk : (s.ptr x).toNat = k := by
      rw [hptr, BitVec.toNat_ofNat]
      exact Nat.mod_eq_of_lt (by omega)
    have hread : takeInput (opR (.data x)) s = portRead x s := (takeInput_of_rstN _ hr).trans (busRead_dataIndex x s)
    rw [hostDump, hread, Nat.forall_lt_succ_left, Nat.add_zero]
    cases hv : s.readCell x k with
    | none =>
      rw [portRead_of_empty hb (by omega) (hk ▸ hv)]
      refine iff_of_false (by simp) fun ⟨hlen, hfirst, _⟩ => ?_
      rw [eq_comm, List.getElem?_eq_none_iff] at hfirst
      omega
    | some v =>
      rw [portRead_of_value hb (by omega) (hk ▸ hv), hostThen_next]
      have hnext : ((s.setRdata v).stepPtr x).ptr x = BitVec.ofNat 32 (k + 1) := by
        rw [State.stepPtr_ptr_same, State.setRdata_ptr, hptr, BitVec.ofNat_add]
      cases ws with
      | nil => simp [hostThen_eq_next_iff]
      | cons w ws =>
        have hrest := ih (s := (s.setRdata v).stepPtr x) (k := k + 1) (ws := ws) (by simpa using hr) (by simpa using hb)
          hnext (by rw [State.stepPtr_size]; exact (show k + 1 + n ≤ s.size x by omega)) (by omega)
        simp only [State.stepPtr_readCell, State.setRdata_readCell, Nat.add_assoc, Nat.add_comm 1] at hrest
        simpa [hostThen_eq_next_iff, and_assoc, and_left_comm] using fun _ => hrest

/-- The read-out of cells 0 .. n−1 of a memory (70_reset_and_hazards.md R235, R236). -/
theorem hostReadOut_eq_next_iff {n : Nat} {ws : List Word} (hr : s.rstN = true) (hb : s.status.busy = false)
    (hfit : n ≤ s.size x) (hword : n ≤ 2 ^ 32) :
    (∃ t, hostReadOut x n s = .next (ws, t)) ↔ ws.length = n ∧ ∀ j, j < n → s.readCell x j = ws[j]? := by
  have hdump := hostDump_eq_next_iff (s := s.setPtr x 0#32) (n := n) (k := 0) (ws := ws) (by simpa using hr)
    (by simpa using hb) (State.setPtr_ptr_same x 0#32 s) (by simpa using hfit) (by simpa using hword)
  rw [hostReadOut, takeInput_opW hr hb, hostThen_next, writeReg]
  simpa using hdump

end Sys2Proof.Machine
end

section
/-! The message of an embed, extracted again (95_test_vectors.md S5, 90_conflicts.md C4): two blocks with the same
signal and the same PN sequence decide the same symbols, and the same symbols make the same message. -/

namespace Sys2Proof.Machine

variable {s s' t t' : State} {p : Params} {sf seed : Word} {i : Instr}

theorem checksPass_of_noError (h : exec i s = .next t) (he : t.status.errcode = .noError) :
    commandCheck i s = none := by
  cases hc : commandCheck i s with
  | none => rfl
  | some c =>
    rw [exec_of_checkError hc] at h
    cases h
    exact absurd (hc.trans (congrArg some he)) (commandCheck_ne_noError i s)

theorem Memory.readRun_congr {w n : Nat} {m m' : Memory w} (h : ∀ k, k < n → m.read k = m'.read k) :
    m.readRun n = m'.readRun n := by
  ext vs
  simp +contextual only [Memory.readRun_eq_some_iff, h]

theorem Memory.read_fill_congr {w k : Nat} {m m' : Memory w} {vs : List (BitVec w)} (hk : k < vs.length) :
    (m.fill vs).read k = (m'.fill vs).read k := by
  rw [Memory.read_fill_below m hk, Memory.read_fill_below m' hk]

/-! CORRELATE. -/

/-- The two blocks hold the same signal under the same PN sequence. -/
structure SameSignal (s s' : State) : Prop where
  params : s.params = s'.params
  sf : s.sf = s'.sf
  slen : s.slen = s'.slen
  pn : ∀ j, j < s.sf.toNat → s.pn.read j = s'.pn.read j
  smp : ∀ k, k < s.slen.toNat → s.smp.read k = s'.smp.read k

/-- The two blocks hold the same symbols. -/
structure SameSymbols (s s' : State) : Prop where
  params : s.params = s'.params
  nsym : s.nsym = s'.nsym
  sym : ∀ k, k < s.nsym.toNat → s.sym.read k = s'.sym.read k

theorem SameSignal.decidedGroups (h : SameSignal s s') : s.decidedGroups = s'.decidedGroups := by
  rw [State.decidedGroups, State.decidedGroups, State.fullGroups, State.fullGroups, h.params, h.sf, h.slen]

theorem SameSignal.correlateOperands (h : SameSignal s s') : s.correlateOperands = s'.correlateOperands := by
  have hsmp : s.smp.readRun (s.decidedGroups * s.sf.toNat) = s'.smp.readRun (s.decidedGroups * s.sf.toNat) :=
    Memory.readRun_congr fun k hk => h.smp k (hk.trans_le (groupsDecided_mul_sf_le s))
  rw [State.correlateOperands, State.correlateOperands, hsmp, Memory.readRun_congr h.pn, h.decidedGroups, h.sf]

theorem SameSignal.checkCorrelate (h : SameSignal s s') : checkCorrelate s = checkCorrelate s' := by
  rw [Machine.checkCorrelate, Machine.checkCorrelate, State.sfIllegal, State.sfIllegal, h.params, h.sf, h.slen]

/-- CORRELATE's decisions depend on the signal and the PN sequence alone. -/
theorem SameSignal.correlate (h : SameSignal s s') (hx : exec .correlate s = .next t)
    (he : t.status.errcode = .noError) : ∃ t', exec .correlate s' = .next t' ∧ SameSymbols t t' := by
  obtain ⟨c, hc, -⟩ | ⟨samples, chips, hc, ho, rfl⟩ := execCorrelate_next hx
  · exact absurd ((checksPass_of_noError hx he).symm.trans hc) nofun
  · refine ⟨_, execCorrelate_of_operands (h.checkCorrelate ▸ hc) (h.correlateOperands ▸ ho), h.params, ?_, ?_⟩
    · simp [h.decidedGroups]
    · intro k hk
      rw [← h.decidedGroups, ← h.sf]
      refine Memory.read_fill_congr (hk.trans_le ?_)
      exact Nat.mod_le _ _

/-! DECODE. -/

/-- The two blocks hold the same message, which lies inside the memory. -/
structure SameMessage (s s' : State) : Prop where
  mlen : s.mlen = s'.mlen
  inside : s'.mlen.toNat ≤ s'.params.msgMax
  msg : ∀ b, b < s.mlen.toNat → s.msg.read b = s'.msg.read b

/-- DECODE's message depends on the symbols alone. -/
theorem SameSymbols.decode (h : SameSymbols s s') (hx : exec .decode s = .next t)
    (he : t.status.errcode = .noError) :
    ∃ t', exec .decode s' = .next t' ∧ t'.status.errcode = .noError ∧ SameMessage t t' := by
  have hbytes : s.assembledBytes = s'.assembledBytes := by rw [State.assembledBytes, State.assembledBytes, h.nsym]
  have hcheck : checkDecode s = checkDecode s' := by rw [checkDecode, checkDecode, h.params, h.nsym]
  have hrun : s.sym.readRun (8 * s.assembledBytes) = s'.sym.readRun (8 * s.assembledBytes) :=
    Memory.readRun_congr fun k hk => h.sym k (hk.trans_le (Nat.mul_div_le _ _))
  have hc := checksPass_of_noError hx he
  obtain ⟨c, hfail, -⟩ | ⟨bits, -, hbits, ⟨z, hz, rfl⟩ | ⟨-, rfl⟩⟩ := execDecode_next hx
  · exact absurd (hc.symm.trans hfail) nofun
  · have hlt : z < s.assembledBytes := by
      have hzero := (terminatorIndex_eq_some_iff.mp hz).1
      simpa using (List.getElem?_eq_some_iff.mp hzero).1
    have hroom : s.assembledBytes ≤ s.params.msgMax := by
      have hn : s.nsym.toNat ≤ 8 * s.params.msgMax := checkDecode_eq_none_iff.mp hc
      rw [State.assembledBytes]
      omega
    have hmlen : (BitVec.ofNat 32 z).toNat ≤ z := Nat.mod_le _ _
    refine ⟨_, execDecode_of_terminator (hcheck ▸ hc) (hbytes ▸ hrun ▸ hbits) (hbytes ▸ hz), rfl, rfl, ?_, ?_⟩
    · change (BitVec.ofNat 32 z).toNat ≤ s'.params.msgMax
      rw [← h.params]
      omega
    · intro b hb
      rw [← hbytes]
      refine Memory.read_fill_congr ?_
      rw [assemble_length]
      exact hb.trans_le (hmlen.trans hlt.le)
  · exact absurd he nofun

end Sys2Proof.Machine
end

section
/-! The host's embed and extract (70_reset_and_hazards.md R235, R236) on the block: what an embed that returns a signal
has gone through, and what extract finds on another block. -/

namespace Sys2Proof.Machine

variable {s s' t : State} {p : Params} {sf seed : Word} {i : Instr} {message : List Byte} {validText : List Byte → Bool}

/-- The block is not busy, and holds SF and, where SF is legal, the PN sequence of SEED. -/
structure Generated (p : Params) (sf seed : Word) (s : State) : Prop where
  rstN : s.rstN = true
  busy : s.status.busy = false
  params : s.params = p
  factor : s.sf = sf
  pn : 1 ≤ sf.toNat → sf.toNat ≤ p.pnMax →
    ∀ j, j < sf.toNat → s.pn.read j = (lfsrChips sf.toNat (scramble seed))[j]?

theorem Generated.of_frame (h : Generated p sf seed s) (hr : t.rstN = s.rstN) (hb : t.status.busy = s.status.busy)
    (hp : t.params = s.params) (hsf : t.sf = s.sf) (hpn : t.pn = s.pn) : Generated p sf seed t where
  rstN := hr.trans h.rstN
  busy := hb.trans h.busy
  params := hp.trans h.params
  factor := hsf.trans h.factor
  pn := by rw [hpn]; exact h.pn

/-- RUN GEN_PN always goes through, and with a legal SF it leaves the chips of SEED. -/
theorem runInputs_genPn (n : Nat) (hr : s.rstN = true) (hb : s.status.busy = false) :
    ∃ t, runInputs (opRun .genPn n) s = .next t ∧ Generated s.params s.sf s.seed t := by
  obtain ⟨v, hrun⟩ := runInputs_opRun (s := s) .genPn n hr hb
  obtain ⟨u, hu⟩ := exec_completes (i := .genPn) (s := (s.issue (encode .genPn)).setRdata v) id
  rw [hu, hostThen_next] at hrun
  obtain ⟨hr', hb', hp, hsf, -⟩ := runInputs_opRun_frame hr hb hrun
  refine ⟨_, hrun, hr', hb', hp, hsf, fun h1 hmax j hj => ?_⟩
  rw [State.setRdata_pn, exec_genPn_pn (s := (s.issue (encode .genPn)).setRdata v) h1 hmax hu]
  exact (Memory.read_fill _ _ j).trans (if_pos (hj.trans_eq (lfsrChips_length _ _).symm))

theorem runInputs_generate (sf seed : Word) (n : Nat) (hr : s.rstN = true) (hb : s.status.busy = false) :
    ∃ t, runInputs ([opW .sf sf, opW .seed seed] ++ opRun .genPn n) s = .next t ∧ Generated s.params sf seed t := by
  obtain ⟨t, hrun, hgen⟩ := runInputs_genPn (s := writeReg .seed seed (writeReg .sf sf s)) n hr hb
  refine ⟨t, ?_, hgen⟩
  rw [runInputs_append, runInputs_cons, takeInput_opW hr hb, hostThen_next, runInputs_cons,
    takeInput_opW (s := writeReg .sf sf s) hr hb]
  exact hrun

/-! What keeps the PN sequence in place. -/

theorem Generated.write (h : Generated p sf seed s) {r : Reg}
    (hreg : r ∈ [Reg.mlen, .slen, .strength, .ptr .msg, .ptr .smp]) (v : Word) : runInputs [opW r v] s = .next (writeReg r v s) ∧ Generated p sf seed (writeReg r v s) := by
  refine ⟨by rw [runInputs_cons, takeInput_opW h.rstN h.busy]; rfl, ?_⟩
  simp only [List.mem_cons, List.not_mem_nil, or_false] at hreg
  obtain rfl | rfl | rfl | rfl | rfl := hreg <;> exact h.of_frame rfl rfl rfl rfl rfl

theorem Generated.load (h : Generated p sf seed s) {x : MemName} (hx : x ≠ .pn) (vs : List Word) :
    runInputs (opLoad x vs) s = .next (s.loaded x vs) ∧ Generated p sf seed (s.loaded x vs) := by
  obtain ⟨hr, hb, hp, hsf, hpn⟩ := loaded_frame x vs s
  exact ⟨runInputs_opLoad x vs h.rstN h.busy, h.of_frame hr hb hp hsf (hpn hx)⟩

theorem Generated.run {n : Nat} (h : Generated p sf seed s) (hi : i ≠ .genPn) (ht : runInputs (opRun i n) s = .next t) :
    Generated p sf seed t := by
  obtain ⟨hr, hb, hp, hsf, -, hpn, -⟩ := runInputs_opRun_frame h.rstN h.busy ht
  exact h.of_frame (hr.trans h.rstN.symm) (hb.trans h.busy.symm) hp hsf (hpn hi)

/-! Embed. -/

theorem embedPrologue_generated {latency : Instr → Nat} (hr : s.rstN = true) (hb : s.status.busy = false)
    (h : runInputs (embedPrologue sf seed message latency) s = .next t) : Generated s.params sf seed t := by
  obtain ⟨a, ha, hga⟩ := runInputs_generate sf seed (latency .genPn) hr hb
  obtain ⟨hptr, hgptr⟩ := hga.write (r := .ptr .msg) (by simp) 0#32
  obtain ⟨hload, hgload⟩ := hgptr.load (x := .msg) nofun (message.map fun b => b.setWidth 32)
  obtain ⟨hmlen, hgmlen⟩ := hgload.write (r := .mlen) (by simp) (BitVec.ofNat 32 message.length)
  rw [embedPrologue, runInputs_append, runInputs_append, runInputs_append, ha, hostThen_next, hptr, hostThen_next,
    hload, hostThen_next, hmlen] at h
  cases h
  exact hgmlen

theorem channelSequence_generated {strength : Word} {carrier : List Word} {latency : Instr → Nat}
    (hs : Generated p sf seed s) (h : runInputs (channelSequence strength carrier latency) s = .next t) :
    Generated p sf seed t := by
  simp only [channelSequence, runInputs_append, hostThen_assoc] at h
  obtain ⟨a, ha, h⟩ := hostThen_eq_next_iff.mp h
  have hga := hs.run (i := .encode) nofun ha
  obtain ⟨hptr, hgptr⟩ := hga.write (r := .ptr .smp) (by simp) 0#32
  obtain ⟨hload, hgload⟩ := hgptr.load (x := .smp) nofun carrier
  obtain ⟨hslen, hgslen⟩ := hgload.write (r := .slen) (by simp) (BitVec.ofNat 32 carrier.length)
  obtain ⟨hstrength, hgstrength⟩ := hgslen.write (r := .strength) (by simp) strength
  rw [hptr, hostThen_next, hload, hostThen_next, hslen, hostThen_next, hstrength, hostThen_next] at h
  exact hgstrength.run (i := .spreadAdd) nofun h

/-- An embed into one channel that returns a signal has added the payload, has verified it, and has read the
signal out. -/
theorem hostEmbed_ok {strength : Word} {carrier stego : List Word} {latency : Nat → Instr → Nat}
    (hr : s.rstN = true) (hb : s.status.busy = false)
    (h : hostEmbed sf seed strength validText message [carrier] latency s = .next (.ok [stego], t)) :
    ∃ a c d, Generated s.params sf seed a ∧
      runInputs (opRun .correlate (latency 0 .correlate)) a = .next c ∧
      runInputs (opRun .decode (latency 0 .decode)) c = .next d ∧ embedPasses validText message c d = true ∧
      hostReadOut .smp d.slen.toNat d = .next (stego, t) := by
  obtain ⟨b, hprologue, h⟩ := hostThen_eq_next_iff.mp h
  obtain ⟨⟨result, e⟩, hchannel, h⟩ := hostThen_eq_next_iff.mp h
  cases result with
  | error _ => cases h
  | ok signal =>
    cases h
    obtain ⟨a, hadded, h⟩ := hostThen_eq_next_iff.mp hchannel
    have hga := channelSequence_generated (embedPrologue_generated hr hb hprologue) hadded
    split at h
    · cases h
    · obtain ⟨⟨passes, d⟩, hverify, h⟩ := hostThen_eq_next_iff.mp h
      obtain ⟨c, hc, hverify⟩ := hostThen_eq_next_iff.mp hverify
      obtain ⟨_, hd, hverify⟩ := hostThen_eq_next_iff.mp hverify
      cases hverify
      split at h
      · next hpasses =>
        obtain ⟨out, hout, h⟩ := hostThen_eq_next_iff.mp h
        cases h
        exact ⟨a, c, d, hga, hc, hd, hpasses, hout⟩
      · cases h

/-- A verification leaves the signal in SMP, so that what is read out after it is the signal that CORRELATE took. -/
theorem readOut_of_verification {m n : Nat} {a c d : State} {signal : List Word} (hga : Generated p sf seed a)
    (hc : runInputs (opRun .correlate m) a = .next c) (hec : c.status.errcode = .noError)
    (hd : runInputs (opRun .decode n) c = .next d) (hout : hostReadOut .smp d.slen.toNat d = .next (signal, t)) :
    CorrelateChecksPass a ∧ signal.length = a.slen.toNat ∧ ∀ k, k < a.slen.toNat → a.smp.read k = signal[k]? := by
  obtain ⟨hrc, hbc, hpc, -, hslenc, -, hsmpc⟩ := runInputs_opRun_frame hga.rstN hga.busy hc
  obtain ⟨hrd, hbd, hpd, -, hslend, -, hsmpd⟩ := runInputs_opRun_frame hrc hbc hd
  have hslen : d.slen = a.slen := hslend.trans hslenc
  have hsmp : d.smp = a.smp := (hsmpd nofun nofun).trans (hsmpc nofun nofun)
  obtain ⟨_, _, u, hu, rfl⟩ := runInputs_opRun_next hga.rstN hga.busy hc
  have hpass : CorrelateChecksPass a := checkCorrelate_eq_none_iff_checksPass.mp (checksPass_of_noError hu hec)
  have ⟨_, _, hfit⟩ := hpass
  have hread := (hostReadOut_eq_next_iff hrd hbd (by rw [State.size, hpd, hpc, hslen]; exact hfit) d.slen.isLt.le).mp
    ⟨t, hout⟩
  rw [hslen] at hread
  simp only [State.readCell, hsmp] at hread
  exact ⟨hpass, hread⟩

/-! Extract. -/

/-- Up to the verification, extract puts the PN sequence and the signal in place. -/
theorem runInputs_extract_signal (sf seed : Word) {signal : List Word} (latency : Instr → Nat) (hr : s.rstN = true)
    (hb : s.status.busy = false) (hfit : signal.length ≤ s.params.smpMax) (hword : signal.length < 2 ^ 32) :
    ∃ a, runInputs (extractSequence sf seed signal latency) s = runInputs (verifySequence latency) a ∧
      Generated s.params sf seed a ∧ a.slen.toNat = signal.length ∧
      ∀ k, k < signal.length → a.smp.read k = signal[k]? := by
  obtain ⟨b, hb', hgb⟩ := runInputs_generate sf seed (latency .genPn) hr hb
  obtain ⟨hptr, hgptr⟩ := hgb.write (r := .ptr .smp) (by simp) 0#32
  obtain ⟨hload, hgload⟩ := hgptr.load (x := .smp) nofun signal
  obtain ⟨hslen, hgslen⟩ := hgload.write (r := .slen) (by simp) (BitVec.ofNat 32 signal.length)
  refine ⟨_, ?_, hgslen, Nat.mod_eq_of_lt hword, ?_⟩
  · rw [extractSequence, runInputs_append, runInputs_append, runInputs_append, runInputs_append, hb', hostThen_next,
      hptr, hostThen_next, hload, hostThen_next, hslen, hostThen_next]
  · have hcells := loaded_smp_read (s := writeReg (.ptr .smp) 0#32 b) (vs := signal) (k := 0) rfl
      (by rw [hgptr.params]; omega) (by omega)
    exact fun k hk => (congrArg _ (Nat.zero_add k)).symm.trans (hcells.2 k hk)

/-- RUN CORRELATE on the same signal under the same PN sequence leaves the same symbols. -/
theorem SameSignal.runCorrelate {m : Nat} (h : SameSignal s s') (hr : s.rstN = true) (hb : s.status.busy = false)
    (hr' : s'.rstN = true) (hb' : s'.status.busy = false) (ht : runInputs (opRun .correlate m) s = .next t)
    (he : t.status.errcode = .noError) (n : Nat) :
    ∃ t', runInputs (opRun .correlate n) s' = .next t' ∧ SameSymbols t t' := by
  obtain ⟨v, w, u, hu, rfl⟩ := runInputs_opRun_next hr hb ht
  obtain ⟨v', hrun⟩ := runInputs_opRun (s := s') .correlate n hr' hb'
  have hissued : SameSignal ((s.issue (encode .correlate)).setRdata v) ((s'.issue (encode .correlate)).setRdata v') :=
    ⟨h.params, h.sf, h.slen, h.pn, h.smp⟩
  obtain ⟨u', hu', hsame⟩ := hissued.correlate hu he
  exact ⟨u'.setRdata u'.status.toWord, by rw [hrun, hu', hostThen_next], hsame.params, hsame.nsym, hsame.sym⟩

/-- RUN DECODE on the same symbols leaves the same message. -/
theorem SameSymbols.runDecode {m : Nat} (h : SameSymbols s s') (hr : s.rstN = true) (hb : s.status.busy = false)
    (hr' : s'.rstN = true) (hb' : s'.status.busy = false) (ht : runInputs (opRun .decode m) s = .next t)
    (he : t.status.errcode = .noError) (n : Nat) :
    ∃ t', runInputs (opRun .decode n) s' = .next t' ∧ t'.status.errcode = .noError ∧ SameMessage t t' := by
  obtain ⟨v, w, u, hu, rfl⟩ := runInputs_opRun_next hr hb ht
  obtain ⟨v', hrun⟩ := runInputs_opRun (s := s') .decode n hr' hb'
  have hissued : SameSymbols ((s.issue (encode .decode)).setRdata v) ((s'.issue (encode .decode)).setRdata v') :=
    ⟨h.params, h.nsym, h.sym⟩
  obtain ⟨u', hu', he', hsame⟩ := hissued.decode hu he
  exact ⟨u'.setRdata u'.status.toWord, by rw [hrun, hu', hostThen_next], he', hsame.mlen, hsame.inside, hsame.msg⟩

/-- The verification of the same signal under the same PN sequence leaves the same message on both blocks. -/
theorem SameSignal.verify {m n : Nat} {c d : State} (h : SameSignal s s') (hr : s.rstN = true)
    (hb : s.status.busy = false) (hr' : s'.rstN = true) (hb' : s'.status.busy = false)
    (hc : runInputs (opRun .correlate m) s = .next c) (hec : c.status.errcode = .noError)
    (hd : runInputs (opRun .decode n) c = .next d) (hed : d.status.errcode = .noError) (latency : Instr → Nat) :
    ∃ d', runInputs (verifySequence latency) s' = .next d' ∧ d'.rstN = true ∧ d'.status.busy = false ∧
      d'.status.errcode = .noError ∧ SameMessage d d' := by
  obtain ⟨hrc, hbc, -⟩ := runInputs_opRun_frame hr hb hc
  obtain ⟨c', hc', hsymbols⟩ := h.runCorrelate hr hb hr' hb' hc hec (latency .correlate)
  obtain ⟨hrc', hbc', -⟩ := runInputs_opRun_frame hr' hb' hc'
  obtain ⟨d', hd', hed', hmessage⟩ := hsymbols.runDecode hrc hbc hrc' hbc' hd hed (latency .decode)
  obtain ⟨hrd', hbd', -⟩ := runInputs_opRun_frame hrc' hbc' hd'
  exact ⟨d', by rw [verifySequence, runInputs_append, hc', hostThen_next, hd'], hrd', hbd', hed', hmessage⟩

/-- Blocks with the PN sequence of the same SEED hold the same signal where their samples below SLEN agree. -/
theorem Generated.sameSignal (h : Generated p sf seed s) (h' : Generated p sf seed s') (hpass : CorrelateChecksPass s)
    (hslen : s.slen = s'.slen) (hsmp : ∀ k, k < s.slen.toNat → s.smp.read k = s'.smp.read k) : SameSignal s s' := by
  obtain ⟨h1, hmax, -⟩ := hpass
  rw [h.factor] at h1 hmax
  rw [h.params] at hmax
  refine ⟨h.params.trans h'.params.symm, h.factor.trans h'.factor.symm, hslen, fun j hj => ?_, hsmp⟩
  rw [h.factor] at hj
  exact (h.pn h1 hmax j hj).trans (h'.pn h1 hmax j hj).symm

/-- Where extract's verification leaves the message in MSG, extract reads it out and returns it. -/
theorem hostExtract_of_message {signal : List Word} {latency : Instr → Nat}
    (hrun : runInputs (extractSequence sf seed signal latency) s = .next t) (hr : t.rstN = true)
    (hb : t.status.busy = false) (he : t.status.errcode = .noError) (hlen : t.mlen.toNat = message.length)
    (hfit : message.length ≤ t.params.msgMax) (hmsg : ∀ b, b < message.length → t.msg.read b = message[b]?)
    (hvalid : validText message = true) :
    ∃ u, hostExtract sf seed validText signal latency s = .next (.ok message, u) := by
  obtain ⟨u, hout⟩ := (hostReadOut_eq_next_iff (x := .msg) (n := message.length)
    (ws := message.map fun b => b.setWidth 32) hr hb hfit (by have := t.mlen.isLt; omega)).mpr
      ⟨List.length_map .., fun b hb => by rw [State.readCell, hmsg b hb, List.getElem?_map]⟩
  have hbytes : (message.map fun b => b.setWidth 32).map (fun w : Word => w.setWidth 8) = message := by
    rw [List.map_map]
    exact (List.map_congr_left fun b _ => by simp).trans (List.map_id message)
  refine ⟨u, ?_⟩
  rw [hostExtract, hrun, hostThen_next, he, if_neg nofun, hlen, hout, hostThen_next, hbytes, if_pos hvalid]

/-- Settles O60: embed has checked that its signal decodes to the message, and extract decodes the same signal under the
same PN sequence. -/
theorem extractReturnsEmbeddedMessage : Obligations.ExtractReturnsEmbeddedMessage := by
  intro sf seed strength validText message carrier stego latency latency' s s' t hr hb hr' hb' hparams h
  obtain ⟨a, c, d, hga, hc, hd, hpasses, hout⟩ := hostEmbed_ok hr hb h
  obtain ⟨hec, hed, -, hlen, hmsg, hvalid⟩ := embedPasses_eq_true_iff.mp hpasses
  obtain ⟨hpass, hstego, hsmp⟩ := readOut_of_verification hga hc hec hd hout
  have hfit : a.slen.toNat ≤ s.params.smpMax := hga.params ▸ hpass.2.2
  obtain ⟨a', hrun, hga', hslen', hsmp'⟩ := runInputs_extract_signal sf seed (signal := stego) latency' hr' hb'
    (by rw [hparams, hstego]; exact hfit) (hstego ▸ a.slen.isLt)
  rw [hparams] at hga'
  have hsignal : SameSignal a a' := hga.sameSignal hga' hpass
    (BitVec.eq_of_toNat_eq (hstego.symm.trans hslen'.symm))
    fun k hk => (hsmp k hk).trans (hsmp' k (hstego ▸ hk)).symm
  obtain ⟨d', hd', hr'', hb'', hed', hmessage⟩ :=
    hsignal.verify hga.rstN hga.busy hga'.rstN hga'.busy hc hec hd hed latency'
  have hlen' : d'.mlen.toNat = message.length := by rw [← hmessage.mlen, hlen]
  refine hostExtract_of_message (hrun.trans hd') hr'' hb'' hed' hlen' (hlen' ▸ hmessage.inside) (fun b hb => ?_) hvalid
  rw [← hmessage.msg b (hlen ▸ hb)]
  exact (Memory.readRun_eq_some_iff.mp hmsg).2 b hb

end Sys2Proof.Machine
end
